-- ==== Sys2Proof/Word.lean ====
section
/-! DEFINITION. The word types of the block: register words, descriptor words, global sample numbers, and the
exact value a binary32 word stands for (00_scope.md R9, R12). -/

namespace Sys2Proof

/-- A 32-bit register word, or the 32 bits of a binary32 value (20_memory.md R62). -/
abbrev Word := BitVec 32

/-- A 16-bit word of a port's transaction stream: a descriptor or 16 bits of a payload (30_encoding.md R80). -/
abbrev Desc := BitVec 16

/-- A byte address of the register space (30_encoding.md R82). -/
abbrev Addr := BitVec 12

/-- A global sample number, modulo 2^64 (10_state.md R34). -/
abbrev SampleNo := BitVec 64

/-- What the bits of a binary32 value stand for (00_scope.md R9). A finite value is exactly
`± units · 2^-149`: every finite binary32 value is a multiple of the smallest subnormal. -/
inductive Fp where
  | nan
  | inf (neg : Bool)
  | fin (neg : Bool) (units : Nat)
  deriving DecidableEq, Repr

end Sys2Proof
end

