-- ==== Sys2Proof/Config.lean ====
section
/-! DEFINITION. What an instance of the block fixes (00_scope.md R5), the policy of the external CRC unit
(92_eei_decisions.md D24), and the free values: opaque constants with no body. -/

namespace Sys2Proof

/-- The instance parameters (00_scope.md R5, 10_state.md R49), "arguments of the model": a State carries them
as plain data that no step changes (notes/assumptions/5.md). -/
structure Params where
  nfWMax : Nat    -- NF_WMAX
  fqDepth : Nat   -- FQ_DEPTH
  deriving DecidableEq, Repr

/-- The default parameters (00_scope.md R5). -/
def Params.default : Params := { nfWMax := 4096, fqDepth := 8 }

/-- The legal parameters (00_scope.md R5). -/
abbrev Params.Legal (p : Params) : Prop :=
  1 ≤ p.nfWMax ∧ p.nfWMax ≤ 65535 ∧ 1 ≤ p.fqDepth ∧ p.fqDepth ≤ 255

/-- CRC_OTHER_DF_POLICY (92_eei_decisions.md D24): what the external CRC unit says of a frame whose DF is none
of 11, 17, 18. -/
inductive CrcPolicy where
  | reject | acceptZeroResidue | acceptAny
  deriving DecidableEq, Repr, Inhabited

/-- The policy of the external unit: OPEN (92_eei_decisions.md D24). -/
opaque Config.crcOtherDfPolicy : CrcPolicy

/-- FREE VALUE: the sign bit and the payload of a NaN produced at a sample number, which IEEE 754 and the
spec leave open (00_scope.md R9; notes/assumptions/9.md). -/
opaque Config.nanFree : SampleNo → BitVec 23

end Sys2Proof
end

