-- ==== Sys2Proof/Machine/Binary32.lean ====
section
/-! DEFINITION. IEEE 754 binary32 (00_scope.md R9 to R12, 20_memory.md R62): a value is taken apart exactly,
computed exactly on integers in units of 2^-149, and rounded once, to nearest, ties to even. Subnormals are
kept and no exception flag exists (notes/assumptions/18.md). -/

namespace Sys2Proof.Machine

/-- The value of a binary32 word: sign in bit 31, biased exponent in 30:23, fraction in 22:0
(20_memory.md R62, 00_scope.md R12). -/
def f32 (b : Word) : Fp :=
  let neg := b.getLsbD 31
  let e := (b.extractLsb' 23 8).toNat
  let f := (b.extractLsb' 0 23).toNat
  if e = 255 then (if f = 0 then .inf neg else .nan)
  else if e = 0 then .fin neg f
  else .fin neg ((2 ^ 23 + f) * 2 ^ (e - 1))

/-- How many low bits a number has above 24: the quantum of a binary32 value of that many units. -/
def excess (n : Nat) : Nat := n.log2 + 1 - 24

/-- The bits of a finite value whose units a binary32 value has: below 2^24 units the bits are the units
(subnormals and the first binade), above it the exponent grows by one per bit. -/
def finBits (neg : Bool) (units : Nat) : Word :=
  BitVec.ofBool neg ++ BitVec.ofNat 31 (excess units * 2 ^ 23 + units / 2 ^ excess units)

/-- The bits of a value. The bits of a NaN are a quiet NaN whose sign and payload are the free value given. -/
def bitsOf (free : BitVec 23) : Fp → Word
  | .nan => free.extractLsb' 22 1 ++ 0xFF#8 ++ 1#1 ++ free.extractLsb' 0 22
  | .inf neg => BitVec.ofBool neg ++ 0x7F800000#31
  | .fin neg units => finBits neg units

/-- `n / 2^q` rounded to the nearest integer, ties to even. -/
def roundEven (n q : Nat) : Nat :=
  let m := n / 2 ^ q
  let r := n % 2 ^ q
  if 2 * r > 2 ^ q ∨ (2 * r = 2 ^ q ∧ m % 2 = 1) then m + 1 else m

/-- 2^128, where the finite values end, in units of 2^-149. -/
@[irreducible] def two128 : Nat := 2 ^ 128 * 2 ^ 149

/-- The one rounding of an operation (00_scope.md R9): the exact result `± n · 2^-(149 + k)` to the nearest
binary32 value, ties to even; from 2^128 up it is an infinity. -/
@[irreducible] def roundTo (neg : Bool) (n k : Nat) : Fp :=
  let q := max k (excess n)
  let units := roundEven n q * 2 ^ (q - k)
  if units < two128 then .fin neg units else .inf neg

/-- A signed number of units. -/
def signed (neg : Bool) (units : Nat) : Int := if neg then -(units : Int) else units

def fneg : Fp → Fp
  | .nan => .nan
  | .inf a => .inf !a
  | .fin a x => .fin (!a) x

/-- fabs (00_scope.md R9). -/
def fabs : Fp → Fp
  | .nan => .nan
  | .inf _ => .inf false
  | .fin _ x => .fin false x

/-- fadd (00_scope.md R9). An exact sum of zero is +0 unless both operands are negative zeros. -/
def fadd : Fp → Fp → Fp
  | .nan, _ => .nan
  | _, .nan => .nan
  | .inf a, .inf b => if a = b then .inf a else .nan
  | .inf a, .fin _ _ => .inf a
  | .fin _ _, .inf b => .inf b
  | .fin a x, .fin b y =>
    let z := signed a x + signed b y
    if z = 0 then .fin (a && b) 0 else roundTo (decide (z < 0)) z.natAbs 0

/-- fsub (00_scope.md R9). -/
def fsub (a b : Fp) : Fp := fadd a (fneg b)

/-- fmul (00_scope.md R9). -/
def fmul : Fp → Fp → Fp
  | .nan, _ => .nan
  | _, .nan => .nan
  | .inf a, .inf b => .inf (a != b)
  | .inf a, .fin b y => if y = 0 then .nan else .inf (a != b)
  | .fin a x, .inf b => if x = 0 then .nan else .inf (a != b)
  | .fin a x, .fin b y => roundTo (a != b) (x * y) 149

/-- Integer square root by its bits, from bit `k - 1` down, on top of the part `r` already found. -/
def isqrtBits (n : Nat) : Nat → Nat → Nat
  | 0, r => r
  | k + 1, r => isqrtBits n k (if (r + 2 ^ k) * (r + 2 ^ k) ≤ n then r + 2 ^ k else r)

/-- The integer part of the square root. -/
def isqrt (n : Nat) : Nat := isqrtBits n (n.log2 / 2 + 1) 0

/-- fsqrt (00_scope.md R9). The root of `x` units is `√(x · 2^147)` times 2^-148: twice its integer part, with a
sticky unit where the root is not exact, is in units of 2^-149 and rounds as the exact root does. -/
def fsqrt : Fp → Fp
  | .nan => .nan
  | .inf neg => if neg then .nan else .inf false
  | .fin neg x =>
    if x = 0 then .fin neg 0
    else if neg then .nan
    else
      let n := x * 2 ^ 147
      let r := isqrt n
      roundTo false (2 * r + (if r * r = n then 0 else 1)) 0

/-- Where a value stands in the order of the binary32 values, both zeros at 0; none for a NaN. -/
def rank : Fp → Option Int
  | .nan => none
  | .inf neg => some (signed neg two128)
  | .fin neg x => some (signed neg x)

/-- The IEEE comparison `a > b`, false on a NaN (00_scope.md R10). -/
def fgt (a b : Fp) : Bool :=
  match rank a, rank b with
  | some x, some y => decide (y < x)
  | _, _ => false

/-- The IEEE comparison `a >= b`, false on a NaN (00_scope.md R10). -/
def fge (a b : Fp) : Bool :=
  match rank a, rank b with
  | some x, some y => decide (y ≤ x)
  | _, _ => false

/-- The IEEE comparison `a < b`, false on a NaN (00_scope.md R10). -/
def flt (a b : Fp) : Bool := fgt b a

/-- MAXF, the largest finite binary32 value (00_scope.md R12). -/
def maxF : Word := 0x7F7FFFFF#32

/-- 2^-s for a shift of 0 .. 31 (41_noise_floor.md R146). -/
def powNeg (s : BitVec 5) : Fp := .fin false (2 ^ (149 - s.toNat))

end Sys2Proof.Machine
end

