-- ==== Sys2Proof/Syntax.lean ====
section
/-! DEFINITION. The syntax of the block's transactions: the ports, the registers of 10_state.md R22, and one
constructor of Instr per row of spec/opcode_table.json (30_encoding.md R80, R92). -/

namespace Sys2Proof

/-- The three ports of the block (20_memory.md R60). -/
inductive Port where
  | s   -- sample stream, SAMPLE
  | r   -- register port, RD and WR
  | f   -- frame port, FTAKE
  deriving DecidableEq, Repr

/-- The access type of a register (10_state.md R22). -/
inductive Access where
  | rw | ro | wo
  deriving DecidableEq, Repr

/-- The registers of the register map (10_state.md R22), in address order. -/
inductive Reg where
  | id
  | version
  | ctrl
  | status
  | tAbs
  | kRel
  | eps
  | nfWindow
  | nfShift
  | holdoff
  | noise
  | sidxLo
  | sidxHi
  | cntHit
  | cntSupp
  | cntFrame
  | cntDiscard
  | cntFqdrop
  | cntBadmag
  | cntBuserr
  | frInfo
  | frTsLo
  | frTsHi
  | frIdxLo
  | frIdxHi
  | frScore
  | frNoise
  | frData0
  | frData1
  | frData2
  | frData3
  | frSoft0
  | frSoft1
  | frSoft2
  | frSoft3
  | frPop
  deriving DecidableEq, Repr

/-- The transactions of the block. RD and WR have one constructor per mapped register and one for the bus
error; SAMPLE carries LAST and the two halves of the sample word; FTAKE has no operand. -/
inductive Instr where
  | rdId
  | rdVersion
  | rdCtrl
  | rdStatus
  | rdTAbs
  | rdKRel
  | rdEps
  | rdNfWindow
  | rdNfShift
  | rdHoldoff
  | rdNoise
  | rdSidxLo
  | rdSidxHi
  | rdCntHit
  | rdCntSupp
  | rdCntFrame
  | rdCntDiscard
  | rdCntFqdrop
  | rdCntBadmag
  | rdCntBuserr
  | rdFrInfo
  | rdFrTsLo
  | rdFrTsHi
  | rdFrIdxLo
  | rdFrIdxHi
  | rdFrScore
  | rdFrNoise
  | rdFrData0
  | rdFrData1
  | rdFrData2
  | rdFrData3
  | rdFrSoft0
  | rdFrSoft1
  | rdFrSoft2
  | rdFrSoft3
  | rdFrPop
  | rdBuserr (addr : Addr)
  | wrId (wdata : Word)
  | wrVersion (wdata : Word)
  | wrCtrl (wdata : Word)
  | wrStatus (wdata : Word)
  | wrTAbs (wdata : Word)
  | wrKRel (wdata : Word)
  | wrEps (wdata : Word)
  | wrNfWindow (wdata : Word)
  | wrNfShift (wdata : Word)
  | wrHoldoff (wdata : Word)
  | wrNoise (wdata : Word)
  | wrSidxLo (wdata : Word)
  | wrSidxHi (wdata : Word)
  | wrCntHit (wdata : Word)
  | wrCntSupp (wdata : Word)
  | wrCntFrame (wdata : Word)
  | wrCntDiscard (wdata : Word)
  | wrCntFqdrop (wdata : Word)
  | wrCntBadmag (wdata : Word)
  | wrCntBuserr (wdata : Word)
  | wrFrInfo (wdata : Word)
  | wrFrTsLo (wdata : Word)
  | wrFrTsHi (wdata : Word)
  | wrFrIdxLo (wdata : Word)
  | wrFrIdxHi (wdata : Word)
  | wrFrScore (wdata : Word)
  | wrFrNoise (wdata : Word)
  | wrFrData0 (wdata : Word)
  | wrFrData1 (wdata : Word)
  | wrFrData2 (wdata : Word)
  | wrFrData3 (wdata : Word)
  | wrFrSoft0 (wdata : Word)
  | wrFrSoft1 (wdata : Word)
  | wrFrSoft2 (wdata : Word)
  | wrFrSoft3 (wdata : Word)
  | wrFrPop (wdata : Word)
  | wrBuserr (addr : Addr) (wdata : Word)
  | sample (last : Bool) (im re : Word)
  | ftake
  deriving DecidableEq, Repr

end Sys2Proof
end

