-- ==== Sys2Proof/Decode.lean ====
section
/-! DEFINITION. Decoding and encoding of transactions (30_encoding.md): the register map, the decoder of a
port's 16-bit word stream, the encoder written from the same tables, and the table-word entry of the host.
A payload stands after its descriptor, its least significant 16 bits first (notes/assumptions/1.md). -/

namespace Sys2Proof

/-- The byte address of each register (10_state.md R22). -/
def regAddr : Reg → Addr
  | .id => 0x000#12
  | .version => 0x004#12
  | .ctrl => 0x008#12
  | .status => 0x00C#12
  | .tAbs => 0x010#12
  | .kRel => 0x014#12
  | .eps => 0x018#12
  | .nfWindow => 0x01C#12
  | .nfShift => 0x020#12
  | .holdoff => 0x024#12
  | .noise => 0x028#12
  | .sidxLo => 0x02C#12
  | .sidxHi => 0x030#12
  | .cntHit => 0x040#12
  | .cntSupp => 0x044#12
  | .cntFrame => 0x048#12
  | .cntDiscard => 0x04C#12
  | .cntFqdrop => 0x050#12
  | .cntBadmag => 0x054#12
  | .cntBuserr => 0x058#12
  | .frInfo => 0x080#12
  | .frTsLo => 0x084#12
  | .frTsHi => 0x088#12
  | .frIdxLo => 0x08C#12
  | .frIdxHi => 0x090#12
  | .frScore => 0x094#12
  | .frNoise => 0x098#12
  | .frData0 => 0x0A0#12
  | .frData1 => 0x0A4#12
  | .frData2 => 0x0A8#12
  | .frData3 => 0x0AC#12
  | .frSoft0 => 0x0B0#12
  | .frSoft1 => 0x0B4#12
  | .frSoft2 => 0x0B8#12
  | .frSoft3 => 0x0BC#12
  | .frPop => 0x0C0#12

/-- The access type of each register (10_state.md R22). -/
def regAccess : Reg → Access
  | .id => .ro
  | .version => .ro
  | .ctrl => .rw
  | .status => .ro
  | .tAbs => .rw
  | .kRel => .rw
  | .eps => .rw
  | .nfWindow => .rw
  | .nfShift => .rw
  | .holdoff => .rw
  | .noise => .ro
  | .sidxLo => .ro
  | .sidxHi => .ro
  | .cntHit => .ro
  | .cntSupp => .ro
  | .cntFrame => .ro
  | .cntDiscard => .ro
  | .cntFqdrop => .ro
  | .cntBadmag => .ro
  | .cntBuserr => .ro
  | .frInfo => .ro
  | .frTsLo => .ro
  | .frTsHi => .ro
  | .frIdxLo => .ro
  | .frIdxHi => .ro
  | .frScore => .ro
  | .frNoise => .ro
  | .frData0 => .ro
  | .frData1 => .ro
  | .frData2 => .ro
  | .frData3 => .ro
  | .frSoft0 => .ro
  | .frSoft1 => .ro
  | .frSoft2 => .ro
  | .frSoft3 => .ro
  | .frPop => .wo

/-- The rows of the register map, in address order (10_state.md R22). -/
def regMap : List Reg :=
  [.id, .version, .ctrl, .status, .tAbs, .kRel, .eps, .nfWindow,
   .nfShift, .holdoff, .noise, .sidxLo, .sidxHi, .cntHit, .cntSupp, .cntFrame,
   .cntDiscard, .cntFqdrop, .cntBadmag, .cntBuserr, .frInfo, .frTsLo, .frTsHi, .frIdxLo,
   .frIdxHi, .frScore, .frNoise, .frData0, .frData1, .frData2, .frData3, .frSoft0,
   .frSoft1, .frSoft2, .frSoft3, .frPop]

/-- The register an address names, or none: every address in no row of R22, the misaligned ones among them,
is a bus error (45_register_port.md R264). -/
def regAt (a : Addr) : Option Reg := regMap.find? fun r => regAddr r == a

/-- The RD of a mapped register (30_encoding.md R92). -/
def rdOf : Reg → Instr
  | .id => .rdId
  | .version => .rdVersion
  | .ctrl => .rdCtrl
  | .status => .rdStatus
  | .tAbs => .rdTAbs
  | .kRel => .rdKRel
  | .eps => .rdEps
  | .nfWindow => .rdNfWindow
  | .nfShift => .rdNfShift
  | .holdoff => .rdHoldoff
  | .noise => .rdNoise
  | .sidxLo => .rdSidxLo
  | .sidxHi => .rdSidxHi
  | .cntHit => .rdCntHit
  | .cntSupp => .rdCntSupp
  | .cntFrame => .rdCntFrame
  | .cntDiscard => .rdCntDiscard
  | .cntFqdrop => .rdCntFqdrop
  | .cntBadmag => .rdCntBadmag
  | .cntBuserr => .rdCntBuserr
  | .frInfo => .rdFrInfo
  | .frTsLo => .rdFrTsLo
  | .frTsHi => .rdFrTsHi
  | .frIdxLo => .rdFrIdxLo
  | .frIdxHi => .rdFrIdxHi
  | .frScore => .rdFrScore
  | .frNoise => .rdFrNoise
  | .frData0 => .rdFrData0
  | .frData1 => .rdFrData1
  | .frData2 => .rdFrData2
  | .frData3 => .rdFrData3
  | .frSoft0 => .rdFrSoft0
  | .frSoft1 => .rdFrSoft1
  | .frSoft2 => .rdFrSoft2
  | .frSoft3 => .rdFrSoft3
  | .frPop => .rdFrPop

/-- The WR of a mapped register with its payload (30_encoding.md R92). -/
def wrOf (r : Reg) (v : Word) : Instr :=
  match r with
  | .id => .wrId v
  | .version => .wrVersion v
  | .ctrl => .wrCtrl v
  | .status => .wrStatus v
  | .tAbs => .wrTAbs v
  | .kRel => .wrKRel v
  | .eps => .wrEps v
  | .nfWindow => .wrNfWindow v
  | .nfShift => .wrNfShift v
  | .holdoff => .wrHoldoff v
  | .noise => .wrNoise v
  | .sidxLo => .wrSidxLo v
  | .sidxHi => .wrSidxHi v
  | .cntHit => .wrCntHit v
  | .cntSupp => .wrCntSupp v
  | .cntFrame => .wrCntFrame v
  | .cntDiscard => .wrCntDiscard v
  | .cntFqdrop => .wrCntFqdrop v
  | .cntBadmag => .wrCntBadmag v
  | .cntBuserr => .wrCntBuserr v
  | .frInfo => .wrFrInfo v
  | .frTsLo => .wrFrTsLo v
  | .frTsHi => .wrFrTsHi v
  | .frIdxLo => .wrFrIdxLo v
  | .frIdxHi => .wrFrIdxHi v
  | .frScore => .wrFrScore v
  | .frNoise => .wrFrNoise v
  | .frData0 => .wrFrData0 v
  | .frData1 => .wrFrData1 v
  | .frData2 => .wrFrData2 v
  | .frData3 => .wrFrData3 v
  | .frSoft0 => .wrFrSoft0 v
  | .frSoft1 => .wrFrSoft1 v
  | .frSoft2 => .wrFrSoft2 v
  | .frSoft3 => .wrFrSoft3 v
  | .frPop => .wrFrPop v

/-- The four transaction kinds (30_encoding.md R80). -/
inductive Kind where
  | rd | wr | sample | ftake
  deriving DecidableEq, Repr

/-- Why a word stream spells no transaction (30_encoding.md R88, R89; notes/assumptions/16.md). -/
inductive DecodeError where
  | reservedKind      -- KIND 100 .. 111 (R88)
  | reservedBits      -- a reserved bit of the descriptor is not 0 (R89)
  | truncated         -- the stream ends inside the descriptor or its payload
  deriving DecidableEq, Repr

/-- KIND, descriptor bits 15:13 (30_encoding.md R81). -/
def kindOf (d : Desc) : Option Kind :=
  if d.extractLsb' 13 3 = 0b000#3 then some .rd
  else if d.extractLsb' 13 3 = 0b001#3 then some .wr
  else if d.extractLsb' 13 3 = 0b010#3 then some .sample
  else if d.extractLsb' 13 3 = 0b011#3 then some .ftake
  else none

/-- ADDR, descriptor bits 11:0 (30_encoding.md R82, R86). -/
def addrOf (d : Desc) : Addr := d.extractLsb' 0 12

/-- LAST, descriptor bit 0 (30_encoding.md R84). -/
def lastOf (d : Desc) : Bool := d.getLsbD 0

/-- The reserved bits of a descriptor of the kind are all 0 (30_encoding.md R82, R83, R84, R89). -/
def reservedClear (k : Kind) (d : Desc) : Bool :=
  match k with
  | .rd | .wr => d.extractLsb' 12 1 == 0#1
  | .sample => d.extractLsb' 1 12 == 0#12
  | .ftake => d.extractLsb' 0 13 == 0#13

/-- The RD of an address: its register's, or the bus error's (30_encoding.md R90, R92). -/
def decodeRd (a : Addr) : Instr :=
  match regAt a with
  | some r => rdOf r
  | none => .rdBuserr a

/-- The WR of an address and its payload (30_encoding.md R90, R92). -/
def decodeWr (a : Addr) (v : Word) : Instr :=
  match regAt a with
  | some r => wrOf r v
  | none => .wrBuserr a v

/-- Take the payload of a kind off the stream (30_encoding.md R85: 0, 32, 64 and 0 bits) and build the
transaction. -/
def decodeBody (k : Kind) (d : Desc) (ws : List Desc) : Except DecodeError (Instr × List Desc) :=
  match k, ws with
  | .rd, ws => .ok (decodeRd (addrOf d), ws)
  | .wr, w0 :: w1 :: rest => .ok (decodeWr (addrOf d) (w1 ++ w0), rest)
  | .wr, _ => .error .truncated
  | .sample, w0 :: w1 :: w2 :: w3 :: rest => .ok (.sample (lastOf d) (w3 ++ w2) (w1 ++ w0), rest)
  | .sample, _ => .error .truncated
  | .ftake, ws => .ok (.ftake, ws)

/-- Read one transaction off a stream of words and give the rest of the stream (30_encoding.md R85). -/
def decode : List Desc → Except DecodeError (Instr × List Desc)
  | [] => .error .truncated
  | d :: ws =>
    match kindOf d with
    | none => .error .reservedKind
    | some k => if reservedClear k d then decodeBody k d ws else .error .reservedBits

/-- A transaction as its kind and operands, whatever register it names. -/
inductive Form where
  | rd (addr : Addr)
  | wr (addr : Addr) (wdata : Word)
  | sample (last : Bool) (im re : Word)
  | ftake
  deriving DecidableEq, Repr

/-- The form of each transaction (30_encoding.md R92). -/
def formOf : Instr → Form
  | .rdId => .rd (regAddr .id)
  | .rdVersion => .rd (regAddr .version)
  | .rdCtrl => .rd (regAddr .ctrl)
  | .rdStatus => .rd (regAddr .status)
  | .rdTAbs => .rd (regAddr .tAbs)
  | .rdKRel => .rd (regAddr .kRel)
  | .rdEps => .rd (regAddr .eps)
  | .rdNfWindow => .rd (regAddr .nfWindow)
  | .rdNfShift => .rd (regAddr .nfShift)
  | .rdHoldoff => .rd (regAddr .holdoff)
  | .rdNoise => .rd (regAddr .noise)
  | .rdSidxLo => .rd (regAddr .sidxLo)
  | .rdSidxHi => .rd (regAddr .sidxHi)
  | .rdCntHit => .rd (regAddr .cntHit)
  | .rdCntSupp => .rd (regAddr .cntSupp)
  | .rdCntFrame => .rd (regAddr .cntFrame)
  | .rdCntDiscard => .rd (regAddr .cntDiscard)
  | .rdCntFqdrop => .rd (regAddr .cntFqdrop)
  | .rdCntBadmag => .rd (regAddr .cntBadmag)
  | .rdCntBuserr => .rd (regAddr .cntBuserr)
  | .rdFrInfo => .rd (regAddr .frInfo)
  | .rdFrTsLo => .rd (regAddr .frTsLo)
  | .rdFrTsHi => .rd (regAddr .frTsHi)
  | .rdFrIdxLo => .rd (regAddr .frIdxLo)
  | .rdFrIdxHi => .rd (regAddr .frIdxHi)
  | .rdFrScore => .rd (regAddr .frScore)
  | .rdFrNoise => .rd (regAddr .frNoise)
  | .rdFrData0 => .rd (regAddr .frData0)
  | .rdFrData1 => .rd (regAddr .frData1)
  | .rdFrData2 => .rd (regAddr .frData2)
  | .rdFrData3 => .rd (regAddr .frData3)
  | .rdFrSoft0 => .rd (regAddr .frSoft0)
  | .rdFrSoft1 => .rd (regAddr .frSoft1)
  | .rdFrSoft2 => .rd (regAddr .frSoft2)
  | .rdFrSoft3 => .rd (regAddr .frSoft3)
  | .rdFrPop => .rd (regAddr .frPop)
  | .rdBuserr a => .rd a
  | .wrId v => .wr (regAddr .id) v
  | .wrVersion v => .wr (regAddr .version) v
  | .wrCtrl v => .wr (regAddr .ctrl) v
  | .wrStatus v => .wr (regAddr .status) v
  | .wrTAbs v => .wr (regAddr .tAbs) v
  | .wrKRel v => .wr (regAddr .kRel) v
  | .wrEps v => .wr (regAddr .eps) v
  | .wrNfWindow v => .wr (regAddr .nfWindow) v
  | .wrNfShift v => .wr (regAddr .nfShift) v
  | .wrHoldoff v => .wr (regAddr .holdoff) v
  | .wrNoise v => .wr (regAddr .noise) v
  | .wrSidxLo v => .wr (regAddr .sidxLo) v
  | .wrSidxHi v => .wr (regAddr .sidxHi) v
  | .wrCntHit v => .wr (regAddr .cntHit) v
  | .wrCntSupp v => .wr (regAddr .cntSupp) v
  | .wrCntFrame v => .wr (regAddr .cntFrame) v
  | .wrCntDiscard v => .wr (regAddr .cntDiscard) v
  | .wrCntFqdrop v => .wr (regAddr .cntFqdrop) v
  | .wrCntBadmag v => .wr (regAddr .cntBadmag) v
  | .wrCntBuserr v => .wr (regAddr .cntBuserr) v
  | .wrFrInfo v => .wr (regAddr .frInfo) v
  | .wrFrTsLo v => .wr (regAddr .frTsLo) v
  | .wrFrTsHi v => .wr (regAddr .frTsHi) v
  | .wrFrIdxLo v => .wr (regAddr .frIdxLo) v
  | .wrFrIdxHi v => .wr (regAddr .frIdxHi) v
  | .wrFrScore v => .wr (regAddr .frScore) v
  | .wrFrNoise v => .wr (regAddr .frNoise) v
  | .wrFrData0 v => .wr (regAddr .frData0) v
  | .wrFrData1 v => .wr (regAddr .frData1) v
  | .wrFrData2 v => .wr (regAddr .frData2) v
  | .wrFrData3 v => .wr (regAddr .frData3) v
  | .wrFrSoft0 v => .wr (regAddr .frSoft0) v
  | .wrFrSoft1 v => .wr (regAddr .frSoft1) v
  | .wrFrSoft2 v => .wr (regAddr .frSoft2) v
  | .wrFrSoft3 v => .wr (regAddr .frSoft3) v
  | .wrFrPop v => .wr (regAddr .frPop) v
  | .wrBuserr a v => .wr a v
  | .sample last im re => .sample last im re
  | .ftake => .ftake

/-- The kind of a form (30_encoding.md R80). -/
def kindOfForm : Form → Kind
  | .rd _ => .rd
  | .wr _ _ => .wr
  | .sample _ _ _ => .sample
  | .ftake => .ftake

/-- The port a kind belongs to (10_state.md R20). -/
def portOfKind : Kind → Port
  | .rd => .r
  | .wr => .r
  | .sample => .s
  | .ftake => .f

/-- The port a transaction is issued on (10_state.md R20). -/
def portOf (i : Instr) : Port := portOfKind (kindOfForm (formOf i))

/-- The words of a form: descriptor, then payload (30_encoding.md R82, R83, R84). -/
def encodeForm : Form → List Desc
  | .rd a => [0b0000#4 ++ a]
  | .wr a v => [0b0010#4 ++ a, v.extractLsb' 0 16, v.extractLsb' 16 16]
  | .sample last im re =>
    [0b010#3 ++ 0#12 ++ BitVec.ofBool last, re.extractLsb' 0 16, re.extractLsb' 16 16,
      im.extractLsb' 0 16, im.extractLsb' 16 16]
  | .ftake => [0b011#3 ++ 0#13]

/-- The words of a transaction (30_encoding.md R81 to R85). -/
def encode (i : Instr) : List Desc := encodeForm (formOf i)

/-- How many words a transaction of a kind takes, its descriptor included (30_encoding.md R85). -/
def wordsOfKind : Kind → Nat
  | .rd => 1
  | .wr => 3
  | .sample => 5
  | .ftake => 1

/-- The five 16-bit words of a table word: bit 0 of `w` is the least significant bit of the descriptor, and
bits above `nbits` are 0. Five words hold the longest transaction (notes/assumptions/17.md). -/
def tableWords (nbits w : Nat) : List Desc :=
  (List.range 5).map fun k => BitVec.ofNat 16 (w % 2 ^ nbits / 2 ^ (16 * k))

/-- The words of the one transaction a table word begins with: as many as its kind takes, the descriptor alone
where the kind is reserved. -/
def tableTransaction (nbits w : Nat) : List Desc :=
  let ws := tableWords nbits w
  ws.take (((ws.head?.bind kindOf).map wordsOfKind).getD 1)

/-- The port a table word's transaction is placed on: its kind's, the register port where the kind is
reserved (no port has such a transaction, and step refuses it). -/
def tablePort (nbits w : Nat) : Port :=
  (((tableWords nbits w).head?.bind kindOf).map portOfKind).getD .r

/-- The instruction the decoder reads from an instruction word numbered as spec/opcode_table.json numbers it. -/
def decodeTableWord (nbits w : Nat) : Option Instr :=
  match decode (tableWords nbits w) with
  | .ok (i, _) => some i
  | .error _ => none

end Sys2Proof
end

