-- ==== Sys2Proof/Machine/State.lean ====
section
/-! DEFINITION. The state of the machine as plain data: the block's registers and internal state (10_state.md),
the instance parameters, and the host's side of the ports; the state after reset (70_reset_and_hazards.md R350);
the reasons a step can stop. -/

namespace Sys2Proof.Machine

/-- CTRL.MAG_MODE (10_state.md R25, 40_sample_magnitude.md R112). The field never holds 3. -/
inductive MagMode where
  | abs      -- 0: |z|
  | absSq    -- 1: |z|²
  | bypass   -- 2: re is the magnitude
  deriving DecidableEq, Repr

/-- CTRL.NF_MODE (10_state.md R25). -/
inductive NfMode where
  | movingMin   -- 0
  | release     -- 1: minimum envelope with exponential release
  deriving DecidableEq, Repr

/-- What the segment history holds of one sample g: m[g] (10_state.md R41) and nz[g] (R42), binary32 bits
(notes/assumptions/7.md). -/
structure HistEntry where
  mag : Word
  noise : Word
  deriving DecidableEq, Repr

/-- The demodulation in flight (10_state.md R44): the hit's sample number, its score, its noise value and its
pulse sum, the last three binary32 bits. -/
structure Demod where
  h : SampleNo
  score : Word
  noise : Word
  sHi : Word
  deriving DecidableEq, Repr

/-- A frame record (44_frame_assembler.md R232). `data` and `softmask` are the 14 bytes of each in order, byte[0]
in the most significant place (notes/assumptions/12.md). -/
structure Frame where
  seq : BitVec 8
  len : BitVec 8
  df : BitVec 5
  softAny : Bool
  siglvl : BitVec 8
  ts : BitVec 48
  idx : SampleNo
  score : Word
  noise : Word
  data : BitVec 112
  softmask : BitVec 112
  deriving DecidableEq, Repr

/-- The state of the block: everything 10_state.md §2 and §3 give it. Registers that are views of other state
(STATUS, NOISE, the frame window) are computed by their accessors (Flags.lean, Ops.lean). -/
structure Block where
  en : Bool                    -- CTRL.EN (R25)
  ie : Bool                    -- CTRL.IE (R25)
  magMode : MagMode            -- CTRL.MAG_MODE (R25)
  nfMode : NfMode              -- CTRL.NF_MODE (R25)
  tAbs : Word                  -- T_ABS (R27)
  kRel : Word                  -- K_REL (R28)
  eps : Word                   -- EPS (R29)
  nfWindow : Word              -- NF_WINDOW (R30)
  nfShift : BitVec 5           -- NF_SHIFT (R31)
  holdoff : BitVec 16          -- HOLDOFF (R32)
  sidx : SampleNo              -- SIDX (R34)
  cntHit : Word                -- the counters (R35)
  cntSupp : Word
  cntFrame : Word
  cntDiscard : Word
  cntFqdrop : Word
  cntBadmag : Word
  cntBuserr : Word
  segStart : SampleNo          -- SEG_START (R41)
  hist : List HistEntry        -- m[] and nz[] of the segment, the newest sample first (R41, R42)
  env : Option Word            -- E, none where the spec says unset (R42)
  armed : Bool                 -- ARMED (R43)
  lastHit : Option SampleNo    -- LAST_HIT (R43)
  demod : Option Demod         -- DEMOD (R44)
  fq : List Frame              -- FQ, the head first (R45)
  seqCtr : BitVec 8            -- SEQ_CTR (R46)
  deriving DecidableEq, Repr

/-- What moves next on the host's side: an agent through its port (10_state.md R20), or the reset input
(70_reset_and_hazards.md R352). -/
inductive Turn where
  | port (p : Port)
  | resetPin
  deriving DecidableEq, Repr

/-- The host's side of the ports, the model's own fields (notes/assumptions/2.md, 3.md, 4.md): the words each
agent has still to issue, the order in which the agents move, whether an FTAKE is held (44_frame_assembler.md
R236), and the responses given so far, the newest first. -/
structure Io where
  sPort : List Desc
  rPort : List Desc
  fPort : List Desc
  turns : List Turn
  fHeld : Bool
  rResponses : List Word
  fResponses : List Frame
  deriving DecidableEq, Repr

/-- The state of the machine. -/
structure State where
  params : Params
  blk : Block
  io : Io
  deriving DecidableEq, Repr

/-- The block after Reset() (70_reset_and_hazards.md R350). -/
def Block.reset : Block where
  en := false
  ie := false
  magMode := .abs
  nfMode := .movingMin
  tAbs := 0x41200000#32
  kRel := 0x40000000#32
  eps := 0x00000000#32
  nfWindow := 4000#32
  nfShift := 12#5
  holdoff := 480#16
  sidx := 0#64
  cntHit := 0#32
  cntSupp := 0#32
  cntFrame := 0#32
  cntDiscard := 0#32
  cntFqdrop := 0#32
  cntBadmag := 0#32
  cntBuserr := 0#32
  segStart := 0#64
  hist := []
  env := none
  armed := true
  lastHit := none
  demod := none
  fq := []
  seqCtr := 0#8

/-- Ports with nothing pending, nothing held and nothing answered. -/
def Io.idle : Io where
  sPort := []
  rPort := []
  fPort := []
  turns := []
  fHeld := false
  rResponses := []
  fResponses := []

/-- The machine right after reset, with the default parameters (70_reset_and_hazards.md R350, R352). -/
def State.reset : State where
  params := Params.default
  blk := Block.reset
  io := Io.idle

/-- Why the machine stops with a fault. -/
inductive Fault where
  /-- Raised by SAMPLE when a rule would read m[g] or nz[g] outside the segment's history, or LAST_HIT when it
  is none (10_state.md R52: "must fault rather than supply a value"). Safe: it stops the machine, and no state
  that meets State.Inv reaches it (notes/assumptions/8.md). -/
  | absentValue
  deriving DecidableEq, Repr

/-- Why a step is refused. -/
inductive Refusal where
  /-- Raised by an arm of exec whose instruction has no meaning yet. Safe. -/
  | notModelled (mnemonic : String)
  /-- Raised by the fetch when the words at the moving agent's port spell no transaction (30_encoding.md R88,
  R89). Safe. -/
  | noTransaction (why : DecodeError)
  /-- Raised by the fetch when the words at a port spell a transaction of another agent's port (10_state.md
  R20, 20_memory.md R60; notes/assumptions/16.md). Safe. -/
  | wrongPort (found : Port)
  deriving DecidableEq, Repr

/-- The outcome of a transaction or a step. -/
abbrev Out := Host.Outcome State Fault Refusal

end Sys2Proof.Machine
end

