-- ==== Sys2Proof/Machine/Ops.lean ====
section
/-! DEFINITION. The named operations over the state: sample numbers and the segment history, the effects that
several transactions share (flush, reset, bus error, the frame queue), and answering on a port. The block takes
no exception and has none to return from (60_exceptions.md R320, R324, R325): Reset() and BusError() are all it
has in their place. -/

namespace Sys2Proof.Machine

/-! ### Optional values -/

/-- Do all entries of a list satisfy a test that may have no value? It has a value when every entry's test has
one. -/
def allOpt {α : Type} (f : α → Option Bool) : List α → Option Bool
  | [] => some true
  | x :: xs => do
    let v ← f x
    let rest ← allOpt f xs
    some (v && rest)

/-- Map a function that may have no value over a list. -/
def mapOpt {α β : Type} (f : α → Option β) : List α → Option (List β)
  | [] => some []
  | x :: xs => do
    let y ← f x
    let ys ← mapOpt f xs
    some (y :: ys)

/-! ### Sample numbers and the segment history -/

/-- How many samples after `earlier` the sample `later` is, modulo 2^64 (10_state.md R34;
notes/assumptions/6.md). -/
def since (later earlier : SampleNo) : Nat := (later - earlier).toNat

/-- How many samples ago sample `g` was processed, 0 for the newest, whose number is SIDX - 1. -/
def ageOf (b : Block) (g : SampleNo) : Nat := since (b.sidx - 1#64) g

/-- The history entry of sample `g`, none outside the history of the segment (10_state.md R41, R42, R52). -/
def entryAt (b : Block) (g : SampleNo) : Option HistEntry := b.hist[ageOf b g]?

/-- m[g] (10_state.md R41). -/
def magAt (b : Block) (g : SampleNo) : Option Fp := (entryAt b g).map fun e => f32 e.mag

/-- nz[g] (10_state.md R42). -/
def noiseAt (b : Block) (g : SampleNo) : Option Word := (entryAt b g).map fun e => e.noise

/-- FoldSum(g, S): the left fold of fadd over the magnitudes at the positions, in the list's order
(00_scope.md R11). The positions' list is never empty. -/
def foldSum (b : Block) (g : SampleNo) : List Nat → Option Fp
  | [] => none
  | p :: ps => do
    let first ← magAt b (g + BitVec.ofNat 64 p)
    let rest ← mapOpt (fun q => magAt b (g + BitVec.ofNat 64 q)) ps
    some (rest.foldl fadd first)

/-! ### Effects on the block -/

/-- Flush(): end the current segment (40_sample_magnitude.md R126, 43_demodulator.md R207). -/
def flush (b : Block) : Block :=
  { b with
    cntDiscard := if b.demod.isSome then b.cntDiscard + 1#32 else b.cntDiscard
    demod := none
    segStart := b.sidx
    hist := []
    env := none
    armed := true
    lastHit := none }

/-- Reset(): every piece of the block's state to its reset value (70_reset_and_hazards.md R350). -/
def resetBlock (_ : Block) : Block := Block.reset

/-- BusError() (45_register_port.md R264). -/
def busError (b : Block) : Block := { b with cntBuserr := b.cntBuserr + 1#32 }

/-- Enqueue(rec): take the next sequence number, count the frame, drop the oldest record of a full queue and
count that, append the record (44_frame_assembler.md R233, R234). -/
def enqueue (p : Params) (r : Frame) (b : Block) : Block :=
  let full := decide (p.fqDepth ≤ b.fq.length)
  { b with
    fq := (if full then b.fq.tail else b.fq) ++ [{ r with seq := b.seqCtr }]
    seqCtr := b.seqCtr + 1#8
    cntFrame := b.cntFrame + 1#32
    cntFqdrop := if full then b.cntFqdrop + 1#32 else b.cntFqdrop }

/-- Remove the head record of FQ, if there is one (44_frame_assembler.md R237, 45_register_port.md R279). -/
def popFrame (b : Block) : Block := { b with fq := b.fq.tail }

/-! ### Answering -/

/-- The machine with another block. -/
def withBlk (s : State) (b : Block) : State := { s with blk := b }

/-- The register port responds a word (30_encoding.md R87). -/
def answerRd (s : State) (w : Word) : State :=
  { s with io := { s.io with rResponses := w :: s.io.rResponses } }

/-- The F port responds a record, and no FTAKE is held any more (44_frame_assembler.md R236). -/
def answerFtake (s : State) (r : Frame) : State :=
  { s with io := { s.io with fResponses := r :: s.io.fResponses, fHeld := false } }

/-- The F port holds the FTAKE (44_frame_assembler.md R236). -/
def holdFtake (s : State) : State := { s with io := { s.io with fHeld := true } }

end Sys2Proof.Machine
end

