-- ==== Sys2Proof/Machine/FramePort.lean ====
section
/-! DEFINITION. The F port: FTAKE (44_frame_assembler.md R236). -/

namespace Sys2Proof.Machine

/-- FTAKE: take the head record of FQ and respond it; while FQ is empty the transaction is held
(44_frame_assembler.md R236; notes/assumptions/3.md). -/
def execFtake (s : State) : Out :=
  match s.blk.fq with
  | [] => .next (holdFtake s)
  | r :: _ => .next (answerFtake (withBlk s (popFrame s.blk)) r)

end Sys2Proof.Machine
end

