-- ==== Sys2Proof/Machine/Operands.lean ====
section
/-! DEFINITION. What each register takes of a WR's 32-bit payload (30_encoding.md R86, R91; 10_state.md R25, R30,
R31, R32), and the exact field reads of CTRL. -/

namespace Sys2Proof.Machine

/-- MAG_MODE from a payload: 3 is reserved and leaves the field as it was (10_state.md R25). -/
def magModeOf (v : Word) (old : MagMode) : MagMode :=
  if v.extractLsb' 4 2 = 0#2 then .abs
  else if v.extractLsb' 4 2 = 1#2 then .absSq
  else if v.extractLsb' 4 2 = 2#2 then .bypass
  else old

/-- NF_MODE from a payload (10_state.md R25). -/
def nfModeOf (v : Word) : NfMode := if v.getLsbD 6 then .release else .movingMin

/-- The two bits of MAG_MODE (10_state.md R25). -/
def magModeBits : MagMode → BitVec 2
  | .abs => 0#2
  | .absSq => 1#2
  | .bypass => 2#2

/-- The bit of NF_MODE (10_state.md R25). -/
def nfModeBit : NfMode → BitVec 1
  | .movingMin => 0#1
  | .release => 1#1

/-- The fields of CTRL that a WR stores (45_register_port.md R267). -/
def writeCtrlFields (v : Word) (b : Block) : Block :=
  { b with
    en := v.getLsbD 0
    ie := v.getLsbD 3
    nfMode := nfModeOf v
    magMode := magModeOf v b.magMode }

/-- A WR to CTRL: SRESET wins and the rest of the write is ignored; else the fields are written and then FLUSH
acts (45_register_port.md R267). -/
def writeCtrl (v : Word) (b : Block) : Block :=
  if v.getLsbD 2 then resetBlock b
  else if v.getLsbD 1 then flush (writeCtrlFields v b)
  else writeCtrlFields v b

/-- NF_WINDOW legalised: min(max(v, 1), NF_WMAX) (10_state.md R30, 45_register_port.md R272). -/
def legalWindow (p : Params) (v : Word) : Word := BitVec.ofNat 32 (min (max v.toNat 1) p.nfWMax)

/-- NF_SHIFT: the low five bits (10_state.md R31, 45_register_port.md R273). -/
def shiftField (v : Word) : BitVec 5 := v.extractLsb' 0 5

/-- HOLDOFF legalised: max(v[15:0], 480) (10_state.md R32, 45_register_port.md R274). -/
def legalHoldoff (v : Word) : BitVec 16 := BitVec.ofNat 16 (max (v.extractLsb' 0 16).toNat 480)

end Sys2Proof.Machine
end

