-- ==== Sys2Proof/Machine/Flags.lean ====
section
/-! DEFINITION. The words a RD responds that are made of flags, fields and views: CTRL, STATUS, NOISE and the
frame window (10_state.md R25, R26, R33, R36 to R39), and the block's outputs (R47, 60_exceptions.md R322). -/

namespace Sys2Proof.Machine

/-- FRAME_AVAIL, and f_valid on the F port (10_state.md R26, R47). -/
def fValid (b : Block) : Bool := !b.fq.isEmpty

/-- f_data on the F port: the head record while f_valid = 1 (10_state.md R47). -/
def fData (b : Block) : Option Frame := b.fq.head?

/-- The irq line (60_exceptions.md R322). -/
def irq (b : Block) : Bool := b.ie && fValid b

/-- The word of CTRL (10_state.md R25, 45_register_port.md R267). -/
def ctrlWord (b : Block) : Word :=
  0#25 ++ nfModeBit b.nfMode ++ magModeBits b.magMode ++ BitVec.ofBool b.ie ++ 0#1 ++ 0#1 ++ BitVec.ofBool b.en

/-- The word of STATUS (10_state.md R26). -/
def statusWord (b : Block) : Word :=
  0#16 ++ BitVec.ofNat 8 b.fq.length ++ 0#3 ++ BitVec.ofBool (irq b) ++ 0#1 ++ BitVec.ofBool b.armed ++
    BitVec.ofBool b.demod.isSome ++ BitVec.ofBool (fValid b)

/-- The word of NOISE: nz[SIDX - 1], the newest entry, or +0.0 on an empty segment (10_state.md R33). -/
def noiseWord (b : Block) : Word :=
  match b.hist with
  | [] => 0#32
  | e :: _ => e.noise

/-- A word of the head record of FQ, 0 when FQ is empty (10_state.md R36 to R39). -/
def headWord (b : Block) (view : Frame → Word) : Word :=
  match b.fq with
  | [] => 0#32
  | r :: _ => view r

/-- FR_INFO of a record (10_state.md R36). -/
def frInfoOf (r : Frame) : Word :=
  r.seq ++ r.siglvl ++ 1#1 ++ 0#1 ++ BitVec.ofBool r.softAny ++ r.df ++ r.len

/-- FR_TS_LO of a record (10_state.md R37). -/
def frTsLoOf (r : Frame) : Word := r.ts.extractLsb' 0 32

/-- FR_TS_HI of a record (10_state.md R37). -/
def frTsHiOf (r : Frame) : Word := 0#16 ++ r.ts.extractLsb' 32 16

/-- FR_IDX_LO of a record (10_state.md R37). -/
def frIdxLoOf (r : Frame) : Word := r.idx.extractLsb' 0 32

/-- FR_IDX_HI of a record (10_state.md R37). -/
def frIdxHiOf (r : Frame) : Word := r.idx.extractLsb' 32 32

/-- byte[k] of 14 packed bytes, 0 for the bytes that do not exist (10_state.md R39). -/
def byteOf (bytes : BitVec 112) (k : Nat) : BitVec 8 :=
  if k < 14 then bytes.extractLsb' (8 * (13 - k)) 8 else 0#8

/-- Word q of 14 packed bytes, big-endian (10_state.md R39). -/
def packedWord (bytes : BitVec 112) (q : Nat) : Word :=
  byteOf bytes (4 * q) ++ byteOf bytes (4 * q + 1) ++ byteOf bytes (4 * q + 2) ++ byteOf bytes (4 * q + 3)

/-- FR_DATAq of a record (10_state.md R39). -/
def frDataOf (q : Nat) (r : Frame) : Word := packedWord r.data q

/-- FR_SOFTq of a record (10_state.md R39). -/
def frSoftOf (q : Nat) (r : Frame) : Word := packedWord r.softmask q

end Sys2Proof.Machine
end

