-- ==== Sys2Proof/Machine/RegisterRead.lean ====
section
/-! DEFINITION. The RD transactions, register by register (45_register_port.md R260, R263 to R279). A RD of a
mapped register responds one word and changes nothing else. -/

namespace Sys2Proof.Machine

/-- ID (10_state.md R23): ASCII "AJPC". -/
def idWord : Word := 0x414A5043#32

/-- VERSION (10_state.md R24): major 1, minor 0. -/
def versionWord : Word := 0x00010000#32

/-- The RD of a mapped register: respond its word (45_register_port.md R260, R263). -/
def respondRd (s : State) (w : Word) : Out := .next (answerRd s w)

/-- RD ID (45_register_port.md R265). -/
def execRdId (s : State) : Out := respondRd s idWord

/-- RD VERSION (45_register_port.md R266). -/
def execRdVersion (s : State) : Out := respondRd s versionWord

/-- RD CTRL (45_register_port.md R267). -/
def execRdCtrl (s : State) : Out := respondRd s (ctrlWord s.blk)

/-- RD STATUS (45_register_port.md R268). -/
def execRdStatus (s : State) : Out := respondRd s (statusWord s.blk)

/-- RD T_ABS (45_register_port.md R269). -/
def execRdTAbs (s : State) : Out := respondRd s s.blk.tAbs

/-- RD K_REL (45_register_port.md R270). -/
def execRdKRel (s : State) : Out := respondRd s s.blk.kRel

/-- RD EPS (45_register_port.md R271). -/
def execRdEps (s : State) : Out := respondRd s s.blk.eps

/-- RD NF_WINDOW (45_register_port.md R272). -/
def execRdNfWindow (s : State) : Out := respondRd s s.blk.nfWindow

/-- RD NF_SHIFT (45_register_port.md R273). -/
def execRdNfShift (s : State) : Out := respondRd s (0#27 ++ s.blk.nfShift)

/-- RD HOLDOFF (45_register_port.md R274). -/
def execRdHoldoff (s : State) : Out := respondRd s (0#16 ++ s.blk.holdoff)

/-- RD NOISE (45_register_port.md R275). -/
def execRdNoise (s : State) : Out := respondRd s (noiseWord s.blk)

/-- RD SIDX_LO (45_register_port.md R276). -/
def execRdSidxLo (s : State) : Out := respondRd s (s.blk.sidx.extractLsb' 0 32)

/-- RD SIDX_HI (45_register_port.md R276). -/
def execRdSidxHi (s : State) : Out := respondRd s (s.blk.sidx.extractLsb' 32 32)

/-- RD CNT_HIT (45_register_port.md R277). -/
def execRdCntHit (s : State) : Out := respondRd s s.blk.cntHit

/-- RD CNT_SUPP (45_register_port.md R277). -/
def execRdCntSupp (s : State) : Out := respondRd s s.blk.cntSupp

/-- RD CNT_FRAME (45_register_port.md R277). -/
def execRdCntFrame (s : State) : Out := respondRd s s.blk.cntFrame

/-- RD CNT_DISCARD (45_register_port.md R277). -/
def execRdCntDiscard (s : State) : Out := respondRd s s.blk.cntDiscard

/-- RD CNT_FQDROP (45_register_port.md R277). -/
def execRdCntFqdrop (s : State) : Out := respondRd s s.blk.cntFqdrop

/-- RD CNT_BADMAG (45_register_port.md R277). -/
def execRdCntBadmag (s : State) : Out := respondRd s s.blk.cntBadmag

/-- RD CNT_BUSERR (45_register_port.md R277). -/
def execRdCntBuserr (s : State) : Out := respondRd s s.blk.cntBuserr

/-- RD FR_INFO (45_register_port.md R278). -/
def execRdFrInfo (s : State) : Out := respondRd s (headWord s.blk frInfoOf)

/-- RD FR_TS_LO (45_register_port.md R278). -/
def execRdFrTsLo (s : State) : Out := respondRd s (headWord s.blk frTsLoOf)

/-- RD FR_TS_HI (45_register_port.md R278). -/
def execRdFrTsHi (s : State) : Out := respondRd s (headWord s.blk frTsHiOf)

/-- RD FR_IDX_LO (45_register_port.md R278). -/
def execRdFrIdxLo (s : State) : Out := respondRd s (headWord s.blk frIdxLoOf)

/-- RD FR_IDX_HI (45_register_port.md R278). -/
def execRdFrIdxHi (s : State) : Out := respondRd s (headWord s.blk frIdxHiOf)

/-- RD FR_SCORE (45_register_port.md R278). -/
def execRdFrScore (s : State) : Out := respondRd s (headWord s.blk Frame.score)

/-- RD FR_NOISE (45_register_port.md R278). -/
def execRdFrNoise (s : State) : Out := respondRd s (headWord s.blk Frame.noise)

/-- RD FR_DATA0 (45_register_port.md R278). -/
def execRdFrData0 (s : State) : Out := respondRd s (headWord s.blk (frDataOf 0))

/-- RD FR_DATA1 (45_register_port.md R278). -/
def execRdFrData1 (s : State) : Out := respondRd s (headWord s.blk (frDataOf 1))

/-- RD FR_DATA2 (45_register_port.md R278). -/
def execRdFrData2 (s : State) : Out := respondRd s (headWord s.blk (frDataOf 2))

/-- RD FR_DATA3 (45_register_port.md R278). -/
def execRdFrData3 (s : State) : Out := respondRd s (headWord s.blk (frDataOf 3))

/-- RD FR_SOFT0 (45_register_port.md R278). -/
def execRdFrSoft0 (s : State) : Out := respondRd s (headWord s.blk (frSoftOf 0))

/-- RD FR_SOFT1 (45_register_port.md R278). -/
def execRdFrSoft1 (s : State) : Out := respondRd s (headWord s.blk (frSoftOf 1))

/-- RD FR_SOFT2 (45_register_port.md R278). -/
def execRdFrSoft2 (s : State) : Out := respondRd s (headWord s.blk (frSoftOf 2))

/-- RD FR_SOFT3 (45_register_port.md R278). -/
def execRdFrSoft3 (s : State) : Out := respondRd s (headWord s.blk (frSoftOf 3))

/-- RD FR_POP (45_register_port.md R279). -/
def execRdFrPop (s : State) : Out := respondRd s 0#32

/-- RD of a misaligned or unmapped address: a bus error that responds 0 (45_register_port.md R264;
notes/assumptions/19.md). -/
def execRdBuserr (_addr : Addr) (s : State) : Out := .next (answerRd (withBlk s (busError s.blk)) 0#32)

end Sys2Proof.Machine
end

