-- ==== Sys2Proof/Machine/RegisterWrite.lean ====
section
/-! DEFINITION. The WR transactions, register by register (45_register_port.md R261, R262, R264, R267 to R274,
R279). -/

namespace Sys2Proof.Machine

/-- A WR that leaves the block as given (45_register_port.md R261). -/
def storeWr (s : State) (b : Block) : Out := .next (withBlk s b)

/-- A WR to a read-only register changes no state and is no bus error (45_register_port.md R262). -/
def ignoreWr (s : State) : Out := .next s

/-- WR ID: read-only (45_register_port.md R262). -/
def execWrId (_v : Word) (s : State) : Out := ignoreWr s

/-- WR VERSION: read-only (45_register_port.md R262). -/
def execWrVersion (_v : Word) (s : State) : Out := ignoreWr s

/-- WR CTRL (45_register_port.md R267). -/
def execWrCtrl (v : Word) (s : State) : Out := storeWr s (writeCtrl v s.blk)

/-- WR STATUS: read-only (45_register_port.md R262). -/
def execWrStatus (_v : Word) (s : State) : Out := ignoreWr s

/-- WR T_ABS (45_register_port.md R269). -/
def execWrTAbs (v : Word) (s : State) : Out := storeWr s { s.blk with tAbs := v }

/-- WR K_REL (45_register_port.md R270). -/
def execWrKRel (v : Word) (s : State) : Out := storeWr s { s.blk with kRel := v }

/-- WR EPS (45_register_port.md R271). -/
def execWrEps (v : Word) (s : State) : Out := storeWr s { s.blk with eps := v }

/-- WR NF_WINDOW (45_register_port.md R272). -/
def execWrNfWindow (v : Word) (s : State) : Out := storeWr s { s.blk with nfWindow := legalWindow s.params v }

/-- WR NF_SHIFT (45_register_port.md R273). -/
def execWrNfShift (v : Word) (s : State) : Out := storeWr s { s.blk with nfShift := shiftField v }

/-- WR HOLDOFF (45_register_port.md R274). -/
def execWrHoldoff (v : Word) (s : State) : Out := storeWr s { s.blk with holdoff := legalHoldoff v }

/-- WR NOISE: read-only (45_register_port.md R262). -/
def execWrNoise (_v : Word) (s : State) : Out := ignoreWr s

/-- WR SIDX_LO: read-only (45_register_port.md R262). -/
def execWrSidxLo (_v : Word) (s : State) : Out := ignoreWr s

/-- WR SIDX_HI: read-only (45_register_port.md R262). -/
def execWrSidxHi (_v : Word) (s : State) : Out := ignoreWr s

/-- WR CNT_HIT: read-only (45_register_port.md R262). -/
def execWrCntHit (_v : Word) (s : State) : Out := ignoreWr s

/-- WR CNT_SUPP: read-only (45_register_port.md R262). -/
def execWrCntSupp (_v : Word) (s : State) : Out := ignoreWr s

/-- WR CNT_FRAME: read-only (45_register_port.md R262). -/
def execWrCntFrame (_v : Word) (s : State) : Out := ignoreWr s

/-- WR CNT_DISCARD: read-only (45_register_port.md R262). -/
def execWrCntDiscard (_v : Word) (s : State) : Out := ignoreWr s

/-- WR CNT_FQDROP: read-only (45_register_port.md R262). -/
def execWrCntFqdrop (_v : Word) (s : State) : Out := ignoreWr s

/-- WR CNT_BADMAG: read-only (45_register_port.md R262). -/
def execWrCntBadmag (_v : Word) (s : State) : Out := ignoreWr s

/-- WR CNT_BUSERR: read-only (45_register_port.md R262). -/
def execWrCntBuserr (_v : Word) (s : State) : Out := ignoreWr s

/-- WR FR_INFO: read-only (45_register_port.md R262). -/
def execWrFrInfo (_v : Word) (s : State) : Out := ignoreWr s

/-- WR FR_TS_LO: read-only (45_register_port.md R262). -/
def execWrFrTsLo (_v : Word) (s : State) : Out := ignoreWr s

/-- WR FR_TS_HI: read-only (45_register_port.md R262). -/
def execWrFrTsHi (_v : Word) (s : State) : Out := ignoreWr s

/-- WR FR_IDX_LO: read-only (45_register_port.md R262). -/
def execWrFrIdxLo (_v : Word) (s : State) : Out := ignoreWr s

/-- WR FR_IDX_HI: read-only (45_register_port.md R262). -/
def execWrFrIdxHi (_v : Word) (s : State) : Out := ignoreWr s

/-- WR FR_SCORE: read-only (45_register_port.md R262). -/
def execWrFrScore (_v : Word) (s : State) : Out := ignoreWr s

/-- WR FR_NOISE: read-only (45_register_port.md R262). -/
def execWrFrNoise (_v : Word) (s : State) : Out := ignoreWr s

/-- WR FR_DATA0: read-only (45_register_port.md R262). -/
def execWrFrData0 (_v : Word) (s : State) : Out := ignoreWr s

/-- WR FR_DATA1: read-only (45_register_port.md R262). -/
def execWrFrData1 (_v : Word) (s : State) : Out := ignoreWr s

/-- WR FR_DATA2: read-only (45_register_port.md R262). -/
def execWrFrData2 (_v : Word) (s : State) : Out := ignoreWr s

/-- WR FR_DATA3: read-only (45_register_port.md R262). -/
def execWrFrData3 (_v : Word) (s : State) : Out := ignoreWr s

/-- WR FR_SOFT0: read-only (45_register_port.md R262). -/
def execWrFrSoft0 (_v : Word) (s : State) : Out := ignoreWr s

/-- WR FR_SOFT1: read-only (45_register_port.md R262). -/
def execWrFrSoft1 (_v : Word) (s : State) : Out := ignoreWr s

/-- WR FR_SOFT2: read-only (45_register_port.md R262). -/
def execWrFrSoft2 (_v : Word) (s : State) : Out := ignoreWr s

/-- WR FR_SOFT3: read-only (45_register_port.md R262). -/
def execWrFrSoft3 (_v : Word) (s : State) : Out := ignoreWr s

/-- WR FR_POP (45_register_port.md R279). -/
def execWrFrPop (_v : Word) (s : State) : Out := storeWr s (popFrame s.blk)

/-- WR of a misaligned or unmapped address: a bus error that writes nothing (45_register_port.md R264;
notes/assumptions/19.md). -/
def execWrBuserr (_addr : Addr) (_v : Word) (s : State) : Out := storeWr s (busError s.blk)

end Sys2Proof.Machine
end

