-- ==== Sys2Proof/Machine/Correlator.lean ====
section
/-! DEFINITION. The preamble correlator: score, qualification, local maximum, decision and hold-off
(42_correlator.md R160 to R173). -/

namespace Sys2Proof.Machine

/-- P_HI, the pulse positions (42_correlator.md R161). -/
def pHi : List Nat := [0, 1, 4, 5, 14, 15, 18, 19]

/-- P_LO, the positions strictly between two pulses (42_correlator.md R162). -/
def pLo : List Nat := [2, 3, 6, 7, 8, 9, 10, 11, 12, 13, 16, 17]

/-- The local-maximum radius, in samples (42_correlator.md R166). -/
def lmRadius : Nat := 16

/-- How many samples after its first sample an index is decided (42_correlator.md R168). -/
def decisionLag : Nat := 47

/-- The whole template at index i, i .. i + 31, lies in the history (42_correlator.md R163). -/
def templateHeld (b : Block) (i : SampleNo) : Bool :=
  decide (31 ≤ ageOf b i) && decide (ageOf b i < b.hist.length)

/-- S_hi(i) (42_correlator.md R162). -/
def pulseSum (b : Block) (i : SampleNo) : Option Fp := foldSum b i pHi

/-- S_lo(i) (42_correlator.md R162). -/
def lowSum (b : Block) (i : SampleNo) : Option Fp := foldSum b i pLo

/-- C(i), defined exactly when the whole template lies in the history (42_correlator.md R163). -/
def score (b : Block) (i : SampleNo) : Option Fp :=
  if templateHeld b i then do
    let hi ← pulseSum b i
    let lo ← lowSum b i
    some (fsub hi lo)
  else none

/-- A score against the two bounds of a noise value, both strict (42_correlator.md R164). -/
def exceedsBounds (b : Block) (c : Fp) (nz : Word) : Bool :=
  fgt c (f32 b.tAbs) && fgt c (fmul (f32 b.kRel) (f32 nz))

/-- qualify(i) (42_correlator.md R164). -/
def qualify (b : Block) (i : SampleNo) : Option Bool := do
  let c ← score b i
  let nz ← noiseAt b i
  some (exceedsBounds b c nz)

/-- How many indices before i the local-maximum window reaches, clipped to the segment (42_correlator.md
R166). -/
def reachBack (b : Block) (i : SampleNo) : Nat := min lmRadius (since i b.segStart)

/-- LM(i): the score beats every earlier score of the window and no later score beats it (42_correlator.md
R166). -/
def localMax (b : Block) (i : SampleNo) : Option Bool := do
  let c ← score b i
  let earlier ← allOpt (fun k => (score b (i - BitVec.ofNat 64 k)).map (fgt c)) (List.range' 1 (reachBack b i))
  let later ← allOpt (fun k => (score b (i + BitVec.ofNat 64 k)).map (fge c)) (List.range' 1 lmRadius)
  some (earlier && later)

/-- Is index i, which qualifies or not as `q` says, a candidate: does it qualify and is it a local maximum
(42_correlator.md R169)? -/
def candidate (b : Block) (i : SampleNo) (q : Bool) : Option Bool := if q then localMax b i else some false

/-- TakeHit(i) (42_correlator.md R172). -/
def takeHit (i : SampleNo) (b : Block) : Option Block := do
  let c ← score b i
  let nz ← noiseAt b i
  let hi ← pulseSum b i
  some { b with
    cntHit := b.cntHit + 1#32
    armed := false
    lastHit := some i
    demod := some
      { h := i
        score := bitsOf (Config.nanFree i) c
        noise := nz
        sHi := bitsOf (Config.nanFree i) hi } }

/-- The guard re-arms at index i, which does not qualify: the hold-off of the last hit has passed
(42_correlator.md R170, R171). -/
def rearm (i : SampleNo) (b : Block) : Option Block := do
  let h ← b.lastHit
  some (if b.holdoff.toNat ≤ since i h then { b with armed := true } else b)

/-- Decide(i) (42_correlator.md R170). A candidate found while disarmed only counts (R173). -/
def decideIndex (i : SampleNo) (b : Block) : Option Block := do
  let q ← qualify b i
  let hit ← candidate b i q
  if hit then
    if b.armed then takeHit i b else some { b with cntSupp := b.cntSupp + 1#32 }
  else if b.armed || q then some b
  else rearm i b

end Sys2Proof.Machine
end

