-- ==== Sys2Proof/Machine/Demodulator.lean ====
section
/-! DEFINITION. The PPM demodulator and the frame assembler (43_demodulator.md R200 to R211,
44_frame_assembler.md R230, R231). -/

namespace Sys2Proof.Machine

/-- The half energies A_b and B_b of bit period `k` of the hit at `h` (43_demodulator.md R201). -/
def halves (b : Block) (h : SampleNo) (k : Nat) : Option (Fp × Fp) := do
  let d := h + BitVec.ofNat 64 (32 + 4 * k)
  let m0 ← magAt b d
  let m1 ← magAt b (d + 1#64)
  let m2 ← magAt b (d + 2#64)
  let m3 ← magAt b (d + 3#64)
  some (fadd m0 m1, fadd m2 m3)

/-- The bit value of two half energies (43_demodulator.md R202). -/
def bitValue (ab : Fp × Fp) : Bool := fgt ab.1 ab.2

/-- The soft flag of two half energies (43_demodulator.md R203). -/
def softFlag (eps : Word) (ab : Fp × Fp) : Bool := !fgt (fabs (fsub ab.1 ab.2)) (f32 eps)

/-- Bits as a number, the first bit most significant. -/
def bitsToNat (x : List Bool) : Nat := x.foldl (fun n v => 2 * n + v.toNat) 0

/-- The Downlink Format of the hit at `h`: its first five bits (43_demodulator.md R204). -/
def downlinkFormat (b : Block) (h : SampleNo) : Option (BitVec 5) := do
  let ab ← mapOpt (halves b h) (List.range 5)
  some (BitVec.ofNat 5 (bitsToNat (ab.map bitValue)))

/-- The frame length of a Downlink Format (43_demodulator.md R205). -/
def frameLen (df : BitVec 5) : Nat := if df = 17#5 ∨ df = 18#5 then 112 else 56

/-- Pack(x, L): L bits in 14 bytes, the first bit most significant, zero bytes after them
(44_frame_assembler.md R231). -/
def pack (x : List Bool) : BitVec 112 := BitVec.ofNat 112 (bitsToNat x * 2 ^ (112 - x.length))

/-- The clipped logarithm of a mean given by its bits (43_demodulator.md R210). -/
def sigLvlOfBits (mean : Word) : BitVec 8 :=
  let e := (mean.extractLsb' 23 8).toNat
  let f := (mean.extractLsb' 19 4).toNat
  if e = 0 then 0#8
  else BitVec.ofInt 8 (min (max (16 * ((e : Int) - 127) + (f : Int) + 128) 0) 255)

/-- SigLvl(s_hi): the mean over the 8 pulse samples on a log2 scale (43_demodulator.md R210). A mean of +inf
has e = 255 and clips to 255 as the rule's own arm says. -/
def sigLvl (sHi : Word) : BitVec 8 :=
  match fmul (f32 sHi) (powNeg 3#5) with
  | .inf false => 255#8
  | mean => sigLvlOfBits (bitsOf 0#23 mean)

/-- The timestamp of a hit: 3·h modulo 2^48 (43_demodulator.md R211). -/
def timestamp (h : SampleNo) : BitVec 48 := BitVec.ofNat 48 (3 * h.toNat)

/-- The record AssembleFrame makes (44_frame_assembler.md R230). -/
def frameOf (seq : BitVec 8) (d : Demod) (df : BitVec 5) (bits soft : List Bool) : Frame where
  seq := seq
  len := BitVec.ofNat 8 bits.length
  df := df
  softAny := soft.any id
  siglvl := sigLvl d.sHi
  ts := timestamp d.h
  idx := d.h
  score := d.score
  noise := d.noise
  data := pack bits
  softmask := pack soft

/-- The demodulation `d` completes with a frame of `len` bits (43_demodulator.md R206, R208;
44_frame_assembler.md R230). -/
def complete (p : Params) (d : Demod) (df : BitVec 5) (b : Block) : Option Block := do
  let ab ← mapOpt (halves b d.h) (List.range (frameLen df))
  some { enqueue p (frameOf b.seqCtr d df (ab.map bitValue) (ab.map (softFlag b.eps))) b with demod := none }

/-- DemodStep(g) (43_demodulator.md R206). -/
def demodStep (p : Params) (g : SampleNo) (b : Block) : Option Block :=
  match b.demod with
  | none => some b
  | some d =>
    if since g d.h < 51 then some b
    else do
      let df ← downlinkFormat b d.h
      if since g d.h = 31 + 4 * frameLen df then complete p d df b else some b

end Sys2Proof.Machine
end

