-- ==== Sys2Proof/Machine/Magnitude.lean ====
section
/-! DEFINITION. The magnitude unit (40_sample_magnitude.md R112 to R116). -/

namespace Sys2Proof.Machine

/-- RE² + IM², each operation rounded (40_sample_magnitude.md R114). -/
def squareSum (im re : Fp) : Fp := fadd (fmul re re) (fmul im im)

/-- RawMag(RE, IM, MAG_MODE) (40_sample_magnitude.md R112 to R114). -/
def rawMag (mode : MagMode) (im re : Fp) : Fp :=
  match mode with
  | .abs => fsqrt (squareSum im re)
  | .absSq => squareSum im re
  | .bypass => re

/-- Sanitize(r): the stored magnitude (40_sample_magnitude.md R115). -/
def sanitize : Fp → Word
  | .nan => 0#32
  | .inf false => maxF
  | .inf true => 0#32
  | .fin false x => finBits false x
  | .fin true _ => 0#32

/-- Sanitize took a counted arm: NaN, an infinity, or a value below zero (40_sample_magnitude.md R115, R116).
-0.0 is not counted. -/
def badMag : Fp → Bool
  | .nan => true
  | .inf _ => true
  | .fin neg x => neg && x != 0

end Sys2Proof.Machine
end

