-- ==== Sys2Proof/Machine/Noise.lean ====
section
/-! DEFINITION. The noise-floor estimator (41_noise_floor.md R141 to R145). -/

namespace Sys2Proof.Machine

/-- The lesser of two binary32 values, the first where neither is less (notes/assumptions/11.md). -/
def lesser (a b : Word) : Word := if flt (f32 b) (f32 a) then b else a

/-- MMIN: the least of the newest magnitude `m` and the older ones of the window (41_noise_floor.md R143). -/
def leastOf (m : Word) (older : List Word) : Word := older.foldl lesser m

/-- How many samples the moving-minimum window of sample g takes: the last W of the segment, or all of them
while the segment holds fewer (41_noise_floor.md R141, R143). -/
def windowSize (w : Word) (g segStart : SampleNo) : Nat := min w.toNat (since g segStart + 1)

/-- MMIN of sample g, whose magnitude is `m` and whose segment's earlier samples are the history
(41_noise_floor.md R143). -/
def movingMin (b : Block) (m : Word) : Word :=
  leastOf m ((b.hist.take (windowSize b.nfWindow b.sidx b.segStart - 1)).map HistEntry.mag)

/-- The release arm: E moves toward m by the fraction 2^-s of the gap, each operation rounded
(41_noise_floor.md R145). -/
def releaseStep (e m : Fp) (s : BitVec 5) : Fp := fadd e (fmul (fsub m e) (powNeg s))

/-- E after sample g of magnitude `m` (41_noise_floor.md R141, R145). -/
def nextEnv (b : Block) (m : Word) : Word :=
  match b.env with
  | none => m
  | some e =>
    if flt (f32 m) (f32 e) then m
    else bitsOf (Config.nanFree b.sidx) (releaseStep (f32 e) (f32 m) b.nfShift)

/-- nz[g], the value recorded for sample g of magnitude `m` (41_noise_floor.md R144). -/
def noiseValue (b : Block) (m : Word) : Word :=
  match b.nfMode with
  | .movingMin => movingMin b m
  | .release => nextEnv b m

end Sys2Proof.Machine
end

