-- ==== Sys2Proof/Machine/Sample.lean ====
section
/-! DEFINITION. The SAMPLE transaction (40_sample_magnitude.md R110): the whole pipeline in one step. -/

namespace Sys2Proof.Machine

/-- The raw magnitude of a sample word under CTRL.MAG_MODE (40_sample_magnitude.md R112). -/
def rawOf (b : Block) (im re : Word) : Fp := rawMag b.magMode (f32 im) (f32 re)

/-- Store a sample: m[g], the bad-magnitude counter, E, nz[g], and SIDX + 1 (40_sample_magnitude.md R110, R116,
R117; 41_noise_floor.md R141). -/
def storeSample (im re : Word) (b : Block) : Block :=
  let raw := rawOf b im re
  let m := sanitize raw
  { b with
    cntBadmag := if badMag raw then b.cntBadmag + 1#32 else b.cntBadmag
    hist := { mag := m, noise := noiseValue b m } :: b.hist
    env := some (nextEnv b m)
    sidx := b.sidx + 1#64 }

/-- The correlator's turn in the SAMPLE of sample g: index g - 47 is decided once the segment holds 48 samples
(40_sample_magnitude.md R110, 42_correlator.md R168). -/
def decideStep (g : SampleNo) (b : Block) : Option Block :=
  if decisionLag ≤ since g b.segStart then decideIndex (g - BitVec.ofNat 64 decisionLag) b else some b

/-- SAMPLE(LAST, RE, IM) with EN = 1 (40_sample_magnitude.md R110, R118, R119). -/
def processSample (p : Params) (last : Bool) (im re : Word) (b : Block) : Option Block := do
  let g := b.sidx
  let b1 ← demodStep p g (storeSample im re b)
  let b2 ← decideStep g b1
  some (if last then flush b2 else b2)

/-- SAMPLE / SAMPLE.L (40_sample_magnitude.md R110). With EN = 0 it changes nothing (R111). -/
def execSample (last : Bool) (im re : Word) (s : State) : Out :=
  if s.blk.en then
    match processSample s.params last im re s.blk with
    | some b => .next (withBlk s b)
    | none => .fault .absentValue
  else .next s

end Sys2Proof.Machine
end

