-- ==== Sys2Proof/Machine/Dispatch.lean ====
section
/-! DEFINITION. The dispatch: one arm per constructor of Instr. -/

namespace Sys2Proof.Machine

def exec (i : Instr) (s : State) : Host.Outcome State Fault Refusal :=
  match i with
  | .rdId => Sys2Proof.Machine.execRdId s
  | .rdVersion => Sys2Proof.Machine.execRdVersion s
  | .rdCtrl => Sys2Proof.Machine.execRdCtrl s
  | .rdStatus => Sys2Proof.Machine.execRdStatus s
  | .rdTAbs => Sys2Proof.Machine.execRdTAbs s
  | .rdKRel => Sys2Proof.Machine.execRdKRel s
  | .rdEps => Sys2Proof.Machine.execRdEps s
  | .rdNfWindow => Sys2Proof.Machine.execRdNfWindow s
  | .rdNfShift => Sys2Proof.Machine.execRdNfShift s
  | .rdHoldoff => Sys2Proof.Machine.execRdHoldoff s
  | .rdNoise => Sys2Proof.Machine.execRdNoise s
  | .rdSidxLo => Sys2Proof.Machine.execRdSidxLo s
  | .rdSidxHi => Sys2Proof.Machine.execRdSidxHi s
  | .rdCntHit => Sys2Proof.Machine.execRdCntHit s
  | .rdCntSupp => Sys2Proof.Machine.execRdCntSupp s
  | .rdCntFrame => Sys2Proof.Machine.execRdCntFrame s
  | .rdCntDiscard => Sys2Proof.Machine.execRdCntDiscard s
  | .rdCntFqdrop => Sys2Proof.Machine.execRdCntFqdrop s
  | .rdCntBadmag => Sys2Proof.Machine.execRdCntBadmag s
  | .rdCntBuserr => Sys2Proof.Machine.execRdCntBuserr s
  | .rdFrInfo => Sys2Proof.Machine.execRdFrInfo s
  | .rdFrTsLo => Sys2Proof.Machine.execRdFrTsLo s
  | .rdFrTsHi => Sys2Proof.Machine.execRdFrTsHi s
  | .rdFrIdxLo => Sys2Proof.Machine.execRdFrIdxLo s
  | .rdFrIdxHi => Sys2Proof.Machine.execRdFrIdxHi s
  | .rdFrScore => Sys2Proof.Machine.execRdFrScore s
  | .rdFrNoise => Sys2Proof.Machine.execRdFrNoise s
  | .rdFrData0 => Sys2Proof.Machine.execRdFrData0 s
  | .rdFrData1 => Sys2Proof.Machine.execRdFrData1 s
  | .rdFrData2 => Sys2Proof.Machine.execRdFrData2 s
  | .rdFrData3 => Sys2Proof.Machine.execRdFrData3 s
  | .rdFrSoft0 => Sys2Proof.Machine.execRdFrSoft0 s
  | .rdFrSoft1 => Sys2Proof.Machine.execRdFrSoft1 s
  | .rdFrSoft2 => Sys2Proof.Machine.execRdFrSoft2 s
  | .rdFrSoft3 => Sys2Proof.Machine.execRdFrSoft3 s
  | .rdFrPop => Sys2Proof.Machine.execRdFrPop s
  | .rdBuserr a => Sys2Proof.Machine.execRdBuserr a s
  | .wrId v => Sys2Proof.Machine.execWrId v s
  | .wrVersion v => Sys2Proof.Machine.execWrVersion v s
  | .wrCtrl v => Sys2Proof.Machine.execWrCtrl v s
  | .wrStatus v => Sys2Proof.Machine.execWrStatus v s
  | .wrTAbs v => Sys2Proof.Machine.execWrTAbs v s
  | .wrKRel v => Sys2Proof.Machine.execWrKRel v s
  | .wrEps v => Sys2Proof.Machine.execWrEps v s
  | .wrNfWindow v => Sys2Proof.Machine.execWrNfWindow v s
  | .wrNfShift v => Sys2Proof.Machine.execWrNfShift v s
  | .wrHoldoff v => Sys2Proof.Machine.execWrHoldoff v s
  | .wrNoise v => Sys2Proof.Machine.execWrNoise v s
  | .wrSidxLo v => Sys2Proof.Machine.execWrSidxLo v s
  | .wrSidxHi v => Sys2Proof.Machine.execWrSidxHi v s
  | .wrCntHit v => Sys2Proof.Machine.execWrCntHit v s
  | .wrCntSupp v => Sys2Proof.Machine.execWrCntSupp v s
  | .wrCntFrame v => Sys2Proof.Machine.execWrCntFrame v s
  | .wrCntDiscard v => Sys2Proof.Machine.execWrCntDiscard v s
  | .wrCntFqdrop v => Sys2Proof.Machine.execWrCntFqdrop v s
  | .wrCntBadmag v => Sys2Proof.Machine.execWrCntBadmag v s
  | .wrCntBuserr v => Sys2Proof.Machine.execWrCntBuserr v s
  | .wrFrInfo v => Sys2Proof.Machine.execWrFrInfo v s
  | .wrFrTsLo v => Sys2Proof.Machine.execWrFrTsLo v s
  | .wrFrTsHi v => Sys2Proof.Machine.execWrFrTsHi v s
  | .wrFrIdxLo v => Sys2Proof.Machine.execWrFrIdxLo v s
  | .wrFrIdxHi v => Sys2Proof.Machine.execWrFrIdxHi v s
  | .wrFrScore v => Sys2Proof.Machine.execWrFrScore v s
  | .wrFrNoise v => Sys2Proof.Machine.execWrFrNoise v s
  | .wrFrData0 v => Sys2Proof.Machine.execWrFrData0 v s
  | .wrFrData1 v => Sys2Proof.Machine.execWrFrData1 v s
  | .wrFrData2 v => Sys2Proof.Machine.execWrFrData2 v s
  | .wrFrData3 v => Sys2Proof.Machine.execWrFrData3 v s
  | .wrFrSoft0 v => Sys2Proof.Machine.execWrFrSoft0 v s
  | .wrFrSoft1 v => Sys2Proof.Machine.execWrFrSoft1 v s
  | .wrFrSoft2 v => Sys2Proof.Machine.execWrFrSoft2 v s
  | .wrFrSoft3 v => Sys2Proof.Machine.execWrFrSoft3 v s
  | .wrFrPop v => Sys2Proof.Machine.execWrFrPop v s
  | .wrBuserr a v => Sys2Proof.Machine.execWrBuserr a v s
  | .sample last im re => Sys2Proof.Machine.execSample last im re s
  | .ftake => Sys2Proof.Machine.execFtake s

end Sys2Proof.Machine
end

