-- ==== Sys2Proof/Machine/Fetch.lean ====
section
/-! DEFINITION. How the next transaction reaches the block: the turn that comes next, the words at the moving
agent's port, and placing transactions there from outside (10_state.md R20, 20_memory.md R68, 30_encoding.md R85;
notes/assumptions/2.md, 15.md). -/

namespace Sys2Proof.Machine

/-- What a turn brings. -/
inductive Fetched where
  | idle (s : State)               -- no transaction: the machine as the turn leaves it
  | run (i : Instr) (s : State)    -- a transaction, and the machine past its words
  | refuse (r : Refusal)           -- the port's words are no transaction of that port
  deriving DecidableEq, Repr

/-- The words pending at a port. -/
def portWords (io : Io) : Port → List Desc
  | .s => io.sPort
  | .r => io.rPort
  | .f => io.fPort

/-- The ports with other words pending at one. -/
def setPort (io : Io) (p : Port) (ws : List Desc) : Io :=
  match p with
  | .s => { io with sPort := ws }
  | .r => { io with rPort := ws }
  | .f => { io with fPort := ws }

/-- Take the next transaction off a port's words, in their issue order (20_memory.md R68). -/
def fetchPort (p : Port) (s : State) : Fetched :=
  match portWords s.io p with
  | [] => .idle s
  | w :: ws =>
    match decode (w :: ws) with
    | .error why => .refuse (.noTransaction why)
    | .ok (i, rest) =>
      if portOf i = p then .run i { s with io := setPort s.io p rest } else .refuse (.wrongPort (portOf i))

/-- The turn of an agent. While an FTAKE is held the frame consumer issues nothing new: its turn offers the held
one again (44_frame_assembler.md R236). -/
def fetchTurn (p : Port) (s : State) : Fetched :=
  if p = .f ∧ s.io.fHeld = true then .run .ftake s else fetchPort p s

/-- The next turn, used up: an agent's, or the reset input's, which performs Reset() (70_reset_and_hazards.md
R352; notes/assumptions/14.md). With no turn left nothing happens: the block has no step of its own (10_state.md R20). -/
def fetch (s : State) : Fetched :=
  match s.io.turns with
  | [] => .idle s
  | .resetPin :: ts => .idle { s with blk := resetBlock s.blk, io := { s.io with turns := ts } }
  | .port p :: ts => fetchTurn p { s with io := { s.io with turns := ts } }

/-- Place words in front of a port's, and give its agent the next turn; on the F port no FTAKE is held
(notes/assumptions/17.md). -/
def placeWords (s : State) (p : Port) (ws : List Desc) : State :=
  let io := setPort s.io p (ws ++ portWords s.io p)
  { s with io := { io with turns := .port p :: io.turns, fHeld := if p = .f then false else io.fHeld } }

/-- The machine with a script of transactions offered, in that total order, on idle ports: how a test program of
95_test_vectors.md comes to run (notes/assumptions/15.md). -/
def loadScript (s : State) (script : List Instr) : State :=
  let wordsFor (p : Port) := (script.filter fun i => portOf i == p).flatMap encode
  { s with
    io := { s.io with
      sPort := wordsFor .s
      rPort := wordsFor .r
      fPort := wordsFor .f
      turns := script.map fun i => .port (portOf i) } }

end Sys2Proof.Machine
end

