-- ==== Sys2Proof/Machine/Step.lean ====
section
/-! DEFINITION. One step of the machine: the next turn, and the transaction it brings (10_state.md R20). -/

namespace Sys2Proof.Machine

/-- One step: one transaction of one agent, atomically (20_memory.md R64, R68). -/
def step (s : State) : Host.Outcome State Fault Refusal :=
  match fetch s with
  | .idle t => .next t
  | .run i t => exec i t
  | .refuse r => .refused r

/-- The machine with a table word's transaction where step fetches its next one: in front of its port's words,
and its agent's turn next. -/
def State.withFetchWord (s : State) (nbits w : Nat) : State :=
  placeWords s (tablePort nbits w) (tableTransaction nbits w)

end Sys2Proof.Machine
end

