-- ==== Sys2Proof/Machine/CrcContract.lean ====
section
/-! DEFINITION. The contract of the external CRC unit (44_frame_assembler.md R238 to R240). The circuit is outside
the block (00_scope.md R4 (b)) and no transaction calls these functions: they say what the consumer of the F port
is held to (notes/assumptions/13.md). -/

namespace Sys2Proof.Machine

/-- The generator polynomial without its leading x^24: 0x1FFF409 (44_frame_assembler.md R238). -/
def crcGenerator : BitVec 24 := 0xFFF409#24

/-- One bit of the polynomial division: shift the next coefficient in, and subtract the generator where x^24
appears. -/
def crcShift (r : BitVec 24) (bit : Bool) : BitVec 24 :=
  let shifted := (r <<< 1) ||| BitVec.ofNat 24 bit.toNat
  if r.getLsbD 23 then shifted ^^^ crcGenerator else shifted

/-- The first `n` bits of a frame, fbit[0] first (44_frame_assembler.md R231). -/
def frameBits (bytes : BitVec 112) (n : Nat) : List Bool := (List.range n).map fun k => bytes.getLsbD (111 - k)

/-- The residue: the remainder of the frame read as a polynomial with fbit[0] its highest coefficient
(44_frame_assembler.md R238). -/
def crcResidue (bits : List Bool) : BitVec 24 := bits.foldl crcShift 0#24

/-- The residue of a record over its L bits (90_conflicts.md C5). -/
def frameResidue (r : Frame) : BitVec 24 := crcResidue (frameBits r.data r.len.toNat)

/-- The verdict of the external unit under a policy for the other DFs: zero residue for DF 17 and 18 (R238); the
upper 17 bits of the residue zero for DF 11 (R239); the policy's for every other DF (R240, 92_eei_decisions.md
D24). -/
def crcVerdictUnder (policy : CrcPolicy) (r : Frame) : Bool :=
  if r.df = 17#5 ∨ r.df = 18#5 then frameResidue r == 0#24
  else if r.df = 11#5 then (frameResidue r).extractLsb' 7 17 == 0#17
  else
    match policy with
    | .reject => false
    | .acceptZeroResidue => frameResidue r == 0#24
    | .acceptAny => true

/-- The verdict of the external unit (44_frame_assembler.md R238 to R240). -/
def crcVerdict (r : Frame) : Bool := crcVerdictUnder Config.crcOtherDfPolicy r

end Sys2Proof.Machine
end

