-- ==== Sys2Proof/Safety.lean ====
section
/-! DEFINITION. What a state of the block keeps to in every run: the invariant of the machine, in the terms the
statements use. It holds after reset and every step keeps it; in a state that meets it no SAMPLE reads outside the
segment's history, so no step faults (60_exceptions.md R320, 10_state.md R52). -/

namespace Sys2Proof.Machine

/-- A magnitude the history may hold: finite, with a clear sign bit (40_sample_magnitude.md R115). -/
abbrev IsMag (w : Word) : Prop := w.toNat < 0x7F800000

/-- A noise value the history may hold: not NaN, with a clear sign bit; +infinity is not ruled out
(41_noise_floor.md R145, R146; notes/assumptions/10.md). -/
abbrev IsNoise (w : Word) : Prop := w.toNat ≤ 0x7F800000

/-- A number of units that is the magnitude of a finite binary32 value: below 2^128, with at most 24 significant
bits (00_scope.md R9). -/
abbrev Representable (units : Nat) : Prop := units < two128 ∧ 2 ^ excess units ∣ units

/-- The rational number a finite value is; 0 for the values that are no number. -/
def valueOf : Fp → ℚ
  | .fin neg units => (signed neg units : ℚ) / 2 ^ 149
  | _ => 0

/-- `r` is the rational number `x` rounded once to binary32, to nearest, ties to even, with the sign given: the
nearest representable value while `x` is below 2^128 - 2^103 in size, where MAXF ends, and an infinity from there up
(00_scope.md R9, R12). -/
def RoundsTo (r : Fp) (neg : Bool) (x : ℚ) : Prop :=
  (|x| < 2 ^ 128 - 2 ^ 103 →
    ∃ u, r = .fin neg u ∧ Representable u ∧
      ∀ (d : Bool) (v : Nat), Representable v →
        |valueOf r - x| ≤ |valueOf (.fin d v) - x| ∧
        (valueOf (.fin d v) ≠ valueOf r → |valueOf r - x| = |valueOf (.fin d v) - x| → u / 2 ^ excess u % 2 = 0)) ∧
  (2 ^ 128 - 2 ^ 103 ≤ |x| → r = .inf neg)

/-- What a frame record of the queue keeps to: its length follows from its DF, its DF is its first five bits,
its timestamp is that of its hit, nothing stands after its last bit, and soft_any is the OR of its soft flags
(43_demodulator.md R204, R205, R211; 44_frame_assembler.md R230, R231). -/
structure Frame.Ok (r : Frame) : Prop where
  len : r.len = BitVec.ofNat 8 (frameLen r.df)
  df : r.df = r.data.extractLsb' 107 5
  ts : r.ts = BitVec.ofNat 48 (3 * r.idx.toNat)
  dataPad : ∀ k, r.len.toNat ≤ k → r.data.getMsbD k = false
  softPad : ∀ k, r.len.toNat ≤ k → r.softmask.getMsbD k = false
  softAny : r.softAny = (r.softmask != 0#112)

/-- What a demodulation in flight keeps to: it is the last hit's, the guard is disarmed, its hit was decided 47
samples after it and lies in the history, and its last bit is still to come (42_correlator.md R172, R174;
43_demodulator.md R206). -/
structure Demod.Ok (b : Block) (d : Demod) : Prop where
  disarmed : b.armed = false
  last : b.lastHit = some d.h
  decided : 47 ≤ ageOf b d.h
  held : ageOf b d.h < b.hist.length
  unfinished : ageOf b d.h < 479
  pending : 51 ≤ ageOf b d.h → ∀ df, downlinkFormat b d.h = some df → ageOf b d.h < 31 + 4 * frameLen df

/-- The invariant of the block under the instance's parameters, but for the demodulation in flight. -/
structure Block.Base (p : Params) (b : Block) : Prop where
  /-- NF_WINDOW is legal (10_state.md R30), or still its reset value 4000 (notes/assumptions/5.md). -/
  window : 1 ≤ b.nfWindow.toNat ∧ b.nfWindow.toNat ≤ max p.nfWMax 4000
  /-- HOLDOFF never holds less than 480 (10_state.md R32). -/
  holdoff : 480 ≤ b.holdoff.toNat
  /-- FQ holds at most FQ_DEPTH records (10_state.md R45). -/
  queue : b.fq.length ≤ p.fqDepth
  /-- The history holds the samples SEG_START .. SIDX - 1 (10_state.md R41, R42). -/
  length : BitVec.ofNat 64 b.hist.length = b.sidx - b.segStart
  /-- Every stored magnitude is finite and at least +0.0 (40_sample_magnitude.md R115). -/
  mags : ∀ e ∈ b.hist, IsMag e.mag
  /-- No stored noise value is NaN or negative (41_noise_floor.md R146). -/
  noises : ∀ e ∈ b.hist, IsNoise e.noise
  /-- E is unset exactly while the segment holds no sample (10_state.md R42, 41_noise_floor.md R145). -/
  envSet : b.env = none ↔ b.hist = []
  /-- E is never NaN or negative (41_noise_floor.md R146). -/
  envOk : ∀ e, b.env = some e → IsNoise e
  /-- A disarmed guard has a last hit (42_correlator.md R172). -/
  guard : b.armed = false → b.lastHit ≠ none
  /-- Every hit became a frame, was discarded, or is in flight (42_correlator.md R172, 43_demodulator.md R206,
  R207), modulo 2^32. -/
  hits : b.cntHit = b.cntFrame + b.cntDiscard + (if b.demod.isSome then 1#32 else 0#32)
  /-- SEQ_CTR counts the frames modulo 256 (44_frame_assembler.md R233). -/
  seq : b.seqCtr = b.cntFrame.setWidth 8
  /-- Every queued record is in order. -/
  frames : ∀ r ∈ b.fq, Frame.Ok r
  /-- The queue holds consecutive frames, the newest at its tail (20_memory.md R74). -/
  order : ∀ k r, b.fq[k]? = some r → r.seq = b.seqCtr - BitVec.ofNat 8 (b.fq.length - k)

/-- The invariant of the block under the instance's parameters. -/
structure Block.Inv (p : Params) (b : Block) : Prop extends Block.Base p b where
  /-- The demodulation in flight. -/
  demod : ∀ d, b.demod = some d → Demod.Ok b d

/-- The invariant of the machine: legal parameters and the block's invariant. -/
structure State.Inv (s : State) : Prop where
  params : s.params.Legal
  blk : s.blk.Inv s.params

end Sys2Proof.Machine
end

