-- ==== Sys2Proof/WellFormed.lean ====
section
/-! DEFINITION. Well-formed transactions: those a descriptor spells (30_encoding.md R92). -/

namespace Sys2Proof

/-- A bus-error transaction names an address of no register: a mapped address spells that register's own RD or
WR (30_encoding.md R92, exact rows first). Every other term is spelled by some descriptor and payload. -/
def WellFormed : Instr → Bool
  | .rdBuserr a => (regAt a).isNone
  | .wrBuserr a _ => (regAt a).isNone
  | _ => true

end Sys2Proof
end

