-- ==== Sys2Proof/Certificates/Slice0/Obligations.lean ====
section
/-! DEFINITION. The statements for the provers, each formalising a rule of spec/ or a property of the machine.
A statement about a transaction's result has as its conclusion the next state exec answers. -/

open Sys2Proof Sys2Proof.Machine

/-! ### Encoding -/

/-- Decoding the words of any well-formed transaction gives it back, and leaves the rest of the stream
(30_encoding.md R81 to R86, R92). The order of a payload's 16-bit words is the model's choice
(notes/assumptions/1.md). -/
def Obligations.DecodeOfEncode : Prop :=
  ∀ (i : Instr) (rest : List Desc), WellFormed i = true → decode (encode i ++ rest) = .ok (i, rest)

/-- Whatever the decoder reads is well-formed, and its words are those read: no bit of a descriptor or payload is
dropped and no two streams read as one (30_encoding.md R81 to R86). The order of a payload's 16-bit words is the
model's choice (notes/assumptions/1.md). -/
def Obligations.EncodeOfDecode : Prop :=
  ∀ (ws rest : List Desc) (i : Instr), decode ws = .ok (i, rest) → WellFormed i = true ∧ encode i ++ rest = ws

/-- The register map of R22, row by row: the address is that register's, of the access type given, and after reset
its RD responds the reset value given; a read-only register ignores writes, the write-only one reads 0; every
address of no row is unmapped, a bus error. -/
def Obligations.RegisterMapRows : Prop :=
  let rows : List (Addr × Reg × Access × Word) :=
    [(0x000#12, .id, .ro, 0x414A5043#32), (0x004#12, .version, .ro, 0x00010000#32),
     (0x008#12, .ctrl, .rw, 0#32), (0x00C#12, .status, .ro, 4#32), (0x010#12, .tAbs, .rw, 0x41200000#32),
     (0x014#12, .kRel, .rw, 0x40000000#32), (0x018#12, .eps, .rw, 0#32), (0x01C#12, .nfWindow, .rw, 0xFA0#32),
     (0x020#12, .nfShift, .rw, 0xC#32), (0x024#12, .holdoff, .rw, 0x1E0#32), (0x028#12, .noise, .ro, 0#32),
     (0x02C#12, .sidxLo, .ro, 0#32), (0x030#12, .sidxHi, .ro, 0#32), (0x040#12, .cntHit, .ro, 0#32),
     (0x044#12, .cntSupp, .ro, 0#32), (0x048#12, .cntFrame, .ro, 0#32), (0x04C#12, .cntDiscard, .ro, 0#32),
     (0x050#12, .cntFqdrop, .ro, 0#32), (0x054#12, .cntBadmag, .ro, 0#32), (0x058#12, .cntBuserr, .ro, 0#32),
     (0x080#12, .frInfo, .ro, 0#32), (0x084#12, .frTsLo, .ro, 0#32), (0x088#12, .frTsHi, .ro, 0#32),
     (0x08C#12, .frIdxLo, .ro, 0#32), (0x090#12, .frIdxHi, .ro, 0#32), (0x094#12, .frScore, .ro, 0#32),
     (0x098#12, .frNoise, .ro, 0#32), (0x0A0#12, .frData0, .ro, 0#32), (0x0A4#12, .frData1, .ro, 0#32),
     (0x0A8#12, .frData2, .ro, 0#32), (0x0AC#12, .frData3, .ro, 0#32), (0x0B0#12, .frSoft0, .ro, 0#32),
     (0x0B4#12, .frSoft1, .ro, 0#32), (0x0B8#12, .frSoft2, .ro, 0#32), (0x0BC#12, .frSoft3, .ro, 0#32),
     (0x0C0#12, .frPop, .wo, 0#32)]
  (∀ row ∈ rows, regAt row.1 = some row.2.1 ∧ regAccess row.2.1 = row.2.2.1 ∧
    exec (decodeRd row.1) State.reset =
      .next { State.reset with io := { State.reset.io with rResponses := [row.2.2.2] } } ∧
    (row.2.2.1 = .ro → ∀ (s : State) (v : Word), exec (decodeWr row.1 v) s = .next s) ∧
    (row.2.2.1 = .wo → ∀ s : State,
      exec (decodeRd row.1) s = .next { s with io := { s.io with rResponses := 0#32 :: s.io.rResponses } })) ∧
  ∀ (a : Addr) (v : Word), (∀ row ∈ rows, row.1 ≠ a) → decodeRd a = .rdBuserr a ∧ decodeWr a v = .wrBuserr a v

/-- Words written out from the encoding tables of 30_encoding.md and the encodings of 95_test_vectors.md read as
the transactions they spell, a payload's least significant 16 bits first (the model's choice,
notes/assumptions/1.md). -/
def Obligations.SpecWordsDecode : Prop :=
  decode [0x000C#16] = .ok (.rdStatus, []) ∧
  decode [0x0011#16] = .ok (.rdBuserr 0x011#12, []) ∧
  decode [0x2008#16, 0x0021#16, 0x0000#16] = .ok (.wrCtrl 0x21#32, []) ∧
  decode [0x2024#16, 0x0258#16, 0x0001#16] = .ok (.wrHoldoff 0x00010258#32, []) ∧
  decode [0x20FC#16, 0x0001#16, 0x0000#16] = .ok (.wrBuserr 0x0FC#12 1#32, []) ∧
  decode [0x4000#16, 0x0000#16, 0x4040#16, 0x0000#16, 0x4080#16] =
    .ok (.sample false 0x40800000#32 0x40400000#32, []) ∧
  decode [0x4001#16, 0x0000#16, 0x3F80#16, 0x0000#16, 0x0000#16] = .ok (.sample true 0#32 0x3F800000#32, []) ∧
  decode [0x6000#16] = .ok (.ftake, [])

/-- A descriptor of a reserved kind (30_encoding.md R88), or of a defined kind with a reserved bit set (R89), spells
no transaction, whatever words follow: the decoder refuses it by name, and so does a step that meets it at a port. -/
def Obligations.ReservedDescriptorsRefused : Prop :=
  ∀ (d : Desc) (ws : List Desc),
    let refusedAs (why : DecodeError) : Prop := decode (d :: ws) = .error why ∧
      ∀ (s : State) (p : Port) (ts : List Turn), s.io.turns = .port p :: ts → ¬(p = .f ∧ s.io.fHeld = true) →
        portWords s.io p = d :: ws → step s = .refused (.noTransaction why)
    (0b100 ≤ (d.extractLsb' 13 3).toNat → refusedAs .reservedKind) ∧
    ((d.extractLsb' 13 3 = 0b000#3 ∨ d.extractLsb' 13 3 = 0b001#3) → d.getLsbD 12 = true →
      refusedAs .reservedBits) ∧
    (d.extractLsb' 13 3 = 0b010#3 → d.extractLsb' 1 12 ≠ 0#12 → refusedAs .reservedBits) ∧
    (d.extractLsb' 13 3 = 0b011#3 → d.extractLsb' 0 13 ≠ 0#13 → refusedAs .reservedBits)

/-! ### Steps -/

/-- When the agent whose turn it is does not wait on a held FTAKE and has words pending that decode to a
transaction of its port, the step uses up the turn and the words and is exec of that transaction; a transaction of
another port, and words that spell none, are refused. The turns and the ports' word lists are the model's choice
(notes/assumptions/2.md, 16.md). -/
def Obligations.StepRunsDecodedTransaction : Prop :=
  ∀ (s : State) (p : Port) (ts : List Turn),
    s.io.turns = .port p :: ts → ¬(p = .f ∧ s.io.fHeld = true) →
    (∀ (i : Instr) (rest : List Desc), decode (portWords s.io p) = .ok (i, rest) →
      (portOf i = p → step s = exec i { s with io := setPort { s.io with turns := ts } p rest }) ∧
      (portOf i ≠ p → step s = .refused (.wrongPort (portOf i)))) ∧
    ∀ why, portWords s.io p ≠ [] → decode (portWords s.io p) = .error why → step s = .refused (.noTransaction why)

/-- While an FTAKE is held, the frame consumer's turn offers that FTAKE again and takes no words off its port
(44_frame_assembler.md R236); that it does is the model's reading (notes/assumptions/3.md). -/
def Obligations.HeldFtakeIsOfferedAgain : Prop :=
  ∀ (s : State) (ts : List Turn), s.io.turns = .port .f :: ts → s.io.fHeld = true →
    step s = exec .ftake { s with io := { s.io with turns := ts } }

/-- The block has no step of its own: with no turn left nothing changes, and an agent with nothing pending uses
up its turn and changes nothing else (10_state.md R20). The turns are the model's choice (notes/assumptions/2.md). -/
def Obligations.NoTransactionNoEffect : Prop :=
  ∀ s : State, (s.io.turns = [] → step s = .next s) ∧
    ∀ (p : Port) (ts : List Turn), s.io.turns = .port p :: ts → ¬(p = .f ∧ s.io.fHeld = true) →
      portWords s.io p = [] → step s = .next { s with io := { s.io with turns := ts } }

/-- Asserting the reset input performs Reset() and leaves the ports as they are (70_reset_and_hazards.md R352);
and the machine starts from the state Reset() gives. That the input acts as a turn, and that the ports keep their
words, is the model's choice (notes/assumptions/14.md). -/
def Obligations.ResetInputPerformsReset : Prop :=
  Sys2Proof.core.reset = State.reset ∧ State.reset.blk = Block.reset ∧
  ∀ (s : State) (ts : List Turn), s.io.turns = .resetPin :: ts →
    step s = .next { s with blk := Block.reset, io := { s.io with turns := ts } }

/-! ### Reset -/

/-- What Reset() leaves (70_reset_and_hazards.md R350): every piece of state at the rule's value, STATUS and NOISE
reading as it says, the outputs inactive. -/
def Obligations.ResetValues : Prop :=
  ∀ b : Block,
    resetBlock b =
      { en := false, ie := false, magMode := .abs, nfMode := .movingMin, tAbs := 0x41200000#32,
        kRel := 0x40000000#32, eps := 0#32, nfWindow := 4000#32, nfShift := 12#5, holdoff := 480#16, sidx := 0#64,
        cntHit := 0#32, cntSupp := 0#32, cntFrame := 0#32, cntDiscard := 0#32, cntFqdrop := 0#32, cntBadmag := 0#32,
        cntBuserr := 0#32, segStart := 0#64, hist := [], env := none, armed := true, lastHit := none, demod := none,
        fq := [], seqCtr := 0#8 } ∧
    statusWord (resetBlock b) = 0x00000004#32 ∧ noiseWord (resetBlock b) = 0#32 ∧ irq (resetBlock b) = false ∧
    fValid (resetBlock b) = false

/-- A WR to CTRL with SRESET = 1 performs Reset() and nothing else; queued frames are lost and a held FTAKE stays
held (70_reset_and_hazards.md R351). -/
def Obligations.SoftReset : Prop :=
  ∀ (s : State) (v : Word), v.getLsbD 2 = true →
    ∃ t, exec (.wrCtrl v) s = .next t ∧ t = { s with blk := Block.reset } ∧ t.blk.fq = [] ∧
      t.io.fHeld = s.io.fHeld

/-! ### Register reads and writes -/

/-- ID and VERSION respond their constants, and ignore writes (10_state.md R23, R24; 45_register_port.md R265,
R266). -/
def Obligations.IdentityRegisters : Prop :=
  ∀ (s : State) (v : Word),
    exec .rdId s = .next { s with io := { s.io with rResponses := 0x414A5043#32 :: s.io.rResponses } } ∧
    exec .rdVersion s = .next { s with io := { s.io with rResponses := 0x00010000#32 :: s.io.rResponses } } ∧
    exec (.wrId v) s = .next s ∧ exec (.wrVersion v) s = .next s

/-- CTRL (45_register_port.md R267): what a RD responds, and what a WR does, bit by bit: SRESET wins; else the
fields are stored, MAG_MODE 3 leaves the field unchanged, bits 31:7 are ignored, and FLUSH acts on the result. -/
def Obligations.CtrlRegister : Prop :=
  ∀ (s : State) (v : Word),
    let magBits : BitVec 2 := match s.blk.magMode with
      | .abs => 0#2
      | .absSq => 1#2
      | .bypass => 2#2
    let newMode : MagMode := match v.getLsbD 5, v.getLsbD 4 with
      | false, false => .abs
      | false, true => .absSq
      | true, false => .bypass
      | true, true => s.blk.magMode
    let written : Block :=
      { s.blk with
        en := v.getLsbD 0
        ie := v.getLsbD 3
        magMode := newMode
        nfMode := if v.getLsbD 6 then .release else .movingMin }
    exec .rdCtrl s =
      .next { s with io := { s.io with
        rResponses := (0#25 ++ BitVec.ofBool (s.blk.nfMode == .release) ++ magBits ++ BitVec.ofBool s.blk.ie ++ 0#2 ++
          BitVec.ofBool s.blk.en) :: s.io.rResponses } } ∧
    exec (.wrCtrl v) s =
      .next { s with
        blk := if v.getLsbD 2 then Block.reset else if v.getLsbD 1 then flush written else written }

/-- STATUS, bit by bit (10_state.md R26, 45_register_port.md R268), and a WR to it ignored; FQ_COUNT is exact in every
state that meets the invariant. Its bit IRQ is the irq
line: CTRL.IE and FQ not empty, a level with no latch (60_exceptions.md R322). After reset it reads 4. -/
def Obligations.StatusRegister : Prop :=
  (∀ (s : State) (v : Word), ∃ w : Word,
    exec .rdStatus s = .next { s with io := { s.io with rResponses := w :: s.io.rResponses } } ∧
    exec (.wrStatus v) s = .next s ∧
    w.getLsbD 0 = (s.blk.fq != []) ∧ w.getLsbD 1 = s.blk.demod.isSome ∧ w.getLsbD 2 = s.blk.armed ∧
    w.getLsbD 3 = false ∧ w.getLsbD 4 = (s.blk.ie && s.blk.fq != []) ∧ w.extractLsb' 5 3 = 0#3 ∧
    w.extractLsb' 8 8 = BitVec.ofNat 8 s.blk.fq.length ∧ w.extractLsb' 16 16 = 0#16 ∧
    irq s.blk = (s.blk.ie && s.blk.fq != []) ∧ w.getLsbD 4 = irq s.blk ∧
    (s.Inv → (w.extractLsb' 8 8).toNat = s.blk.fq.length ∧ s.blk.fq.length ≤ s.params.fqDepth)) ∧
  exec .rdStatus State.reset = .next { State.reset with io := { State.reset.io with rResponses := [4#32] } }

/-- T_ABS, K_REL and EPS store any 32 bits and give them back unchanged; their reset values (10_state.md R27, R28,
R29). -/
def Obligations.ThresholdRegisters : Prop :=
  (∀ (s : State) (v : Word),
    exec (.wrTAbs v) s = .next { s with blk := { s.blk with tAbs := v } } ∧
    exec (.wrKRel v) s = .next { s with blk := { s.blk with kRel := v } } ∧
    exec (.wrEps v) s = .next { s with blk := { s.blk with eps := v } } ∧
    exec .rdTAbs s = .next { s with io := { s.io with rResponses := s.blk.tAbs :: s.io.rResponses } } ∧
    exec .rdKRel s = .next { s with io := { s.io with rResponses := s.blk.kRel :: s.io.rResponses } } ∧
    exec .rdEps s = .next { s with io := { s.io with rResponses := s.blk.eps :: s.io.rResponses } }) ∧
  State.reset.blk.tAbs = 0x41200000#32 ∧ State.reset.blk.kRel = 0x40000000#32 ∧ State.reset.blk.eps = 0#32

/-- NF_WINDOW, NF_SHIFT and HOLDOFF: what a WR stores, what a RD responds, their reset values (10_state.md R30,
R31, R32). For legal parameters the stored NF_WINDOW, as a number, is min(max(v, 1), NF_WMAX). -/
def Obligations.LegalisedRegisters : Prop :=
  (∀ (s : State) (v : Word), s.params.Legal →
    (∃ w : Word, exec (.wrNfWindow v) s = .next { s with blk := { s.blk with nfWindow := w } } ∧
      w.toNat = min (max v.toNat 1) s.params.nfWMax) ∧
    (∃ n : BitVec 5, exec (.wrNfShift v) s = .next { s with blk := { s.blk with nfShift := n } } ∧
      n.toNat = v.toNat % 32) ∧
    (∃ n : BitVec 16, exec (.wrHoldoff v) s = .next { s with blk := { s.blk with holdoff := n } } ∧
      n.toNat = max (v.toNat % 65536) 480)) ∧
  (∀ s : State,
    exec .rdNfWindow s = .next { s with io := { s.io with rResponses := s.blk.nfWindow :: s.io.rResponses } } ∧
    exec .rdNfShift s =
      .next { s with io := { s.io with rResponses := s.blk.nfShift.setWidth 32 :: s.io.rResponses } } ∧
    exec .rdHoldoff s =
      .next { s with io := { s.io with rResponses := s.blk.holdoff.setWidth 32 :: s.io.rResponses } }) ∧
  State.reset.blk.nfWindow = 4000#32 ∧ State.reset.blk.nfShift = 12#5 ∧ State.reset.blk.holdoff = 480#16

/-- NOISE, SIDX and the seven counters: what a RD responds (45_register_port.md R275, R276, R277); a WR is
ignored. -/
def Obligations.ObservationRegisters : Prop :=
  ∀ (s : State) (v : Word),
    let ans (w : Word) : Out := .next { s with io := { s.io with rResponses := w :: s.io.rResponses } }
    (s.blk.hist = [] → exec .rdNoise s = ans 0#32) ∧
    (∀ e older, s.blk.hist = e :: older → exec .rdNoise s = ans e.noise) ∧
    exec .rdSidxLo s = ans (s.blk.sidx.setWidth 32) ∧ exec .rdSidxHi s = ans ((s.blk.sidx >>> 32).setWidth 32) ∧
    exec .rdCntHit s = ans s.blk.cntHit ∧ exec .rdCntSupp s = ans s.blk.cntSupp ∧
    exec .rdCntFrame s = ans s.blk.cntFrame ∧ exec .rdCntDiscard s = ans s.blk.cntDiscard ∧
    exec .rdCntFqdrop s = ans s.blk.cntFqdrop ∧ exec .rdCntBadmag s = ans s.blk.cntBadmag ∧
    exec .rdCntBuserr s = ans s.blk.cntBuserr ∧
    exec (.wrNoise v) s = .next s ∧ exec (.wrSidxLo v) s = .next s ∧ exec (.wrSidxHi v) s = .next s ∧
    exec (.wrCntHit v) s = .next s ∧ exec (.wrCntSupp v) s = .next s ∧ exec (.wrCntFrame v) s = .next s ∧
    exec (.wrCntDiscard v) s = .next s ∧ exec (.wrCntFqdrop v) s = .next s ∧ exec (.wrCntBadmag v) s = .next s ∧
    exec (.wrCntBuserr v) s = .next s

/-- The frame window's views of the head record that are numbers: FR_INFO field by field, the timestamp, the
sample number, the score and the noise value; 0 while FQ is empty (10_state.md R36, R37, R38). -/
def Obligations.FrameWindowWords : Prop :=
  ∀ s : State,
    let ans (w : Word) : Out := .next { s with io := { s.io with rResponses := w :: s.io.rResponses } }
    (s.blk.fq = [] →
      exec .rdFrInfo s = ans 0#32 ∧ exec .rdFrTsLo s = ans 0#32 ∧ exec .rdFrTsHi s = ans 0#32 ∧
      exec .rdFrIdxLo s = ans 0#32 ∧ exec .rdFrIdxHi s = ans 0#32 ∧ exec .rdFrScore s = ans 0#32 ∧
      exec .rdFrNoise s = ans 0#32) ∧
    ∀ (r : Frame) (rest : List Frame), s.blk.fq = r :: rest →
      (∃ w : Word, exec .rdFrInfo s = ans w ∧ w.extractLsb' 0 8 = r.len ∧ w.extractLsb' 8 5 = r.df ∧
        w.getLsbD 13 = r.softAny ∧ w.getLsbD 14 = false ∧ w.getLsbD 15 = true ∧ w.extractLsb' 16 8 = r.siglvl ∧
        w.extractLsb' 24 8 = r.seq) ∧
      exec .rdFrTsLo s = ans (r.ts.setWidth 32) ∧ exec .rdFrTsHi s = ans ((r.ts >>> 32).setWidth 32) ∧
      exec .rdFrIdxLo s = ans (r.idx.setWidth 32) ∧ exec .rdFrIdxHi s = ans ((r.idx >>> 32).setWidth 32) ∧
      exec .rdFrScore s = ans r.score ∧ exec .rdFrNoise s = ans r.noise

/-- FR_DATAq and FR_SOFTq: word q is the four bytes 4q .. 4q + 3 of the head record, big-endian, bytes 14 and 15
reading 0; all eight 0 while FQ is empty (10_state.md R39). Byte k of a record is bits 8k .. 8k + 7 counted from
the first. -/
def Obligations.FrameByteWords : Prop :=
  ∀ s : State,
    let ans (w : Word) : Out := .next { s with io := { s.io with rResponses := w :: s.io.rResponses } }
    let reads : List (Instr × Bool × Nat) :=
      [(.rdFrData0, false, 0), (.rdFrData1, false, 1), (.rdFrData2, false, 2), (.rdFrData3, false, 3),
       (.rdFrSoft0, true, 0), (.rdFrSoft1, true, 1), (.rdFrSoft2, true, 2), (.rdFrSoft3, true, 3)]
    (s.blk.fq = [] → ∀ x ∈ reads, exec x.1 s = ans 0#32) ∧
    ∀ (r : Frame) (rest : List Frame), s.blk.fq = r :: rest →
      ∀ x ∈ reads, ∃ w : Word, exec x.1 s = ans w ∧
        ∀ j, j < 32 → w.getMsbD j = (if x.2.1 then r.softmask else r.data).getMsbD (32 * x.2.2 + j)

/-- FR_POP: a WR of any word removes the head record, if there is one, and changes nothing else; a RD responds 0
(45_register_port.md R279). -/
def Obligations.FrPopRegister : Prop :=
  ∀ (s : State) (v : Word),
    (s.blk.fq = [] → exec (.wrFrPop v) s = .next s) ∧
    (∀ r rest, s.blk.fq = r :: rest → exec (.wrFrPop v) s = .next { s with blk := { s.blk with fq := rest } }) ∧
    exec .rdFrPop s = .next { s with io := { s.io with rResponses := 0#32 :: s.io.rResponses } }

/-- A WR to a read-only register changes no state: ID, VERSION, STATUS, NOISE, SIDX_LO, SIDX_HI, the seven
counters, FR_INFO, FR_TS_LO, FR_TS_HI, FR_IDX_LO, FR_IDX_HI, FR_SCORE, FR_NOISE, FR_DATA0..3, FR_SOFT0..3
(45_register_port.md R262). -/
def Obligations.ReadOnlyWritesIgnored : Prop :=
  ∀ (s : State) (v : Word), ∀ i ∈
    ([.wrId v, .wrVersion v, .wrStatus v, .wrNoise v, .wrSidxLo v, .wrSidxHi v, .wrCntHit v, .wrCntSupp v,
      .wrCntFrame v, .wrCntDiscard v, .wrCntFqdrop v, .wrCntBadmag v, .wrCntBuserr v, .wrFrInfo v, .wrFrTsLo v,
      .wrFrTsHi v, .wrFrIdxLo v, .wrFrIdxHi v, .wrFrScore v, .wrFrNoise v, .wrFrData0 v, .wrFrData1 v,
      .wrFrData2 v, .wrFrData3 v, .wrFrSoft0 v, .wrFrSoft1 v, .wrFrSoft2 v, .wrFrSoft3 v] : List Instr),
    exec i s = .next s

/-- A RD of any mapped register responds one word, changes nothing else, and repeated at once responds the same
word (45_register_port.md R263). -/
def Obligations.ReadsHaveNoSideEffect : Prop :=
  ∀ (r : Reg) (s : State), ∃ w : Word,
    exec (rdOf r) s = .next { s with io := { s.io with rResponses := w :: s.io.rResponses } } ∧
    exec (rdOf r) { s with io := { s.io with rResponses := w :: s.io.rResponses } } =
      .next { s with io := { s.io with rResponses := w :: w :: s.io.rResponses } }

/-- A RD or WR of a misaligned address, or of an aligned one in no row of the register map, is a bus error:
CNT_BUSERR + 1 modulo 2^32, a RD responds 0, a WR writes nothing, nothing else changes (45_register_port.md
R264). -/
def Obligations.BusErrors : Prop :=
  ∀ (s : State) (a : Addr) (v : Word), (a.extractLsb' 0 2 ≠ 0#2 ∨ ∀ r, regAddr r ≠ a) →
    decodeRd a = .rdBuserr a ∧ decodeWr a v = .wrBuserr a v ∧
    exec (decodeRd a) s =
      .next { s with
        blk := { s.blk with cntBuserr := s.blk.cntBuserr + 1#32 }
        io := { s.io with rResponses := 0#32 :: s.io.rResponses } } ∧
    exec (decodeWr a v) s = .next { s with blk := { s.blk with cntBuserr := s.blk.cntBuserr + 1#32 } }

/-! ### SAMPLE and the magnitude unit -/

/-- With EN = 0 a SAMPLE changes no state at all, LAST or not (40_sample_magnitude.md R111). -/
def Obligations.DisabledSampleIgnored : Prop :=
  ∀ (s : State) (last : Bool) (im re : Word), s.blk.en = false → exec (.sample last im re) s = .next s

/-- With EN = 1 a SAMPLE completes in every state that meets the invariant, LAST or not, whatever its operands: no
rule reads outside the history (10_state.md R52, 60_exceptions.md R320). SIDX counts it; its sanitized magnitude
joins the history, and LAST = 1 then ends the segment (40_sample_magnitude.md R110, R119). -/
def Obligations.EnabledSampleCompletes : Prop :=
  ∀ (s : State) (last : Bool) (im re : Word), s.Inv → s.blk.en = true →
    ∃ t, exec (.sample last im re) s = .next t ∧ t.blk.sidx = s.blk.sidx + 1#64 ∧
      (last = false → ∃ noise,
        t.blk.hist = { mag := sanitize (rawMag s.blk.magMode (f32 im) (f32 re)), noise := noise } :: s.blk.hist) ∧
      (last = true → t.blk.hist = [] ∧ t.blk.segStart = t.blk.sidx ∧ t.blk.demod = none)

/-- The frame of a SAMPLE. It changes no configuration register, not CNT_BUSERR, no parameter and nothing at the
ports. With LAST = 0 it also leaves SEG_START and CNT_DISCARD, and keeps the history it found behind the new entry.
A SAMPLE that completes no frame (43_demodulator.md R206: one completes only 255 or 479 samples after the hit in
flight) leaves FQ, SEQ_CTR, CNT_FQDROP and CNT_FRAME; one that decides no index (42_correlator.md R168) leaves
CNT_HIT and CNT_SUPP, and with LAST = 0 ARMED and LAST_HIT; one that takes no hit starts no demodulation. -/
def Obligations.SampleFrame : Prop :=
  ∀ (s t : State) (last : Bool) (im re : Word), exec (.sample last im re) s = .next t →
    t.params = s.params ∧ t.io = s.io ∧ t.blk.en = s.blk.en ∧ t.blk.ie = s.blk.ie ∧ t.blk.magMode = s.blk.magMode ∧
    t.blk.nfMode = s.blk.nfMode ∧ t.blk.tAbs = s.blk.tAbs ∧ t.blk.kRel = s.blk.kRel ∧ t.blk.eps = s.blk.eps ∧
    t.blk.nfWindow = s.blk.nfWindow ∧ t.blk.nfShift = s.blk.nfShift ∧ t.blk.holdoff = s.blk.holdoff ∧
    t.blk.cntBuserr = s.blk.cntBuserr ∧
    (last = false → t.blk.segStart = s.blk.segStart ∧ t.blk.cntDiscard = s.blk.cntDiscard ∧
      (s.blk.en = true → t.blk.hist.tail = s.blk.hist)) ∧
    ((∀ d, s.blk.demod = some d → since s.blk.sidx d.h ≠ 255 ∧ since s.blk.sidx d.h ≠ 479) →
      t.blk.cntFrame = s.blk.cntFrame) ∧
    (t.blk.cntFrame = s.blk.cntFrame →
      t.blk.fq = s.blk.fq ∧ t.blk.seqCtr = s.blk.seqCtr ∧ t.blk.cntFqdrop = s.blk.cntFqdrop) ∧
    (since s.blk.sidx s.blk.segStart < 47 → t.blk.cntHit = s.blk.cntHit ∧ t.blk.cntSupp = s.blk.cntSupp ∧
      (last = false → t.blk.armed = s.blk.armed ∧ t.blk.lastHit = s.blk.lastHit)) ∧
    (last = false → t.blk.cntHit = s.blk.cntHit →
      t.blk.lastHit = s.blk.lastHit ∧ (t.blk.demod = none ∨ t.blk.demod = s.blk.demod))

/-- A processed sample's stored magnitude and the bad-magnitude counter (40_sample_magnitude.md R112 to R117):
RawMag by MAG_MODE, each operation rounded; the sanitized value stored as m[g], SIDX + 1. -/
def Obligations.SampleStoresMagnitude : Prop :=
  ∀ (s t : State) (last : Bool) (im re : Word), s.blk.en = true → exec (.sample last im re) s = .next t →
    let raw : Fp := match s.blk.magMode with
      | .abs => fsqrt (fadd (fmul (f32 re) (f32 re)) (fmul (f32 im) (f32 im)))
      | .absSq => fadd (fmul (f32 re) (f32 re)) (fmul (f32 im) (f32 im))
      | .bypass => f32 re
    t.blk.sidx = s.blk.sidx + 1#64 ∧
    (last = false → (t.blk.hist.map HistEntry.mag).head? = some (sanitize raw)) ∧
    ((raw = .nan ∨ (∃ neg, raw = .inf neg) ∨ ∃ x, 0 < x ∧ raw = .fin true x) →
      t.blk.cntBadmag = s.blk.cntBadmag + 1#32) ∧
    ((∃ x, raw = .fin false x ∨ raw = .fin true 0) → t.blk.cntBadmag = s.blk.cntBadmag)

/-- Sanitize on every binary32 word (40_sample_magnitude.md R115): NaN to +0.0, +infinity to MAXF, a negative value
or -infinity to +0.0, all counted; -0.0 to +0.0 and every other value unchanged, not counted. -/
def Obligations.SanitizeByWord : Prop :=
  ∀ w : Word,
    (0x7F800000 < w.toNat % 2 ^ 31 → sanitize (f32 w) = 0#32 ∧ badMag (f32 w) = true) ∧
    (w = 0x7F800000#32 → sanitize (f32 w) = 0x7F7FFFFF#32 ∧ badMag (f32 w) = true) ∧
    (0x80000000 < w.toNat → w.toNat ≤ 0xFF800000 → sanitize (f32 w) = 0#32 ∧ badMag (f32 w) = true) ∧
    (w = 0x80000000#32 → sanitize (f32 w) = 0#32 ∧ badMag (f32 w) = false) ∧
    (w.toNat < 0x7F800000 → sanitize (f32 w) = w ∧ badMag (f32 w) = false)

/-! ### Binary32 arithmetic -/

/-- The one rounding of an operation (00_scope.md R9). The exact result is n / 2^k units of 2^-149. Below 2^128 - 2^103,
which is 2^277 - 2^252 units, the result is finite and representable, no representable value is nearer to the exact
one, and of two equally near the one with the even significand is taken; from there up it is an infinity. -/
def Obligations.RoundingIsNearestEven : Prop :=
  ∀ (neg : Bool) (n k : Nat),
    (n < (2 ^ 277 - 2 ^ 252) * 2 ^ k → ∃ u, roundTo neg n k = .fin neg u ∧ Representable u ∧
      ∀ v : Nat, Representable v →
        |(u : ℤ) * 2 ^ k - n| ≤ |(v : ℤ) * 2 ^ k - n| ∧
        (v ≠ u → |(u : ℤ) * 2 ^ k - n| = |(v : ℤ) * 2 ^ k - n| → u / 2 ^ excess u % 2 = 0)) ∧
    ((2 ^ 277 - 2 ^ 252) * 2 ^ k ≤ n → roundTo neg n k = .inf neg)

/-- fadd, fsub and fmul (00_scope.md R9). Of finite values, the result is the exact sum, difference or product rounded
once (RoundsTo), finite while that is below 2^128 - 2^103 in size; an exact zero sum is +0 unless both operands are
negative zeros, and a product's sign is that of its factors. A NaN operand gives a NaN, an infinity wins over a
finite operand, and infinity minus infinity and zero times infinity are NaN. The IEEE definitions are written out by
the model (notes/assumptions/18.md). -/
def Obligations.SumsAndProductsAreNearest : Prop :=
  (∀ (a b : Bool) (x y : Nat),
    let p := valueOf (.fin a x)
    let q := valueOf (.fin b y)
    RoundsTo (fadd (.fin a x) (.fin b y)) (if p + q = 0 then a && b else decide (p + q < 0)) (p + q) ∧
    RoundsTo (fsub (.fin a x) (.fin b y)) (if p - q = 0 then a && !b else decide (p - q < 0)) (p - q) ∧
    RoundsTo (fmul (.fin a x) (.fin b y)) (a != b) (p * q)) ∧
  (∀ v : Fp, fadd .nan v = .nan ∧ fadd v .nan = .nan ∧ fsub .nan v = .nan ∧ fsub v .nan = .nan ∧
    fmul .nan v = .nan ∧ fmul v .nan = .nan) ∧
  ∀ (a b : Bool) (x : Nat),
    fadd (.inf a) (.inf b) = (if a = b then .inf a else .nan) ∧ fadd (.inf a) (.fin b x) = .inf a ∧
    fadd (.fin b x) (.inf a) = .inf a ∧
    fsub (.inf a) (.inf b) = (if a = b then .nan else .inf a) ∧ fsub (.inf a) (.fin b x) = .inf a ∧
    fsub (.fin b x) (.inf a) = .inf !a ∧
    fmul (.inf a) (.inf b) = .inf (a != b) ∧
    fmul (.inf a) (.fin b x) = (if x = 0 then .nan else .inf (a != b)) ∧
    fmul (.fin b x) (.inf a) = (if x = 0 then .nan else .inf (a != b))

/-- fsqrt (00_scope.md R9). Of a positive finite value of x units it is finite and representable, and no representable
value is nearer to the exact root, which is √(x · 2^149) units: the point halfway to a lesser representable value is
at most the root, the point halfway to a greater one at least it (squared, and the halves taken out). Of a zero it
is that zero, of +infinity +infinity, of a NaN, -infinity or a value below zero a NaN (40_sample_magnitude.md R113,
R120). The IEEE definition is written out by the model (notes/assumptions/18.md). -/
def Obligations.SquareRootIsNearest : Prop :=
  (∀ x : Nat, 0 < x → x < two128 → ∃ u, fsqrt (.fin false x) = .fin false u ∧ Representable u ∧
    ∀ v, Representable v →
      (v < u → (u + v) ^ 2 ≤ 4 * x * 2 ^ 149) ∧ (u < v → 4 * x * 2 ^ 149 ≤ (u + v) ^ 2)) ∧
  (∀ neg : Bool, fsqrt (.fin neg 0) = .fin neg 0) ∧
  (∀ x : Nat, 0 < x → fsqrt (.fin true x) = .nan) ∧
  fsqrt (.inf false) = .inf false ∧ fsqrt (.inf true) = .nan ∧ fsqrt .nan = .nan

/-- A binary32 word that is no NaN is the bits of its own value, whatever the free value; the bits of a representable
value, of an infinity and of a NaN stand for it; and fabs clears the sign bit (20_memory.md R62, 00_scope.md R9,
R12). -/
def Obligations.BitsOfValues : Prop :=
  (∀ (w : Word) (free : BitVec 23), f32 w ≠ .nan → bitsOf free (f32 w) = w) ∧
  (∀ (neg : Bool) (u : Nat) (free : BitVec 23), Representable u → f32 (bitsOf free (.fin neg u)) = .fin neg u) ∧
  (∀ (neg : Bool) (free : BitVec 23), f32 (bitsOf free (.inf neg)) = .inf neg) ∧
  (∀ free : BitVec 23, f32 (bitsOf free .nan) = .nan) ∧
  ∀ w : Word, fabs (f32 w) = f32 (w &&& 0x7FFFFFFF#32)

/-- The comparisons >, >= and < are the IEEE ordered ones (00_scope.md R10): false with a NaN on either side, the two
zeros equal in both orders, and on all other words, signs and infinities among them, the order of the numbers: a
word's place is its low 31 bits, negated where the sign bit is set. On finite values it is the order of the rational
numbers they are. -/
def Obligations.ComparisonsAreOrdered : Prop :=
  (∀ v : Fp, fgt .nan v = false ∧ fgt v .nan = false ∧ fge .nan v = false ∧ fge v .nan = false ∧
    flt .nan v = false ∧ flt v .nan = false) ∧
  (∀ z ∈ [(0#32, 0x80000000#32), (0x80000000#32, 0#32)],
    fgt (f32 z.1) (f32 z.2) = false ∧ flt (f32 z.1) (f32 z.2) = false ∧ fge (f32 z.1) (f32 z.2) = true) ∧
  (∀ a b : Word, a.toNat % 2 ^ 31 ≤ 0x7F800000 → b.toNat % 2 ^ 31 ≤ 0x7F800000 →
    let place (w : Word) : ℤ := if w.getLsbD 31 then -((w.toNat % 2 ^ 31 : ℕ) : ℤ) else ((w.toNat % 2 ^ 31 : ℕ) : ℤ)
    fgt (f32 a) (f32 b) = decide (place b < place a) ∧ fge (f32 a) (f32 b) = decide (place b ≤ place a) ∧
    flt (f32 a) (f32 b) = decide (place a < place b)) ∧
  ∀ (a b : Bool) (x y : Nat),
    (fgt (.fin a x) (.fin b y) = true ↔ valueOf (.fin b y) < valueOf (.fin a x)) ∧
    (fge (.fin a x) (.fin b y) = true ↔ valueOf (.fin b y) ≤ valueOf (.fin a x)) ∧
    (flt (.fin a x) (.fin b y) = true ↔ valueOf (.fin a x) < valueOf (.fin b y))

/-! ### Noise floor -/

/-- NF_MODE = 0: the noise value recorded for sample g is the least magnitude of the newest W samples of the
segment, sample g among them, or of all of them while it holds fewer (41_noise_floor.md R143, R144). -/
def Obligations.MovingMinimumIsLeast : Prop :=
  ∀ (s t : State) (im re : Word), s.Inv → s.blk.en = true → s.blk.nfMode = .movingMin →
    exec (.sample false im re) s = .next t →
    ∃ e older, t.blk.hist = e :: older ∧
      let window := t.blk.hist.take (min s.blk.nfWindow.toNat (since s.blk.sidx s.blk.segStart + 1))
      (∃ x ∈ window, e.noise = x.mag) ∧ ∀ x ∈ window, e.noise.toNat ≤ x.mag.toNat

/-- E after a processed sample, whatever NF_MODE holds (41_noise_floor.md R141, R142, R145): the magnitude at a
segment's first sample or when it is below E, else the release formula, which leaves an E equal to the magnitude;
with NF_MODE = 1 it is the noise value recorded. -/
def Obligations.ReleaseEnvelope : Prop :=
  ∀ (s t : State) (im re : Word), s.Inv → s.blk.en = true → exec (.sample false im re) s = .next t →
    ∃ m e' older, t.blk.hist = e' :: older ∧ e'.mag = m ∧
      (s.blk.env = none → t.blk.env = some m) ∧
      (∀ e, s.blk.env = some e → flt (f32 m) (f32 e) = true → t.blk.env = some m) ∧
      (∀ e, s.blk.env = some e → flt (f32 m) (f32 e) = false →
        ∃ v, f32 v = fadd (f32 e) (fmul (fsub (f32 m) (f32 e)) (.fin false (2 ^ (149 - s.blk.nfShift.toNat)))) ∧
          t.blk.env = some v) ∧
      (s.blk.env = some m → t.blk.env = some m) ∧
      (s.blk.nfMode = .release → t.blk.env = some e'.noise)

/-! ### Correlator -/

/-- The score: S_hi(i) - S_lo(i), each a left fold of fadd in increasing position, defined exactly when the whole
template lies in the segment's history (42_correlator.md R161, R162, R163; 00_scope.md R11). -/
def Obligations.ScoreFormula : Prop :=
  ∀ (b : Block) (i : SampleNo),
    (31 ≤ ageOf b i → ageOf b i < b.hist.length →
      ∃ m : Nat → Fp, (∀ k, k ≤ 31 → magAt b (i + BitVec.ofNat 64 k) = some (m k)) ∧
        score b i = some (fsub
          (fadd (fadd (fadd (fadd (fadd (fadd (fadd (m 0) (m 1)) (m 4)) (m 5)) (m 14)) (m 15)) (m 18)) (m 19))
          (fadd (fadd (fadd (fadd (fadd (fadd (fadd (fadd (fadd (fadd (fadd (m 2) (m 3)) (m 6)) (m 7)) (m 8)) (m 9))
            (m 10)) (m 11)) (m 12)) (m 13)) (m 16)) (m 17)))) ∧
    (¬(31 ≤ ageOf b i ∧ ageOf b i < b.hist.length) → score b i = none)

/-- Qualification: both comparisons strict (42_correlator.md R164). -/
def Obligations.QualifyBothBounds : Prop :=
  ∀ (b : Block) (i : SampleNo) (c : Fp) (nz : Word), score b i = some c → noiseAt b i = some nz →
    ∃ q, qualify b i = some q ∧
      (q = true ↔ fgt c (f32 b.tAbs) = true ∧ fgt c (fmul (f32 b.kRel) (f32 nz)) = true)

/-- The local-maximum test over the ±16 window clipped to the segment (42_correlator.md R166). -/
def Obligations.LocalMaximumTest : Prop :=
  ∀ (b : Block) (i : SampleNo) (v : Bool), localMax b i = some v →
    (v = true ↔ ∃ c, score b i = some c ∧
      (∀ k, 1 ≤ k → k ≤ 16 → k ≤ since i b.segStart →
        ∃ d, score b (i - BitVec.ofNat 64 k) = some d ∧ fgt c d = true) ∧
      ∀ k, 1 ≤ k → k ≤ 16 → ∃ d, score b (i + BitVec.ofNat 64 k) = some d ∧ fge c d = true)

/-- Of two indices of a segment at most 16 apart, not both are local maxima: on a tie the earliest wins
(42_correlator.md R167). -/
def Obligations.NoTwoMaximaWithin16 : Prop :=
  ∀ (b : Block) (i : SampleNo) (k : Nat), 1 ≤ k → k ≤ 16 → k ≤ since (i + BitVec.ofNat 64 k) b.segStart →
    localMax b i = some true → localMax b (i + BitVec.ofNat 64 k) ≠ some true

/-- A candidate decided while ARMED = 1 is taken: TakeHit (42_correlator.md R170, R172). -/
def Obligations.CandidateTaken : Prop :=
  ∀ (b : Block) (i : SampleNo) (c hi : Fp) (nz : Word), b.armed = true → qualify b i = some true →
    localMax b i = some true → score b i = some c → noiseAt b i = some nz → foldSum b i [0, 1, 4, 5, 14, 15, 18, 19] = some hi →
    ∃ sc sh : Word, (c ≠ .nan → ∃ free, sc = bitsOf free c) ∧ (hi ≠ .nan → ∃ free, sh = bitsOf free hi) ∧
      decideIndex i b = some { b with
        cntHit := b.cntHit + 1#32
        armed := false
        lastHit := some i
        demod := some { h := i, score := sc, noise := nz, sHi := sh } }

/-- A candidate decided while ARMED = 0 changes nothing but CNT_SUPP (42_correlator.md R173). -/
def Obligations.CandidateSuppressed : Prop :=
  ∀ (b : Block) (i : SampleNo), b.armed = false → qualify b i = some true → localMax b i = some true →
    decideIndex i b = some { b with cntSupp := b.cntSupp + 1#32 }

/-- The guard re-arms at a decided index that does not qualify and lies HOLDOFF or more samples after the last
hit, and at no other; an index that is no candidate changes nothing else (42_correlator.md R170, R171). -/
def Obligations.GuardRearms : Prop :=
  ∀ (b : Block) (i : SampleNo),
    (∀ h, qualify b i = some false → b.armed = false → b.lastHit = some h →
      decideIndex i b = some (if b.holdoff.toNat ≤ since i h then { b with armed := true } else b)) ∧
    (qualify b i = some false → b.armed = true → decideIndex i b = some b) ∧
    (qualify b i = some true → localMax b i = some false → decideIndex i b = some b)

/-- The SAMPLE of g decides the index g - 47, and no other (42_correlator.md R168 to R173). In a segment that holds
fewer than 48 samples with it, it takes no hit and suppresses no candidate; a hit taken is that of index g - 47. In a
longer segment, with LAST = 0 and from a state that meets the invariant, the SAMPLE completes and index g - 47 is
decided: a candidate is taken while the guard is armed and counted in CNT_SUPP while it is not; an index that
qualifies and is no local maximum changes nothing; one that does not qualify re-arms the guard when it lies HOLDOFF or
more samples after the last hit. The decision reads the history with sample g in it, which is that of the state
after. -/
def Obligations.DecisionTiming : Prop :=
  ∀ (s : State) (im re : Word), s.blk.en = true →
    let i := s.blk.sidx - 47#64
    (∀ (last : Bool) (t : State), exec (.sample last im re) s = .next t →
      (since s.blk.sidx s.blk.segStart < 47 → t.blk.cntHit = s.blk.cntHit ∧ t.blk.cntSupp = s.blk.cntSupp) ∧
      (last = false → t.blk.cntHit ≠ s.blk.cntHit →
        47 ≤ since s.blk.sidx s.blk.segStart ∧ t.blk.lastHit = some i ∧ t.blk.armed = false ∧
        ∃ d, t.blk.demod = some d ∧ d.h = i)) ∧
    (s.Inv → 47 ≤ since s.blk.sidx s.blk.segStart →
      ∃ t, exec (.sample false im re) s = .next t ∧
      ∃ q, qualify t.blk i = some q ∧
        (q = true → ∃ v, localMax t.blk i = some v ∧
          (v = true → s.blk.armed = true →
            t.blk.cntHit = s.blk.cntHit + 1#32 ∧ t.blk.cntSupp = s.blk.cntSupp ∧ t.blk.armed = false ∧
            t.blk.lastHit = some i ∧
            ∃ d, t.blk.demod = some d ∧ d.h = i ∧ noiseAt t.blk i = some d.noise ∧
              (∃ c free, score t.blk i = some c ∧ d.score = bitsOf free c) ∧
              ∃ hi free, foldSum t.blk i [0, 1, 4, 5, 14, 15, 18, 19] = some hi ∧ d.sHi = bitsOf free hi) ∧
          (v = true → s.blk.armed = false →
            t.blk.cntSupp = s.blk.cntSupp + 1#32 ∧ t.blk.cntHit = s.blk.cntHit ∧ t.blk.armed = false ∧
            t.blk.lastHit = s.blk.lastHit) ∧
          (v = false →
            t.blk.cntHit = s.blk.cntHit ∧ t.blk.cntSupp = s.blk.cntSupp ∧ t.blk.armed = s.blk.armed ∧
            t.blk.lastHit = s.blk.lastHit)) ∧
        (q = false →
          t.blk.cntHit = s.blk.cntHit ∧ t.blk.cntSupp = s.blk.cntSupp ∧ t.blk.lastHit = s.blk.lastHit ∧
          t.blk.armed = (s.blk.armed || s.blk.lastHit.any fun h => decide (s.blk.holdoff.toNat ≤ since i h))))

/-- At most one demodulation is in flight: a SAMPLE that takes a hit finds DEMOD none and the guard armed, and
completes no frame (42_correlator.md R174). -/
def Obligations.HitFindsDemodulatorIdle : Prop :=
  ∀ (s t : State) (last : Bool) (im re : Word), s.Inv → exec (.sample last im re) s = .next t →
    t.blk.cntHit ≠ s.blk.cntHit →
    s.blk.demod = none ∧ s.blk.armed = true ∧ t.blk.cntFrame = s.blk.cntFrame ∧ t.blk.fq = s.blk.fq

/-- A NaN in T_ABS or K_REL disables detection: no SAMPLE takes a hit or suppresses a candidate; a NaN in EPS marks
every bit soft (70_reset_and_hazards.md R363). -/
def Obligations.NanThresholdsDisable : Prop :=
  (∀ (s t : State) (last : Bool) (im re : Word), (f32 s.blk.tAbs = .nan ∨ f32 s.blk.kRel = .nan) →
    exec (.sample last im re) s = .next t → t.blk.cntHit = s.blk.cntHit ∧ t.blk.cntSupp = s.blk.cntSupp) ∧
  ∀ (eps : Word) (a b : Fp), f32 eps = .nan → softFlag eps (a, b) = true

/-! ### Demodulator and frames -/

/-- The record of a completed frame (43_demodulator.md R201 to R206, R211; 44_frame_assembler.md R230, R231): the
SAMPLE of the last sample of the last bit appends to FQ the record of the hit in flight, its bits sliced from the
payload's magnitudes, DF from the first five bits, and a length of 112 for DF 17 and 18 and 56 otherwise. FQ is then the
queue it found, without its head when it held FQ_DEPTH records, and the record behind it; SEQ_CTR and CNT_FRAME count
up, and CNT_FQDROP exactly when the head was lost (44_frame_assembler.md R233, R234). -/
def Obligations.FrameRecordContents : Prop :=
  ∀ (s t : State) (im re : Word) (d : Demod) (m : Nat → Fp) (L : Nat),
    s.Inv → s.blk.en = true → s.blk.demod = some d → exec (.sample false im re) s = .next t →
    since s.blk.sidx d.h = 31 + 4 * L →
    (∀ j, j < 4 * L → magAt t.blk (d.h + BitVec.ofNat 64 (32 + j)) = some (m j)) →
    let bit (k : Nat) : Bool := fgt (fadd (m (4 * k)) (m (4 * k + 1))) (fadd (m (4 * k + 2)) (m (4 * k + 3)))
    let soft (k : Nat) : Bool :=
      !fgt (fabs (fsub (fadd (m (4 * k)) (m (4 * k + 1))) (fadd (m (4 * k + 2)) (m (4 * k + 3))))) (f32 s.blk.eps)
    let df : Nat := (bit 0).toNat * 16 + (bit 1).toNat * 8 + (bit 2).toNat * 4 + (bit 3).toNat * 2 + (bit 4).toNat
    5 ≤ L → (L = if df = 17 ∨ df = 18 then 112 else 56) →
    t.blk.demod = none ∧ t.blk.cntFrame = s.blk.cntFrame + 1#32 ∧ t.blk.seqCtr = s.blk.seqCtr + 1#8 ∧
    t.blk.cntFqdrop = (if s.blk.fq.length = s.params.fqDepth then s.blk.cntFqdrop + 1#32 else s.blk.cntFqdrop) ∧
    ∃ r, t.blk.fq = (if s.blk.fq.length = s.params.fqDepth then s.blk.fq.tail else s.blk.fq) ++ [r] ∧
      r.seq = s.blk.seqCtr ∧ r.len.toNat = L ∧ r.df.toNat = df ∧ r.idx = d.h ∧ r.score = d.score ∧
      r.noise = d.noise ∧ r.siglvl = sigLvl d.sHi ∧ r.ts.toNat = 3 * d.h.toNat % 2 ^ 48 ∧
      (∀ k, k < 112 → r.data.getMsbD k = (decide (k < L) && bit k)) ∧
      (∀ k, k < 112 → r.softmask.getMsbD k = (decide (k < L) && soft k)) ∧
      (r.softAny = true ↔ ∃ k, k < L ∧ soft k = true)

/-- A frame completes only in the SAMPLE of global sample h + 255 or h + 479 of the hit in flight, and takes the
demodulation with it (43_demodulator.md R206). -/
def Obligations.FrameCompletionTiming : Prop :=
  ∀ (s t : State) (im re : Word), s.Inv → exec (.sample false im re) s = .next t →
    (t.blk.cntFrame ≠ s.blk.cntFrame →
      ∃ d, s.blk.demod = some d ∧ t.blk.demod = none ∧
        (since s.blk.sidx d.h = 255 ∨ since s.blk.sidx d.h = 479)) ∧
    (t.blk.cntFrame = s.blk.cntFrame → ∀ d, s.blk.demod = some d → t.blk.demod = some d)

/-- Enqueue (44_frame_assembler.md R233, R234): the record takes SEQ_CTR's number and the tail of FQ; a full queue
loses its head and counts it; SEQ_CTR and CNT_FRAME count up. -/
def Obligations.EnqueueDropsOldest : Prop :=
  ∀ (p : Params) (r : Frame) (b : Block),
    (b.fq.length < p.fqDepth →
      enqueue p r b =
        { b with
          fq := b.fq ++ [{ r with seq := b.seqCtr }]
          seqCtr := b.seqCtr + 1#8
          cntFrame := b.cntFrame + 1#32 }) ∧
    ∀ (oldest : Frame) (rest : List Frame), b.fq = oldest :: rest → b.fq.length = p.fqDepth →
      enqueue p r b =
        { b with
          fq := rest ++ [{ r with seq := b.seqCtr }]
          seqCtr := b.seqCtr + 1#8
          cntFrame := b.cntFrame + 1#32
          cntFqdrop := b.cntFqdrop + 1#32 }

/-- Flush() (40_sample_magnitude.md R126), after a SAMPLE with LAST = 1 (R119) and by a WR to CTRL with FLUSH = 1: a
demodulation in flight is discarded and counted, the segment's history, E and the hold-off state are cleared, and
nothing else changes. -/
def Obligations.FlushEndsSegment : Prop :=
  (∀ b : Block, flush b =
    { b with
      cntDiscard := match b.demod with
        | none => b.cntDiscard
        | some _ => b.cntDiscard + 1#32
      demod := none
      segStart := b.sidx
      hist := []
      env := none
      armed := true
      lastHit := none }) ∧
  (∀ (s u : State) (im re : Word), s.blk.en = true → exec (.sample false im re) s = .next u →
    exec (.sample true im re) s = .next { u with blk := flush u.blk }) ∧
  ∀ (s : State) (v : Word), v.getLsbD 2 = false → v.getLsbD 1 = true →
    ∃ b, exec (.wrCtrl (v &&& ~~~2#32)) s = .next { s with blk := b } ∧
      exec (.wrCtrl v) s = .next { s with blk := flush b }

/-- The signal level (43_demodulator.md R210): for a pulse sum whose mean is a normal number, the clipped
piecewise-linear logarithm of the mean, 16 steps per octave and 128 at a mean of 1.0; 0 for a mean that is zero or
subnormal; 255 for an infinite one. -/
def Obligations.SignalLevelFormula : Prop :=
  (∀ w : Word, 4 ≤ w.toNat / 2 ^ 23 → w.toNat / 2 ^ 23 ≤ 254 →
    ((sigLvl w).toNat : ℤ) =
      min (max (16 * ((w.toNat / 2 ^ 23 - 3 : ℕ) - 127 : ℤ) + (w.toNat / 2 ^ 19 % 16 : ℕ) + 128) 0) 255) ∧
  (∀ w : Word, w.toNat < 2 ^ 25 → sigLvl w = 0#8) ∧ sigLvl 0x7F800000#32 = 255#8

/-- The F port (10_state.md R47, 44_frame_assembler.md R236). f_valid = 1 exactly while FQ is not empty, and f_data is
then its head record. FTAKE takes that record and responds it; while FQ is empty it is held and the block does not
change. The flag that holds it, and the log of responses, are the model's choice (notes/assumptions/3.md, 4.md). -/
def Obligations.FtakeTakesHead : Prop :=
  ∀ s : State,
    (∀ r rest, s.blk.fq = r :: rest →
      fValid s.blk = true ∧ fData s.blk = some r ∧
      exec .ftake s =
        .next { s with
          blk := { s.blk with fq := rest }
          io := { s.io with fResponses := r :: s.io.fResponses, fHeld := false } }) ∧
    (s.blk.fq = [] →
      fValid s.blk = false ∧ exec .ftake s = .next { s with io := { s.io with fHeld := true } })

/-- Nothing but an FTAKE ends a wait at the F port: whatever another transaction does, a reset or an FR_POP among
them, a held FTAKE stays held and no record is responded there (44_frame_assembler.md R236); the flag that holds it
is the model's choice (notes/assumptions/3.md). -/
def Obligations.HeldFtakeKeepsWaiting : Prop :=
  ∀ (i : Instr) (s t : State), i ≠ .ftake → exec i s = .next t →
    t.io.fHeld = s.io.fHeld ∧ t.io.fResponses = s.io.fResponses

/-! ### Rules of the whole machine -/

/-- The state after reset meets the invariant. -/
def Obligations.ResetMeetsInvariant : Prop := State.reset.Inv

/-- Every step keeps the invariant: the configuration registers legal, FQ within its depth with consecutive records
in order, the history that of the segment with finite non-negative magnitudes, E never NaN, the demodulation in
flight the last hit's with its last bit still to come, and every hit accounted for as a frame, a discard or the
demodulation in flight. That NF_WINDOW may stay at its reset value 4000 above a smaller NF_WMAX, and that E may be
+infinity, are the model's readings (notes/assumptions/5.md, 10.md). -/
def Obligations.StepKeepsInvariant : Prop := ∀ s t : State, s.Inv → step s = .next t → t.Inv

/-- The block raises no fault and no transaction fails: from a state that meets the invariant no step faults
(60_exceptions.md R320). -/
def Obligations.StepNeverFaults : Prop := ∀ (s : State) (f : Fault), s.Inv → step s ≠ .fault f

/-- No step changes the instance parameters (10_state.md R49). -/
def Obligations.ParametersNeverChange : Prop := ∀ s t : State, step s = .next t → t.params = s.params

/-- Who may change what (10_state.md R35, R49; 20_memory.md R72). T_ABS, K_REL, EPS, NF_WINDOW, NF_SHIFT and HOLDOFF
change only by a WR to them or by the soft reset, CTRL's fields only by a WR to CTRL. Each counter is cleared only by
the soft reset; else it counts by one, modulo 2^32, or stays: CNT_HIT, CNT_SUPP, CNT_FRAME, CNT_FQDROP and CNT_BADMAG
count only by a SAMPLE, CNT_DISCARD only by a SAMPLE with LAST = 1 or a WR to CTRL with FLUSH = 1, CNT_BUSERR only
by a bus error. -/
def Obligations.OnlyTheirOwnTransactions : Prop :=
  ∀ (i : Instr) (s t : State), exec i s = .next t →
    let softReset : Prop := ∃ v, i = .wrCtrl v ∧ v.getLsbD 2 = true
    let counts (f : Block → Word) (cause : Prop) : Prop :=
      softReset ∨ f t.blk = f s.blk ∨ (f t.blk = f s.blk + 1#32 ∧ cause)
    let sample : Prop := ∃ last im re, i = .sample last im re
    counts Block.cntHit sample ∧ counts Block.cntSupp sample ∧ counts Block.cntFrame sample ∧
    counts Block.cntFqdrop sample ∧ counts Block.cntBadmag sample ∧
    counts Block.cntDiscard ((∃ im re, i = .sample true im re) ∨ ∃ v, i = .wrCtrl v ∧ v.getLsbD 1 = true) ∧
    counts Block.cntBuserr ((∃ a, i = .rdBuserr a) ∨ ∃ a v, i = .wrBuserr a v) ∧
    ((t.blk.en ≠ s.blk.en ∨ t.blk.ie ≠ s.blk.ie ∨ t.blk.magMode ≠ s.blk.magMode ∨ t.blk.nfMode ≠ s.blk.nfMode) →
      ∃ v, i = .wrCtrl v) ∧
    (t.blk.tAbs ≠ s.blk.tAbs → softReset ∨ ∃ v, i = .wrTAbs v) ∧
    (t.blk.kRel ≠ s.blk.kRel → softReset ∨ ∃ v, i = .wrKRel v) ∧
    (t.blk.eps ≠ s.blk.eps → softReset ∨ ∃ v, i = .wrEps v) ∧
    (t.blk.nfWindow ≠ s.blk.nfWindow → softReset ∨ ∃ v, i = .wrNfWindow v) ∧
    (t.blk.nfShift ≠ s.blk.nfShift → softReset ∨ ∃ v, i = .wrNfShift v) ∧
    (t.blk.holdoff ≠ s.blk.holdoff → softReset ∨ ∃ v, i = .wrHoldoff v)

/-- Frames leave FQ in the order they were completed: the records two FTAKEs in a row take have consecutive
sequence numbers (20_memory.md R74). -/
def Obligations.FramesLeaveInOrder : Prop :=
  ∀ (s t u : State) (r1 r2 : Frame) (rest : List Frame), s.Inv → s.blk.fq = r1 :: r2 :: rest →
    exec .ftake s = .next t → exec .ftake t = .next u →
    u.io.fResponses = r2 :: r1 :: s.io.fResponses ∧ r2.seq = r1.seq + 1#8

/-- The history bound (10_state.md R50): a SAMPLE depends on no magnitude older than the newest max(NF_WMAX, 480)
and no noise value older than the newest 48: from two states that meet the invariant and differ only in older
history, it leaves states that differ only in that older history: with LAST = 0 the entry it adds, its noise value
among it, is the same. -/
def Obligations.OldHistoryHasNoEffect : Prop :=
  ∀ (s t : State) (hist' : List HistEntry) (last : Bool) (im re : Word),
    s.Inv → s.blk.nfWindow.toNat ≤ s.params.nfWMax →
    State.Inv { s with blk := { s.blk with hist := hist' } } → hist'.length = s.blk.hist.length →
    (hist'.map HistEntry.mag).take (max s.params.nfWMax 480) =
      (s.blk.hist.map HistEntry.mag).take (max s.params.nfWMax 480) →
    (hist'.map HistEntry.noise).take 48 = (s.blk.hist.map HistEntry.noise).take 48 →
    exec (.sample last im re) s = .next t →
    let run := exec (.sample last im re) { s with blk := { s.blk with hist := hist' } }
    (s.blk.en = false → run = .next { t with blk := { t.blk with hist := hist' } }) ∧
    (s.blk.en = true → last = true → t.blk.hist = [] ∧ run = .next t) ∧
    (s.blk.en = true → last = false →
      ∃ e, t.blk.hist = e :: s.blk.hist ∧ run = .next { t with blk := { t.blk with hist := e :: hist' } })

/-- The contract of the external CRC unit (44_frame_assembler.md R238, R241): flipping one bit of a 112-bit frame
changes its residue, so the unit can tell the two apart. The generator and the residue convention are from general
knowledge, as R238 marks them (notes/assumptions/13.md). -/
def Obligations.CrcSeesOneFlippedBit : Prop :=
  ∀ (data : BitVec 112) (k : Nat), k < 112 →
    crcResidue (frameBits (data ^^^ BitVec.twoPow 112 k) 112) ≠ crcResidue (frameBits data 112)
end

