-- ==== Sys2Proof/Laws/Binary32.lean ====
section
/-! SUPPORT. Laws of the binary32 operations: which values an operation can give, and what the bits of a value
are. -/

namespace Sys2Proof.Machine

/-- A value an operation can give: a finite one stays below 2^128. -/
def FpBounded (v : Fp) : Prop := ∀ neg x, v = .fin neg x → x < two128

/-- A value that is not NaN and has a clear sign. -/
def FpNonneg (v : Fp) : Prop := v = .inf false ∨ ∃ x, v = .fin false x

theorem two128_eq : two128 = 2 ^ 24 * 2 ^ 253 := by
  unfold two128
  rw [← pow_add, ← pow_add]

theorem two128_pos : 0 < two128 := by unfold two128; positivity

theorem bounded_nan : FpBounded .nan := fun _ _ h => by cases h
theorem bounded_inf (neg : Bool) : FpBounded (.inf neg) := fun _ _ h => by cases h
theorem bounded_fin {neg : Bool} {x : Nat} (h : x < two128) : FpBounded (.fin neg x) := fun _ _ e => by
  cases e; exact h
theorem bounded_zero (neg : Bool) : FpBounded (.fin neg 0) := bounded_fin two128_pos

theorem roundTo_cases (neg : Bool) (n k : Nat) :
    (∃ u, u < two128 ∧ roundTo neg n k = .fin neg u) ∨ roundTo neg n k = .inf neg := by
  simp only [roundTo]
  split
  · next h => exact .inl ⟨_, h, rfl⟩
  · exact .inr rfl

theorem roundTo_bounded (neg : Bool) (n k : Nat) : FpBounded (roundTo neg n k) := by
  obtain ⟨u, hu, h⟩ | h := roundTo_cases neg n k <;> rw [h]
  · exact bounded_fin hu
  · exact bounded_inf _

theorem roundTo_nonneg (n k : Nat) : FpNonneg (roundTo false n k) := by
  obtain ⟨u, _, h⟩ | h := roundTo_cases false n k <;> rw [h]
  · exact .inr ⟨u, rfl⟩
  · exact .inl rfl

theorem f32_bounded (w : Word) : FpBounded (f32 w) := by
  have hf : (w.extractLsb' 0 23).toNat < 2 ^ 23 := (w.extractLsb' 0 23).isLt
  have he : (w.extractLsb' 23 8).toNat < 2 ^ 8 := (w.extractLsb' 23 8).isLt
  simp only [f32]
  split
  · split
    · exact bounded_inf _
    · exact bounded_nan
  · split
    · apply bounded_fin
      rw [two128_eq]
      calc (w.extractLsb' 0 23).toNat < 2 ^ 23 := hf
        _ ≤ 2 ^ 24 * 2 ^ 253 := by norm_num
    · next h255 h0 =>
      apply bounded_fin
      calc (2 ^ 23 + (w.extractLsb' 0 23).toNat) * 2 ^ ((w.extractLsb' 23 8).toNat - 1)
          < 2 ^ 24 * 2 ^ ((w.extractLsb' 23 8).toNat - 1) :=
            Nat.mul_lt_mul_of_pos_right (by omega) (by positivity)
        _ ≤ 2 ^ 24 * 2 ^ 253 := Nat.mul_le_mul_left _ (Nat.pow_le_pow_right (by norm_num) (by omega))
        _ = two128 := two128_eq.symm

theorem fadd_bounded (a b : Fp) : FpBounded (fadd a b) := by
  unfold fadd
  split
  · exact bounded_nan
  · exact bounded_nan
  · split
    · exact bounded_inf _
    · exact bounded_nan
  · exact bounded_inf _
  · exact bounded_inf _
  · dsimp only
    split
    · exact bounded_zero _
    · exact roundTo_bounded _ _ _

theorem fmul_fin (a b : Bool) (x y : Nat) : fmul (.fin a x) (.fin b y) = roundTo (a != b) (x * y) 149 := by
  simp only [fmul]

theorem fmul_bounded (a b : Fp) : FpBounded (fmul a b) := by
  unfold fmul
  split
  · exact bounded_nan
  · exact bounded_nan
  · exact bounded_inf _
  · split
    · exact bounded_nan
    · exact bounded_inf _
  · split
    · exact bounded_nan
    · exact bounded_inf _
  · next a x b y => exact roundTo_bounded (a != b) (x * y) 149

theorem fsqrt_bounded (a : Fp) : FpBounded (fsqrt a) := by
  unfold fsqrt
  split
  · exact bounded_nan
  · split
    · exact bounded_nan
    · exact bounded_inf _
  · split
    · exact bounded_zero _
    · split
      · exact bounded_nan
      · exact roundTo_bounded _ _ _

theorem fadd_nonneg {a b : Fp} (ha : FpNonneg a) (hb : FpNonneg b) : FpNonneg (fadd a b) := by
  obtain rfl | ⟨x, rfl⟩ := ha <;> obtain rfl | ⟨y, rfl⟩ := hb
  · exact .inl rfl
  · exact .inl rfl
  · exact .inl rfl
  · have hz : decide ((x : Int) + (y : Int) < 0) = false := by simp; omega
    simp only [fadd, signed, Bool.false_eq_true, if_false, hz]
    split
    · exact .inr ⟨0, rfl⟩
    · exact roundTo_nonneg _ _

/-- The bits of a finite value below 2^128. -/
theorem excess_le {n m : Nat} (h : n < 2 ^ 24 * 2 ^ m) : excess n ≤ m := by
  unfold excess
  by_cases h0 : n = 0
  · subst h0; simp
  · rw [← pow_add] at h
    have := (Nat.log2_lt h0).2 h
    omega

theorem div_excess_lt (n : Nat) : n / 2 ^ excess n < 2 ^ 24 := by
  unfold excess
  rw [Nat.div_lt_iff_lt_mul (by positivity)]
  calc n < 2 ^ (n.log2 + 1) := Nat.lt_log2_self
    _ ≤ 2 ^ (24 + (n.log2 + 1 - 24)) := Nat.pow_le_pow_right (by norm_num) (by omega)
    _ = 2 ^ 24 * 2 ^ (n.log2 + 1 - 24) := by rw [pow_add]

theorem excess_le_253 {n : Nat} (h : n < two128) : excess n ≤ 253 := by
  rw [two128_eq] at h
  exact excess_le h

theorem finBits_toNat {n : Nat} (h : n < two128) :
    (finBits false n).toNat = excess n * 2 ^ 23 + n / 2 ^ excess n := by
  have he : excess n ≤ 253 := excess_le_253 h
  have hd := div_excess_lt n
  have hlt : excess n * 2 ^ 23 + n / 2 ^ excess n < 2 ^ 31 := by omega
  have h0 : (BitVec.ofBool false).toNat = 0 := rfl
  rw [finBits, BitVec.toNat_append, h0, BitVec.toNat_ofNat, Nat.zero_shiftLeft, Nat.zero_or, Nat.mod_eq_of_lt hlt]

theorem finBits_isMag {n : Nat} (h : n < two128) : IsMag (finBits false n) := by
  have he : excess n ≤ 253 := excess_le_253 h
  have hd := div_excess_lt n
  simp only [IsMag, finBits_toNat h]
  omega

theorem bitsOf_isNoise (free : BitVec 23) {v : Fp} (hb : FpBounded v) (hn : FpNonneg v) : IsNoise (bitsOf free v) := by
  obtain rfl | ⟨x, rfl⟩ := hn
  · simp [bitsOf, IsNoise]
  · exact le_of_lt (finBits_isMag (hb _ _ rfl))

theorem sanitize_isMag {v : Fp} (hb : FpBounded v) : IsMag (sanitize v) := by
  unfold sanitize
  split
  · simp [IsMag]
  · simp [IsMag, maxF]
  · simp [IsMag]
  · exact finBits_isMag (hb _ _ rfl)
  · simp [IsMag]

theorem rawMag_bounded (mode : MagMode) (im re : Word) : FpBounded (rawMag mode (f32 im) (f32 re)) := by
  cases mode
  · exact fsqrt_bounded _
  · exact fadd_bounded _ _
  · exact f32_bounded _

/-- The value of a word that is no NaN and has a clear sign bit: a magnitude is finite, and the one noise value
that is not is +infinity. -/
theorem f32_noise {w : Word} (h : IsNoise w) :
    (∃ x, f32 w = .fin false x ∧ IsMag w) ∨ (f32 w = .inf false ∧ w = 0x7F800000#32) := by
  have hs : w.getLsbD 31 = false := by
    rw [BitVec.getLsbD, Nat.testBit_eq_false_of_lt]
    simp only [IsNoise] at h
    omega
  have hf : (w.extractLsb' 0 23).toNat = w.toNat % 2 ^ 23 := by simp
  have he : (w.extractLsb' 23 8).toNat = w.toNat / 2 ^ 23 := by
    simp only [IsNoise] at h
    simp [Nat.shiftRight_eq_div_pow]
    omega
  simp only [f32, hs]
  by_cases hm : IsMag w
  · left
    have : (w.extractLsb' 23 8).toNat ≠ 255 := by
      simp only [IsMag] at hm
      omega
    rw [if_neg this]
    split
    · exact ⟨_, rfl, hm⟩
    · exact ⟨_, rfl, hm⟩
  · right
    simp only [IsMag, IsNoise] at hm h
    have hw : w.toNat = 0x7F800000 := by omega
    have hw' : w = 0x7F800000#32 := BitVec.eq_of_toNat_eq (by simpa using hw)
    subst hw'
    decide

theorem f32_mag {w : Word} (h : IsMag w) : ∃ x, f32 w = .fin false x := by
  obtain ⟨x, hx, _⟩ | ⟨_, hw⟩ := f32_noise (le_of_lt h)
  · exact ⟨x, hx⟩
  · subst hw; simp [IsMag] at h

/-- The release arm of the estimator keeps E a noise value: E is not above m there (41_noise_floor.md R145,
R146). -/
theorem releaseStep_isNoise (free : BitVec 23) {e m : Word} (s : BitVec 5) (he : IsNoise e) (hm : IsMag m)
    (hge : flt (f32 m) (f32 e) = false) : IsNoise (bitsOf free (releaseStep (f32 e) (f32 m) s)) := by
  obtain ⟨y, hy⟩ := f32_mag hm
  obtain ⟨x, hx, _⟩ | ⟨hx, _⟩ := f32_noise he
  · rw [hx, hy] at hge ⊢
    simp only [flt, fgt, rank, signed, decide_eq_false_iff_not] at hge
    have hxy : x ≤ y := by simpa using hge
    have hsub : FpNonneg (fsub (.fin false y) (.fin false x)) := by
      have hz : decide ((y : Int) + -(x : Int) < 0) = false := by simp; omega
      simp only [fsub, fneg, fadd, signed, Bool.false_eq_true, if_false, Bool.not_false, if_true, hz]
      split
      · exact .inr ⟨0, rfl⟩
      · exact roundTo_nonneg _ _
    have hmul : FpNonneg (fmul (fsub (.fin false y) (.fin false x)) (powNeg s)) := by
      obtain h | ⟨d, h⟩ := hsub <;> rw [h, powNeg]
      · have h2 : (2 : Nat) ^ (149 - s.toNat) ≠ 0 := by positivity
        simp only [fmul, if_neg h2]
        exact .inl rfl
      · rw [fmul_fin]
        exact roundTo_nonneg _ _
    exact bitsOf_isNoise _ (fadd_bounded _ _) (fadd_nonneg (.inr ⟨_, rfl⟩) hmul)
  · rw [hx, hy] at hge
    simp only [flt, fgt, rank, signed, decide_eq_false_iff_not] at hge
    exfalso
    have hb : y < two128 := f32_bounded m _ _ hy
    apply hge
    simp
    exact_mod_cast hb

end Sys2Proof.Machine
end

