-- ==== Sys2Proof/Laws/Codec.lean ====
section
/-! SUPPORT. Laws of the register map and of the descriptors' fields. -/

namespace Sys2Proof

/-- Each register is found at its own address (10_state.md R22). -/
theorem regAt_regAddr (r : Reg) : regAt (regAddr r) = some r := by cases r <;> decide

/-- The register found at an address has that address. -/
theorem regAddr_of_regAt {a : Addr} {r : Reg} (h : regAt a = some r) : regAddr r = a := by
  simpa using List.find?_some h

/-- Every register of the map is aligned (20_memory.md R63). -/
theorem regAddr_aligned (r : Reg) : (regAddr r).extractLsb' 0 2 = 0#2 := by cases r <;> decide

/-- An address names no register exactly when it is no register's address. -/
theorem regAt_none {a : Addr} : regAt a = none ↔ ∀ r, regAddr r ≠ a := by
  constructor
  · intro h r hr
    rw [← hr, regAt_regAddr] at h
    cases h
  · intro h
    cases hr : regAt a with
    | none => rfl
    | some r => exact absurd (regAddr_of_regAt hr) (h r)

theorem formOf_rdOf (r : Reg) : formOf (rdOf r) = .rd (regAddr r) := by cases r <;> rfl

theorem formOf_wrOf (r : Reg) (v : Word) : formOf (wrOf r v) = .wr (regAddr r) v := by cases r <;> rfl

theorem wellFormed_rdOf (r : Reg) : WellFormed (rdOf r) = true := by cases r <;> rfl

theorem wellFormed_wrOf (r : Reg) (v : Word) : WellFormed (wrOf r v) = true := by cases r <;> rfl

/-- The form of what an RD's address decodes to. -/
theorem formOf_decodeRd (a : Addr) : formOf (decodeRd a) = .rd a := by
  unfold decodeRd
  split
  · next r h => rw [formOf_rdOf, regAddr_of_regAt h]
  · rfl

theorem formOf_decodeWr (a : Addr) (v : Word) : formOf (decodeWr a v) = .wr a v := by
  unfold decodeWr
  split
  · next r h => rw [formOf_wrOf, regAddr_of_regAt h]
  · rfl

theorem wellFormed_decodeRd (a : Addr) : WellFormed (decodeRd a) = true := by
  unfold decodeRd
  split
  · exact wellFormed_rdOf _
  · next h => simp [WellFormed, h]

theorem wellFormed_decodeWr (a : Addr) (v : Word) : WellFormed (decodeWr a v) = true := by
  unfold decodeWr
  split
  · exact wellFormed_wrOf _ _
  · next h => simp [WellFormed, h]

/-! ### Descriptors of RD and WR: four bits in front of the address -/

/-- KIND lies in the four bits in front of the address (30_encoding.md R81, R82). -/
theorem kindOf_append (c : BitVec 4) (a : Addr) : kindOf (c ++ a) = kindOf (c ++ 0#12) := by
  simp only [kindOf]
  rw [BitVec.extractLsb'_append_eq_of_le (by omega), BitVec.extractLsb'_append_eq_of_le (by omega)]

theorem addrOf_append (c : BitVec 4) (a : Addr) : addrOf (c ++ a) = a := by
  simp only [addrOf]
  rw [BitVec.extractLsb'_append_eq_of_add_le (by omega)]
  simp

theorem reservedClear_append (k : Kind) (hk : k = .rd ∨ k = .wr) (c : BitVec 4) (a : Addr) :
    reservedClear k (c ++ a) = !c.getLsbD 0 := by
  have h : (c ++ a).extractLsb' 12 1 = c.extractLsb' 0 1 := by
    rw [BitVec.extractLsb'_append_eq_of_le (by omega)]
  obtain rfl | rfl := hk <;> simp only [reservedClear, h] <;> clear h <;> revert c <;> decide

end Sys2Proof
end

