-- ==== Sys2Proof/Laws/History.lean ====
section
/-! SUPPORT. Laws of sample numbers and of the segment history: when a read of the history has a value. -/

namespace Sys2Proof.Machine

/-! ### Optional values -/

theorem allOpt_some {α : Type} {f : α → Option Bool} {xs : List α} (h : ∀ x ∈ xs, ∃ v, f x = some v) :
    ∃ v, allOpt f xs = some v := by
  induction xs with
  | nil => exact ⟨true, rfl⟩
  | cons x xs ih =>
    obtain ⟨v, hv⟩ := h x List.mem_cons_self
    obtain ⟨w, hw⟩ := ih fun y hy => h y (List.mem_cons_of_mem _ hy)
    exact ⟨v && w, by simp [allOpt, hv, hw]⟩

/-- A conjunction that has the value true: every entry's test has the value true. -/
theorem allOpt_true {α : Type} {f : α → Option Bool} {xs : List α} :
    allOpt f xs = some true ↔ ∀ x ∈ xs, f x = some true := by
  induction xs with
  | nil => simp [allOpt]
  | cons x xs ih =>
    cases hx : f x with
    | none => simp [allOpt, hx]
    | some v =>
      cases hr : allOpt f xs with
      | none =>
        have : ¬∀ y ∈ xs, f y = some true := fun h => by rw [ih.2 h] at hr; cases hr
        simp [allOpt, hx, hr]
        intro _
        simpa using this
      | some w =>
        rw [hr] at ih
        simp only [allOpt, hx, hr, Option.bind_eq_bind, Option.bind_some, List.mem_cons, forall_eq_or_imp]
        rw [← ih]
        simp

theorem mapOpt_some {α β : Type} {f : α → Option β} {xs : List α} (h : ∀ x ∈ xs, ∃ v, f x = some v) :
    ∃ ys, mapOpt f xs = some ys := by
  induction xs with
  | nil => exact ⟨[], rfl⟩
  | cons x xs ih =>
    obtain ⟨v, hv⟩ := h x List.mem_cons_self
    obtain ⟨w, hw⟩ := ih fun y hy => h y (List.mem_cons_of_mem _ hy)
    exact ⟨v :: w, by simp [mapOpt, hv, hw]⟩

/-- What a mapped list holds: as many entries, each the value at its place. -/
theorem mapOpt_spec {α β : Type} {f : α → Option β} {xs : List α} {ys : List β} (h : mapOpt f xs = some ys) :
    ys.length = xs.length ∧ ∀ (k : Nat) (x : α), xs[k]? = some x → f x = ys[k]? := by
  induction xs generalizing ys with
  | nil => cases h; simp
  | cons x xs ih =>
    simp only [mapOpt, Option.bind_eq_bind, Option.bind_eq_some_iff] at h
    obtain ⟨v, hv, w, hw, h⟩ := h
    cases h
    obtain ⟨hl, hk⟩ := ih hw
    refine ⟨by simp [hl], fun k y hy => ?_⟩
    cases k with
    | zero => simp at hy; subst hy; simpa using hv
    | succ k => simpa using hk k y (by simpa using hy)

/-! ### Sample numbers -/

theorem since_self (g : SampleNo) : since g g = 0 := by simp [since]

/-- A sample `k` after another is `k` fewer samples old. -/
theorem ageOf_add {b : Block} {g : SampleNo} {k : Nat} (h : k ≤ ageOf b g) :
    ageOf b (g + BitVec.ofNat 64 k) = ageOf b g - k := by
  have hlt : ageOf b g < 2 ^ 64 := (b.sidx - 1#64 - g).isLt
  have hk : (BitVec.ofNat 64 k).toNat = k := by simp; omega
  simp only [ageOf, since] at *
  generalize b.sidx - 1#64 = a at *
  have : a - (g + BitVec.ofNat 64 k) = a - g - BitVec.ofNat 64 k := by bv_omega
  rw [this, BitVec.toNat_sub_of_le, hk]
  exact BitVec.le_def.2 (by omega)

/-- A sample `k` before another is `k` more samples old. -/
theorem ageOf_sub {b : Block} {g : SampleNo} {k : Nat} (h : ageOf b g + k < 2 ^ 64) :
    ageOf b (g - BitVec.ofNat 64 k) = ageOf b g + k := by
  have hk : (BitVec.ofNat 64 k).toNat = k := by simp; omega
  simp only [ageOf, since] at *
  generalize b.sidx - 1#64 = a at *
  have : a - (g - BitVec.ofNat 64 k) = a - g + BitVec.ofNat 64 k := by bv_omega
  rw [this, BitVec.toNat_add, hk, Nat.mod_eq_of_lt h]

/-! ### Reads of the history -/

theorem magAt_some {b : Block} {g : SampleNo} (h : ageOf b g < b.hist.length) : ∃ v, magAt b g = some v := by
  simp [magAt, entryAt, h]

theorem noiseAt_some {b : Block} {g : SampleNo} (h : ageOf b g < b.hist.length) : ∃ v, noiseAt b g = some v := by
  simp [noiseAt, entryAt, h]

theorem magAt_add_some {b : Block} {g : SampleNo} {k : Nat} (hk : k ≤ ageOf b g) (h : ageOf b g < b.hist.length) :
    ∃ v, magAt b (g + BitVec.ofNat 64 k) = some v :=
  magAt_some (by rw [ageOf_add hk]; omega)

theorem foldSum_some {b : Block} {g : SampleNo} {ps : List Nat} (hne : ps ≠ []) (hp : ∀ p ∈ ps, p ≤ ageOf b g)
    (h : ageOf b g < b.hist.length) : ∃ v, foldSum b g ps = some v := by
  cases ps with
  | nil => exact absurd rfl hne
  | cons p ps =>
    obtain ⟨v, hv⟩ := magAt_add_some (hp p List.mem_cons_self) h
    obtain ⟨vs, hvs⟩ := mapOpt_some (f := fun q => magAt b (g + BitVec.ofNat 64 q)) (xs := ps)
      fun q hq => magAt_add_some (hp q (List.mem_cons_of_mem _ hq)) h
    simp [foldSum, hv, hvs]

theorem pulseSum_some {b : Block} {i : SampleNo} (h1 : 31 ≤ ageOf b i) (h2 : ageOf b i < b.hist.length) :
    ∃ v, pulseSum b i = some v :=
  foldSum_some (by decide) (fun p hp => le_trans ((by decide : ∀ p ∈ pHi, p ≤ 31) p hp) h1) h2

theorem lowSum_some {b : Block} {i : SampleNo} (h1 : 31 ≤ ageOf b i) (h2 : ageOf b i < b.hist.length) :
    ∃ v, lowSum b i = some v :=
  foldSum_some (by decide) (fun p hp => le_trans ((by decide : ∀ p ∈ pLo, p ≤ 31) p hp) h1) h2

/-- C(i) is defined exactly when the whole template lies in the history (42_correlator.md R163). -/
theorem score_some_iff {b : Block} {i : SampleNo} :
    (∃ c, score b i = some c) ↔ 31 ≤ ageOf b i ∧ ageOf b i < b.hist.length := by
  constructor
  · rintro ⟨c, hc⟩
    simp only [score] at hc
    split at hc
    · next h => simpa [templateHeld] using h
    · cases hc
  · rintro ⟨h1, h2⟩
    obtain ⟨x, hx⟩ := pulseSum_some h1 h2
    obtain ⟨y, hy⟩ := lowSum_some h1 h2
    have ht : templateHeld b i = true := by simp [templateHeld, h1, h2]
    exact ⟨fsub x y, by simp [score, ht, hx, hy]⟩

theorem qualify_some {b : Block} {i : SampleNo} (h1 : 31 ≤ ageOf b i) (h2 : ageOf b i < b.hist.length) :
    ∃ q, qualify b i = some q := by
  obtain ⟨c, hc⟩ := score_some_iff.2 ⟨h1, h2⟩
  obtain ⟨n, hn⟩ := noiseAt_some h2
  exact ⟨exceedsBounds b c n, by simp [qualify, hc, hn]⟩

/-- LM(i) has a value once the whole window's templates lie in the history. -/
theorem localMax_some {b : Block} {i : SampleNo} (h1 : 47 ≤ ageOf b i) (hlt : ageOf b i + 16 < 2 ^ 64)
    (h2 : ageOf b i + reachBack b i < b.hist.length) : ∃ v, localMax b i = some v := by
  have hr : reachBack b i ≤ 16 := Nat.min_le_left _ _
  obtain ⟨c, hc⟩ := score_some_iff (b := b) (i := i).2 ⟨by omega, by omega⟩
  obtain ⟨e, he⟩ := allOpt_some (f := fun k => (score b (i - BitVec.ofNat 64 k)).map (fgt c))
    (xs := List.range' 1 (reachBack b i)) fun k hk => by
      obtain ⟨d, hd⟩ := score_some_iff (b := b) (i := i - BitVec.ofNat 64 k).2 (by
        rw [List.mem_range'_1] at hk
        rw [ageOf_sub (by omega)]
        omega)
      exact ⟨fgt c d, by simp [hd]⟩
  obtain ⟨l, hl⟩ := allOpt_some (f := fun k => (score b (i + BitVec.ofNat 64 k)).map (fge c))
    (xs := List.range' 1 lmRadius) fun k hk => by
      obtain ⟨d, hd⟩ := score_some_iff (b := b) (i := i + BitVec.ofNat 64 k).2 (by
        rw [List.mem_range'_1, lmRadius] at hk
        rw [ageOf_add (by omega)]
        omega)
      exact ⟨fge c d, by simp [hd]⟩
  exact ⟨e && l, by simp [localMax, hc, he, hl]⟩

/-- A half-energy pair has a value once the four samples of its bit period are in the history. -/
theorem halves_some {b : Block} {h : SampleNo} {k : Nat} (h1 : 35 + 4 * k ≤ ageOf b h)
    (h2 : ageOf b h < b.hist.length) : ∃ ab, halves b h k = some ab := by
  have hadd : ∀ n : Nat, h + BitVec.ofNat 64 (32 + 4 * k) + BitVec.ofNat 64 n =
      h + BitVec.ofNat 64 (32 + 4 * k + n) := fun n => by
    rw [BitVec.add_assoc, ← BitVec.ofNat_add]
  obtain ⟨v0, e0⟩ := magAt_add_some (b := b) (g := h) (k := 32 + 4 * k) (by omega) h2
  obtain ⟨v1, e1⟩ := magAt_add_some (b := b) (g := h) (k := 32 + 4 * k + 1) (by omega) h2
  obtain ⟨v2, e2⟩ := magAt_add_some (b := b) (g := h) (k := 32 + 4 * k + 2) (by omega) h2
  obtain ⟨v3, e3⟩ := magAt_add_some (b := b) (g := h) (k := 32 + 4 * k + 3) (by omega) h2
  rw [← hadd] at e1 e2 e3
  exact ⟨(fadd v0 v1, fadd v2 v3), by simp [halves, e0, e1, e2, e3]⟩

/-- The DF is known once the first five bit periods are in the history (43_demodulator.md R204). -/
theorem downlinkFormat_some {b : Block} {h : SampleNo} (h1 : 51 ≤ ageOf b h) (h2 : ageOf b h < b.hist.length) :
    ∃ df, downlinkFormat b h = some df := by
  obtain ⟨ab, hab⟩ := mapOpt_some (f := halves b h) (xs := List.range 5) fun k hk => by
    rw [List.mem_range] at hk
    exact halves_some (by omega) h2
  exact ⟨BitVec.ofNat 5 (bitsToNat (ab.map bitValue)), by simp [downlinkFormat, hab]⟩

end Sys2Proof.Machine
end

