-- ==== Sys2Proof/Laws/Pack.lean ====
section
/-! SUPPORT. Laws of packing bits into bytes (44_frame_assembler.md R231). -/

namespace Sys2Proof.Machine

theorem bitsToNat_snoc (x : List Bool) (v : Bool) : bitsToNat (x ++ [v]) = 2 * bitsToNat x + v.toNat := by
  simp [bitsToNat]

/-- Bit `j` of a packed number is the bit `j` places before the last. -/
theorem testBit_bitsToNat (x : List Bool) (j : Nat) :
    (bitsToNat x).testBit j = if j < x.length then (x[x.length - 1 - j]?).getD false else false := by
  induction x using List.reverseRecOn generalizing j with
  | nil => simp [bitsToNat]
  | append_singleton x v ih =>
    rw [bitsToNat_snoc]
    cases j with
    | zero => cases v <;> simp [Nat.testBit_zero]
    | succ j =>
      have h2 : (2 * bitsToNat x + v.toNat) / 2 = bitsToNat x := by cases v <;> (simp; try omega)
      rw [Nat.testBit_succ, h2, ih]
      simp only [List.length_append, List.length_singleton]
      by_cases hj : j < x.length
      · rw [if_pos hj, if_pos (by omega), List.getElem?_append_left (by omega)]
        congr 2
        omega
      · rw [if_neg hj, if_neg (by omega)]

theorem bitsToNat_lt (x : List Bool) : bitsToNat x < 2 ^ x.length := by
  induction x using List.reverseRecOn with
  | nil => simp [bitsToNat]
  | append_singleton x v ih =>
    rw [bitsToNat_snoc]
    simp only [List.length_append, List.length_singleton, pow_succ]
    cases v <;> simp <;> omega

/-- Bit `k` of the packed bytes, the first bit most significant, is bit `k` of the list, and 0 past its end. -/
theorem getMsbD_pack {x : List Bool} (h : x.length ≤ 112) (k : Nat) :
    (pack x).getMsbD k = (x[k]?).getD false := by
  by_cases hk : k < 112
  · rw [BitVec.getMsbD, pack]
    simp only [hk, decide_true, Bool.true_and, BitVec.getLsbD_ofNat]
    rw [Nat.testBit_mul_two_pow, testBit_bitsToNat]
    have h1 : decide (112 - 1 - k < 112) = true := by simp; omega
    rw [h1, Bool.true_and]
    by_cases hx : k < x.length
    · have h2 : decide (112 - x.length ≤ 112 - 1 - k) = true := by simp; omega
      rw [h2, Bool.true_and, if_pos (by omega)]
      congr 2
      omega
    · have h2 : decide (112 - x.length ≤ 112 - 1 - k) = false := by simp; omega
      rw [h2, Bool.false_and]
      simp [Nat.le_of_not_lt hx]
  · have : x[k]? = none := by simp; omega
    rw [this, BitVec.getMsbD]
    simp [hk]

theorem frameLen_cases (df : BitVec 5) : frameLen df = 112 ∨ frameLen df = 56 := by
  unfold frameLen
  split <;> simp

/-- A packed list is zero when no bit of it is set. -/
theorem pack_ne_zero {x : List Bool} (h : x.length ≤ 112) : (x.any id) = (pack x != 0#112) := by
  rw [Bool.eq_iff_iff, bne_iff_ne, ne_eq, List.any_eq_true]
  constructor
  · rintro ⟨v, hv, ht⟩ h0
    obtain ⟨k, hk, hkv⟩ := List.mem_iff_getElem.1 hv
    have := getMsbD_pack h k
    rw [h0, List.getElem?_eq_getElem hk, hkv] at this
    simp_all
  · intro hne
    by_contra hall
    apply hne
    apply BitVec.eq_of_getMsbD_eq
    intro k hk
    rw [getMsbD_pack h]
    cases hx : x[k]? with
    | none => simp
    | some v =>
      cases v with
      | false => simp
      | true => exact absurd ⟨true, List.mem_of_getElem? hx, rfl⟩ hall

/-- The record AssembleFrame makes of a full set of bits is in order. -/
theorem frameOf_ok {seq : BitVec 8} {d : Demod} {df : BitVec 5} {bits soft : List Bool}
    (hb : bits.length = frameLen df) (hs : soft.length = frameLen df)
    (hdf : df = BitVec.ofNat 5 (bitsToNat (bits.take 5))) : Frame.Ok (frameOf seq d df bits soft) := by
  have hle : frameLen df ≤ 112 ∧ 56 ≤ frameLen df := by obtain h | h := frameLen_cases df <;> omega
  have hlen : (BitVec.ofNat 8 bits.length).toNat = frameLen df := by
    rw [hb, BitVec.toNat_ofNat]; exact Nat.mod_eq_of_lt (by omega)
  have h112 : bits.length ≤ 112 := by omega
  have h112' : soft.length ≤ 112 := by omega
  refine ⟨by simp [frameOf, hb], ?_, rfl, fun k hk => ?_, fun k hk => ?_, pack_ne_zero h112'⟩
  · show df = (pack bits).extractLsb' 107 5
    conv_lhs => rw [hdf]
    apply BitVec.eq_of_getLsbD_eq
    intro j hj
    have hm := getMsbD_pack h112 (4 - j)
    rw [BitVec.getMsbD] at hm
    have h1 : decide (4 - j < 112) = true := by simp; omega
    have h2 : 112 - 1 - (4 - j) = 107 + j := by omega
    rw [h1, Bool.true_and, h2] at hm
    rw [BitVec.getLsbD_extractLsb', hm, BitVec.getLsbD_ofNat, testBit_bitsToNat]
    have h3 : (bits.take 5).length = 5 := by simp; omega
    rw [h3, if_pos hj]
    have h4 : 5 - 1 - j < 5 := by omega
    rw [List.getElem?_take_of_lt h4]
  · show (pack bits).getMsbD k = false
    simp only [frameOf, hlen] at hk
    rw [getMsbD_pack h112, List.getElem?_eq_none (by omega)]
    rfl
  · show (pack soft).getMsbD k = false
    simp only [frameOf, hlen] at hk
    rw [getMsbD_pack h112', List.getElem?_eq_none (by omega)]
    rfl

end Sys2Proof.Machine
end

