-- ==== Sys2Proof/Laws/State.lean ====
section
/-! SUPPORT. The fields of the state after each named operation, true by rfl: later proofs never unfold a record
update. -/

namespace Sys2Proof.Machine

/-! ### withBlk -/

@[simp] theorem withBlk_params (s : State) (b : Block) : (withBlk s b).params = s.params := rfl
@[simp] theorem withBlk_blk (s : State) (b : Block) : (withBlk s b).blk = b := rfl
@[simp] theorem withBlk_io (s : State) (b : Block) : (withBlk s b).io = s.io := rfl

/-! ### answerRd -/

@[simp] theorem answerRd_params (s : State) (w : Word) : (answerRd s w).params = s.params := rfl
@[simp] theorem answerRd_blk (s : State) (w : Word) : (answerRd s w).blk = s.blk := rfl
@[simp] theorem answerRd_sPort (s : State) (w : Word) : (answerRd s w).io.sPort = s.io.sPort := rfl
@[simp] theorem answerRd_rPort (s : State) (w : Word) : (answerRd s w).io.rPort = s.io.rPort := rfl
@[simp] theorem answerRd_fPort (s : State) (w : Word) : (answerRd s w).io.fPort = s.io.fPort := rfl
@[simp] theorem answerRd_turns (s : State) (w : Word) : (answerRd s w).io.turns = s.io.turns := rfl
@[simp] theorem answerRd_fHeld (s : State) (w : Word) : (answerRd s w).io.fHeld = s.io.fHeld := rfl
@[simp] theorem answerRd_rResponses (s : State) (w : Word) : (answerRd s w).io.rResponses = w :: s.io.rResponses := rfl
@[simp] theorem answerRd_fResponses (s : State) (w : Word) : (answerRd s w).io.fResponses = s.io.fResponses := rfl

/-! ### answerFtake -/

@[simp] theorem answerFtake_params (s : State) (r : Frame) : (answerFtake s r).params = s.params := rfl
@[simp] theorem answerFtake_blk (s : State) (r : Frame) : (answerFtake s r).blk = s.blk := rfl
@[simp] theorem answerFtake_sPort (s : State) (r : Frame) : (answerFtake s r).io.sPort = s.io.sPort := rfl
@[simp] theorem answerFtake_rPort (s : State) (r : Frame) : (answerFtake s r).io.rPort = s.io.rPort := rfl
@[simp] theorem answerFtake_fPort (s : State) (r : Frame) : (answerFtake s r).io.fPort = s.io.fPort := rfl
@[simp] theorem answerFtake_turns (s : State) (r : Frame) : (answerFtake s r).io.turns = s.io.turns := rfl
@[simp] theorem answerFtake_fHeld (s : State) (r : Frame) : (answerFtake s r).io.fHeld = false := rfl
@[simp] theorem answerFtake_rResponses (s : State) (r : Frame) : (answerFtake s r).io.rResponses = s.io.rResponses := rfl
@[simp] theorem answerFtake_fResponses (s : State) (r : Frame) : (answerFtake s r).io.fResponses = r :: s.io.fResponses := rfl

/-! ### holdFtake -/

@[simp] theorem holdFtake_params (s : State) : (holdFtake s).params = s.params := rfl
@[simp] theorem holdFtake_blk (s : State) : (holdFtake s).blk = s.blk := rfl
@[simp] theorem holdFtake_sPort (s : State) : (holdFtake s).io.sPort = s.io.sPort := rfl
@[simp] theorem holdFtake_rPort (s : State) : (holdFtake s).io.rPort = s.io.rPort := rfl
@[simp] theorem holdFtake_fPort (s : State) : (holdFtake s).io.fPort = s.io.fPort := rfl
@[simp] theorem holdFtake_turns (s : State) : (holdFtake s).io.turns = s.io.turns := rfl
@[simp] theorem holdFtake_fHeld (s : State) : (holdFtake s).io.fHeld = true := rfl
@[simp] theorem holdFtake_rResponses (s : State) : (holdFtake s).io.rResponses = s.io.rResponses := rfl
@[simp] theorem holdFtake_fResponses (s : State) : (holdFtake s).io.fResponses = s.io.fResponses := rfl

/-! ### flush -/

@[simp] theorem flush_en (b : Block) : (flush b).en = b.en := rfl
@[simp] theorem flush_ie (b : Block) : (flush b).ie = b.ie := rfl
@[simp] theorem flush_magMode (b : Block) : (flush b).magMode = b.magMode := rfl
@[simp] theorem flush_nfMode (b : Block) : (flush b).nfMode = b.nfMode := rfl
@[simp] theorem flush_tAbs (b : Block) : (flush b).tAbs = b.tAbs := rfl
@[simp] theorem flush_kRel (b : Block) : (flush b).kRel = b.kRel := rfl
@[simp] theorem flush_eps (b : Block) : (flush b).eps = b.eps := rfl
@[simp] theorem flush_nfWindow (b : Block) : (flush b).nfWindow = b.nfWindow := rfl
@[simp] theorem flush_nfShift (b : Block) : (flush b).nfShift = b.nfShift := rfl
@[simp] theorem flush_holdoff (b : Block) : (flush b).holdoff = b.holdoff := rfl
@[simp] theorem flush_sidx (b : Block) : (flush b).sidx = b.sidx := rfl
@[simp] theorem flush_cntHit (b : Block) : (flush b).cntHit = b.cntHit := rfl
@[simp] theorem flush_cntSupp (b : Block) : (flush b).cntSupp = b.cntSupp := rfl
@[simp] theorem flush_cntFrame (b : Block) : (flush b).cntFrame = b.cntFrame := rfl
@[simp] theorem flush_cntDiscard (b : Block) :
    (flush b).cntDiscard = if b.demod.isSome then b.cntDiscard + 1#32 else b.cntDiscard := rfl
@[simp] theorem flush_cntFqdrop (b : Block) : (flush b).cntFqdrop = b.cntFqdrop := rfl
@[simp] theorem flush_cntBadmag (b : Block) : (flush b).cntBadmag = b.cntBadmag := rfl
@[simp] theorem flush_cntBuserr (b : Block) : (flush b).cntBuserr = b.cntBuserr := rfl
@[simp] theorem flush_segStart (b : Block) : (flush b).segStart = b.sidx := rfl
@[simp] theorem flush_hist (b : Block) : (flush b).hist = [] := rfl
@[simp] theorem flush_env (b : Block) : (flush b).env = none := rfl
@[simp] theorem flush_armed (b : Block) : (flush b).armed = true := rfl
@[simp] theorem flush_lastHit (b : Block) : (flush b).lastHit = none := rfl
@[simp] theorem flush_demod (b : Block) : (flush b).demod = none := rfl
@[simp] theorem flush_fq (b : Block) : (flush b).fq = b.fq := rfl
@[simp] theorem flush_seqCtr (b : Block) : (flush b).seqCtr = b.seqCtr := rfl

/-! ### busError -/

@[simp] theorem busError_en (b : Block) : (busError b).en = b.en := rfl
@[simp] theorem busError_ie (b : Block) : (busError b).ie = b.ie := rfl
@[simp] theorem busError_magMode (b : Block) : (busError b).magMode = b.magMode := rfl
@[simp] theorem busError_nfMode (b : Block) : (busError b).nfMode = b.nfMode := rfl
@[simp] theorem busError_tAbs (b : Block) : (busError b).tAbs = b.tAbs := rfl
@[simp] theorem busError_kRel (b : Block) : (busError b).kRel = b.kRel := rfl
@[simp] theorem busError_eps (b : Block) : (busError b).eps = b.eps := rfl
@[simp] theorem busError_nfWindow (b : Block) : (busError b).nfWindow = b.nfWindow := rfl
@[simp] theorem busError_nfShift (b : Block) : (busError b).nfShift = b.nfShift := rfl
@[simp] theorem busError_holdoff (b : Block) : (busError b).holdoff = b.holdoff := rfl
@[simp] theorem busError_sidx (b : Block) : (busError b).sidx = b.sidx := rfl
@[simp] theorem busError_cntHit (b : Block) : (busError b).cntHit = b.cntHit := rfl
@[simp] theorem busError_cntSupp (b : Block) : (busError b).cntSupp = b.cntSupp := rfl
@[simp] theorem busError_cntFrame (b : Block) : (busError b).cntFrame = b.cntFrame := rfl
@[simp] theorem busError_cntDiscard (b : Block) : (busError b).cntDiscard = b.cntDiscard := rfl
@[simp] theorem busError_cntFqdrop (b : Block) : (busError b).cntFqdrop = b.cntFqdrop := rfl
@[simp] theorem busError_cntBadmag (b : Block) : (busError b).cntBadmag = b.cntBadmag := rfl
@[simp] theorem busError_cntBuserr (b : Block) : (busError b).cntBuserr = b.cntBuserr + 1#32 := rfl
@[simp] theorem busError_segStart (b : Block) : (busError b).segStart = b.segStart := rfl
@[simp] theorem busError_hist (b : Block) : (busError b).hist = b.hist := rfl
@[simp] theorem busError_env (b : Block) : (busError b).env = b.env := rfl
@[simp] theorem busError_armed (b : Block) : (busError b).armed = b.armed := rfl
@[simp] theorem busError_lastHit (b : Block) : (busError b).lastHit = b.lastHit := rfl
@[simp] theorem busError_demod (b : Block) : (busError b).demod = b.demod := rfl
@[simp] theorem busError_fq (b : Block) : (busError b).fq = b.fq := rfl
@[simp] theorem busError_seqCtr (b : Block) : (busError b).seqCtr = b.seqCtr := rfl

/-! ### enqueue -/

@[simp] theorem enqueue_en (p : Params) (r : Frame) (b : Block) : (enqueue p r b).en = b.en := rfl
@[simp] theorem enqueue_ie (p : Params) (r : Frame) (b : Block) : (enqueue p r b).ie = b.ie := rfl
@[simp] theorem enqueue_magMode (p : Params) (r : Frame) (b : Block) : (enqueue p r b).magMode = b.magMode := rfl
@[simp] theorem enqueue_nfMode (p : Params) (r : Frame) (b : Block) : (enqueue p r b).nfMode = b.nfMode := rfl
@[simp] theorem enqueue_tAbs (p : Params) (r : Frame) (b : Block) : (enqueue p r b).tAbs = b.tAbs := rfl
@[simp] theorem enqueue_kRel (p : Params) (r : Frame) (b : Block) : (enqueue p r b).kRel = b.kRel := rfl
@[simp] theorem enqueue_eps (p : Params) (r : Frame) (b : Block) : (enqueue p r b).eps = b.eps := rfl
@[simp] theorem enqueue_nfWindow (p : Params) (r : Frame) (b : Block) : (enqueue p r b).nfWindow = b.nfWindow := rfl
@[simp] theorem enqueue_nfShift (p : Params) (r : Frame) (b : Block) : (enqueue p r b).nfShift = b.nfShift := rfl
@[simp] theorem enqueue_holdoff (p : Params) (r : Frame) (b : Block) : (enqueue p r b).holdoff = b.holdoff := rfl
@[simp] theorem enqueue_sidx (p : Params) (r : Frame) (b : Block) : (enqueue p r b).sidx = b.sidx := rfl
@[simp] theorem enqueue_cntHit (p : Params) (r : Frame) (b : Block) : (enqueue p r b).cntHit = b.cntHit := rfl
@[simp] theorem enqueue_cntSupp (p : Params) (r : Frame) (b : Block) : (enqueue p r b).cntSupp = b.cntSupp := rfl
@[simp] theorem enqueue_cntFrame (p : Params) (r : Frame) (b : Block) : (enqueue p r b).cntFrame = b.cntFrame + 1#32 := rfl
@[simp] theorem enqueue_cntDiscard (p : Params) (r : Frame) (b : Block) : (enqueue p r b).cntDiscard = b.cntDiscard := rfl
@[simp] theorem enqueue_cntFqdrop (p : Params) (r : Frame) (b : Block) :
    (enqueue p r b).cntFqdrop = if decide (p.fqDepth ≤ b.fq.length) then b.cntFqdrop + 1#32 else b.cntFqdrop := rfl
@[simp] theorem enqueue_cntBadmag (p : Params) (r : Frame) (b : Block) : (enqueue p r b).cntBadmag = b.cntBadmag := rfl
@[simp] theorem enqueue_cntBuserr (p : Params) (r : Frame) (b : Block) : (enqueue p r b).cntBuserr = b.cntBuserr := rfl
@[simp] theorem enqueue_segStart (p : Params) (r : Frame) (b : Block) : (enqueue p r b).segStart = b.segStart := rfl
@[simp] theorem enqueue_hist (p : Params) (r : Frame) (b : Block) : (enqueue p r b).hist = b.hist := rfl
@[simp] theorem enqueue_env (p : Params) (r : Frame) (b : Block) : (enqueue p r b).env = b.env := rfl
@[simp] theorem enqueue_armed (p : Params) (r : Frame) (b : Block) : (enqueue p r b).armed = b.armed := rfl
@[simp] theorem enqueue_lastHit (p : Params) (r : Frame) (b : Block) : (enqueue p r b).lastHit = b.lastHit := rfl
@[simp] theorem enqueue_demod (p : Params) (r : Frame) (b : Block) : (enqueue p r b).demod = b.demod := rfl
@[simp] theorem enqueue_fq (p : Params) (r : Frame) (b : Block) :
    (enqueue p r b).fq = (if decide (p.fqDepth ≤ b.fq.length) then b.fq.tail else b.fq) ++ [{ r with seq := b.seqCtr }] := rfl
@[simp] theorem enqueue_seqCtr (p : Params) (r : Frame) (b : Block) : (enqueue p r b).seqCtr = b.seqCtr + 1#8 := rfl

/-! ### popFrame -/

@[simp] theorem popFrame_en (b : Block) : (popFrame b).en = b.en := rfl
@[simp] theorem popFrame_ie (b : Block) : (popFrame b).ie = b.ie := rfl
@[simp] theorem popFrame_magMode (b : Block) : (popFrame b).magMode = b.magMode := rfl
@[simp] theorem popFrame_nfMode (b : Block) : (popFrame b).nfMode = b.nfMode := rfl
@[simp] theorem popFrame_tAbs (b : Block) : (popFrame b).tAbs = b.tAbs := rfl
@[simp] theorem popFrame_kRel (b : Block) : (popFrame b).kRel = b.kRel := rfl
@[simp] theorem popFrame_eps (b : Block) : (popFrame b).eps = b.eps := rfl
@[simp] theorem popFrame_nfWindow (b : Block) : (popFrame b).nfWindow = b.nfWindow := rfl
@[simp] theorem popFrame_nfShift (b : Block) : (popFrame b).nfShift = b.nfShift := rfl
@[simp] theorem popFrame_holdoff (b : Block) : (popFrame b).holdoff = b.holdoff := rfl
@[simp] theorem popFrame_sidx (b : Block) : (popFrame b).sidx = b.sidx := rfl
@[simp] theorem popFrame_cntHit (b : Block) : (popFrame b).cntHit = b.cntHit := rfl
@[simp] theorem popFrame_cntSupp (b : Block) : (popFrame b).cntSupp = b.cntSupp := rfl
@[simp] theorem popFrame_cntFrame (b : Block) : (popFrame b).cntFrame = b.cntFrame := rfl
@[simp] theorem popFrame_cntDiscard (b : Block) : (popFrame b).cntDiscard = b.cntDiscard := rfl
@[simp] theorem popFrame_cntFqdrop (b : Block) : (popFrame b).cntFqdrop = b.cntFqdrop := rfl
@[simp] theorem popFrame_cntBadmag (b : Block) : (popFrame b).cntBadmag = b.cntBadmag := rfl
@[simp] theorem popFrame_cntBuserr (b : Block) : (popFrame b).cntBuserr = b.cntBuserr := rfl
@[simp] theorem popFrame_segStart (b : Block) : (popFrame b).segStart = b.segStart := rfl
@[simp] theorem popFrame_hist (b : Block) : (popFrame b).hist = b.hist := rfl
@[simp] theorem popFrame_env (b : Block) : (popFrame b).env = b.env := rfl
@[simp] theorem popFrame_armed (b : Block) : (popFrame b).armed = b.armed := rfl
@[simp] theorem popFrame_lastHit (b : Block) : (popFrame b).lastHit = b.lastHit := rfl
@[simp] theorem popFrame_demod (b : Block) : (popFrame b).demod = b.demod := rfl
@[simp] theorem popFrame_fq (b : Block) : (popFrame b).fq = b.fq.tail := rfl
@[simp] theorem popFrame_seqCtr (b : Block) : (popFrame b).seqCtr = b.seqCtr := rfl

/-! ### writeCtrlFields -/

@[simp] theorem writeCtrlFields_en (v : Word) (b : Block) : (writeCtrlFields v b).en = v.getLsbD 0 := rfl
@[simp] theorem writeCtrlFields_ie (v : Word) (b : Block) : (writeCtrlFields v b).ie = v.getLsbD 3 := rfl
@[simp] theorem writeCtrlFields_magMode (v : Word) (b : Block) : (writeCtrlFields v b).magMode = magModeOf v b.magMode := rfl
@[simp] theorem writeCtrlFields_nfMode (v : Word) (b : Block) : (writeCtrlFields v b).nfMode = nfModeOf v := rfl
@[simp] theorem writeCtrlFields_tAbs (v : Word) (b : Block) : (writeCtrlFields v b).tAbs = b.tAbs := rfl
@[simp] theorem writeCtrlFields_kRel (v : Word) (b : Block) : (writeCtrlFields v b).kRel = b.kRel := rfl
@[simp] theorem writeCtrlFields_eps (v : Word) (b : Block) : (writeCtrlFields v b).eps = b.eps := rfl
@[simp] theorem writeCtrlFields_nfWindow (v : Word) (b : Block) : (writeCtrlFields v b).nfWindow = b.nfWindow := rfl
@[simp] theorem writeCtrlFields_nfShift (v : Word) (b : Block) : (writeCtrlFields v b).nfShift = b.nfShift := rfl
@[simp] theorem writeCtrlFields_holdoff (v : Word) (b : Block) : (writeCtrlFields v b).holdoff = b.holdoff := rfl
@[simp] theorem writeCtrlFields_sidx (v : Word) (b : Block) : (writeCtrlFields v b).sidx = b.sidx := rfl
@[simp] theorem writeCtrlFields_cntHit (v : Word) (b : Block) : (writeCtrlFields v b).cntHit = b.cntHit := rfl
@[simp] theorem writeCtrlFields_cntSupp (v : Word) (b : Block) : (writeCtrlFields v b).cntSupp = b.cntSupp := rfl
@[simp] theorem writeCtrlFields_cntFrame (v : Word) (b : Block) : (writeCtrlFields v b).cntFrame = b.cntFrame := rfl
@[simp] theorem writeCtrlFields_cntDiscard (v : Word) (b : Block) : (writeCtrlFields v b).cntDiscard = b.cntDiscard := rfl
@[simp] theorem writeCtrlFields_cntFqdrop (v : Word) (b : Block) : (writeCtrlFields v b).cntFqdrop = b.cntFqdrop := rfl
@[simp] theorem writeCtrlFields_cntBadmag (v : Word) (b : Block) : (writeCtrlFields v b).cntBadmag = b.cntBadmag := rfl
@[simp] theorem writeCtrlFields_cntBuserr (v : Word) (b : Block) : (writeCtrlFields v b).cntBuserr = b.cntBuserr := rfl
@[simp] theorem writeCtrlFields_segStart (v : Word) (b : Block) : (writeCtrlFields v b).segStart = b.segStart := rfl
@[simp] theorem writeCtrlFields_hist (v : Word) (b : Block) : (writeCtrlFields v b).hist = b.hist := rfl
@[simp] theorem writeCtrlFields_env (v : Word) (b : Block) : (writeCtrlFields v b).env = b.env := rfl
@[simp] theorem writeCtrlFields_armed (v : Word) (b : Block) : (writeCtrlFields v b).armed = b.armed := rfl
@[simp] theorem writeCtrlFields_lastHit (v : Word) (b : Block) : (writeCtrlFields v b).lastHit = b.lastHit := rfl
@[simp] theorem writeCtrlFields_demod (v : Word) (b : Block) : (writeCtrlFields v b).demod = b.demod := rfl
@[simp] theorem writeCtrlFields_fq (v : Word) (b : Block) : (writeCtrlFields v b).fq = b.fq := rfl
@[simp] theorem writeCtrlFields_seqCtr (v : Word) (b : Block) : (writeCtrlFields v b).seqCtr = b.seqCtr := rfl

/-! ### storeSample -/

@[simp] theorem storeSample_en (im re : Word) (b : Block) : (storeSample im re b).en = b.en := rfl
@[simp] theorem storeSample_ie (im re : Word) (b : Block) : (storeSample im re b).ie = b.ie := rfl
@[simp] theorem storeSample_magMode (im re : Word) (b : Block) : (storeSample im re b).magMode = b.magMode := rfl
@[simp] theorem storeSample_nfMode (im re : Word) (b : Block) : (storeSample im re b).nfMode = b.nfMode := rfl
@[simp] theorem storeSample_tAbs (im re : Word) (b : Block) : (storeSample im re b).tAbs = b.tAbs := rfl
@[simp] theorem storeSample_kRel (im re : Word) (b : Block) : (storeSample im re b).kRel = b.kRel := rfl
@[simp] theorem storeSample_eps (im re : Word) (b : Block) : (storeSample im re b).eps = b.eps := rfl
@[simp] theorem storeSample_nfWindow (im re : Word) (b : Block) : (storeSample im re b).nfWindow = b.nfWindow := rfl
@[simp] theorem storeSample_nfShift (im re : Word) (b : Block) : (storeSample im re b).nfShift = b.nfShift := rfl
@[simp] theorem storeSample_holdoff (im re : Word) (b : Block) : (storeSample im re b).holdoff = b.holdoff := rfl
@[simp] theorem storeSample_sidx (im re : Word) (b : Block) : (storeSample im re b).sidx = b.sidx + 1#64 := rfl
@[simp] theorem storeSample_cntHit (im re : Word) (b : Block) : (storeSample im re b).cntHit = b.cntHit := rfl
@[simp] theorem storeSample_cntSupp (im re : Word) (b : Block) : (storeSample im re b).cntSupp = b.cntSupp := rfl
@[simp] theorem storeSample_cntFrame (im re : Word) (b : Block) : (storeSample im re b).cntFrame = b.cntFrame := rfl
@[simp] theorem storeSample_cntDiscard (im re : Word) (b : Block) : (storeSample im re b).cntDiscard = b.cntDiscard := rfl
@[simp] theorem storeSample_cntFqdrop (im re : Word) (b : Block) : (storeSample im re b).cntFqdrop = b.cntFqdrop := rfl
@[simp] theorem storeSample_cntBadmag (im re : Word) (b : Block) :
    (storeSample im re b).cntBadmag = if badMag (rawOf b im re) then b.cntBadmag + 1#32 else b.cntBadmag := rfl
@[simp] theorem storeSample_cntBuserr (im re : Word) (b : Block) : (storeSample im re b).cntBuserr = b.cntBuserr := rfl
@[simp] theorem storeSample_segStart (im re : Word) (b : Block) : (storeSample im re b).segStart = b.segStart := rfl
@[simp] theorem storeSample_hist (im re : Word) (b : Block) :
    (storeSample im re b).hist = { mag := sanitize (rawOf b im re), noise := noiseValue b (sanitize (rawOf b im re)) } :: b.hist := rfl
@[simp] theorem storeSample_env (im re : Word) (b : Block) : (storeSample im re b).env = some (nextEnv b (sanitize (rawOf b im re))) := rfl
@[simp] theorem storeSample_armed (im re : Word) (b : Block) : (storeSample im re b).armed = b.armed := rfl
@[simp] theorem storeSample_lastHit (im re : Word) (b : Block) : (storeSample im re b).lastHit = b.lastHit := rfl
@[simp] theorem storeSample_demod (im re : Word) (b : Block) : (storeSample im re b).demod = b.demod := rfl
@[simp] theorem storeSample_fq (im re : Word) (b : Block) : (storeSample im re b).fq = b.fq := rfl
@[simp] theorem storeSample_seqCtr (im re : Word) (b : Block) : (storeSample im re b).seqCtr = b.seqCtr := rfl

@[simp] theorem resetBlock_eq (b : Block) : resetBlock b = Block.reset := rfl

end Sys2Proof.Machine
end

