-- ==== Sys2Proof/Laws/Units.lean ====
section
/-! SUPPORT. What each unit's step can do, said once: if it answers, then one of these cases holds. -/

namespace Sys2Proof.Machine

variable {p : Params} {b b' : Block} {i g : SampleNo}

theorem takeHit_cases (h : takeHit i b = some b') :
    ∃ c nz hi, score b i = some c ∧ noiseAt b i = some nz ∧ pulseSum b i = some hi ∧
      b' = { b with
        cntHit := b.cntHit + 1#32
        armed := false
        lastHit := some i
        demod := some
          { h := i, score := bitsOf (Config.nanFree i) c, noise := nz, sHi := bitsOf (Config.nanFree i) hi } } := by
  simp only [takeHit, Option.bind_eq_bind, Option.bind_eq_some_iff, Option.some.injEq] at h
  obtain ⟨c, hc, nz, hn, hi, hh, rfl⟩ := h
  exact ⟨c, nz, hi, hc, hn, hh, rfl⟩

theorem rearm_cases (h : rearm i b = some b') :
    ∃ l, b.lastHit = some l ∧
      ((b.holdoff.toNat ≤ since i l ∧ b' = { b with armed := true }) ∨ (since i l < b.holdoff.toNat ∧ b' = b)) := by
  simp only [rearm, Option.bind_eq_bind, Option.bind_eq_some_iff, Option.some.injEq] at h
  obtain ⟨l, hl, h⟩ := h
  refine ⟨l, hl, ?_⟩
  split at h
  · next hc => exact .inl ⟨hc, h.symm⟩
  · next hc => exact .inr ⟨by omega, h.symm⟩

/-- A decision takes the hit, counts a suppressed candidate, re-arms the guard, or changes nothing
(42_correlator.md R170). -/
theorem decideIndex_cases (h : decideIndex i b = some b') :
    ∃ q, qualify b i = some q ∧
      ((q = true ∧ localMax b i = some true ∧ b.armed = true ∧ takeHit i b = some b') ∨
       (q = true ∧ localMax b i = some true ∧ b.armed = false ∧ b' = { b with cntSupp := b.cntSupp + 1#32 }) ∨
       (q = false ∧ b.armed = false ∧ rearm i b = some b') ∨
       ((q = false ∨ localMax b i = some false) ∧ (b.armed = true ∨ q = true) ∧ b' = b)) := by
  simp only [decideIndex, Option.bind_eq_bind, Option.bind_eq_some_iff] at h
  obtain ⟨q, hq, c, hc, h⟩ := h
  refine ⟨q, hq, ?_⟩
  cases q <;> cases c <;> cases ha : b.armed <;> simp_all [candidate]

theorem complete_cases {d : Demod} {df : BitVec 5} (h : complete p d df b = some b') :
    ∃ ab, mapOpt (halves b d.h) (List.range (frameLen df)) = some ab ∧
      b' = { enqueue p (frameOf b.seqCtr d df (ab.map bitValue) (ab.map (softFlag b.eps))) b with demod := none } := by
  simp only [complete, Option.bind_eq_bind, Option.bind_eq_some_iff, Option.some.injEq] at h
  obtain ⟨ab, hab, rfl⟩ := h
  exact ⟨ab, hab, rfl⟩

/-- The demodulator's step completes the demodulation in flight at its last bit, and changes nothing before
(43_demodulator.md R206). -/
theorem demodStep_cases (h : demodStep p g b = some b') :
    (b.demod = none ∧ b' = b) ∨
    ∃ d, b.demod = some d ∧
      ((since g d.h < 51 ∧ b' = b) ∨
       ∃ df, 51 ≤ since g d.h ∧ downlinkFormat b d.h = some df ∧
         ((since g d.h ≠ 31 + 4 * frameLen df ∧ b' = b) ∨
          (since g d.h = 31 + 4 * frameLen df ∧ complete p d df b = some b'))) := by
  unfold demodStep at h
  split at h
  · next hd => exact .inl ⟨hd, by simpa using h.symm⟩
  · next d hd =>
    refine .inr ⟨d, hd, ?_⟩
    split at h
    · next hlt => exact .inl ⟨hlt, by simpa using h.symm⟩
    · next hge =>
      simp only [Option.bind_eq_bind, Option.bind_eq_some_iff] at h
      obtain ⟨df, hdf, h⟩ := h
      refine .inr ⟨df, by omega, hdf, ?_⟩
      split at h
      · next he => exact .inr ⟨he, h⟩
      · next hne => exact .inl ⟨hne, by simpa using h.symm⟩

/-- The correlator's turn decides index g - 47 of a segment of 48 samples or more, and nothing of a shorter one
(42_correlator.md R168). -/
theorem decideStep_cases (h : decideStep g b = some b') :
    (since g b.segStart < 47 ∧ b' = b) ∨
    (47 ≤ since g b.segStart ∧ decideIndex (g - 47#64) b = some b') := by
  unfold decideStep decisionLag at h
  split at h
  · next hc => exact .inr ⟨hc, h⟩
  · next hc => exact .inl ⟨by omega, by simpa using h.symm⟩

/-- The stages of a processed sample, in order (40_sample_magnitude.md R110, R118). -/
theorem processSample_cases {last : Bool} {im re : Word} (h : processSample p last im re b = some b') :
    ∃ b1 b2, demodStep p b.sidx (storeSample im re b) = some b1 ∧ decideStep b.sidx b1 = some b2 ∧
      b' = if last then flush b2 else b2 := by
  simp only [processSample, Option.bind_eq_bind, Option.bind_eq_some_iff, Option.some.injEq] at h
  obtain ⟨b1, h1, b2, h2, rfl⟩ := h
  exact ⟨b1, b2, h1, h2, rfl⟩

/-- SAMPLE changes nothing with EN = 0 and replaces the block by the processed one with EN = 1. -/
theorem execSample_cases {last : Bool} {im re : Word} {s t : State} (h : execSample last im re s = .next t) :
    (s.blk.en = false ∧ t = s) ∨
    (s.blk.en = true ∧ ∃ b, processSample s.params last im re s.blk = some b ∧ t = withBlk s b) := by
  unfold execSample at h
  split at h
  · next he =>
    split at h
    · next b hb => cases h; exact .inr ⟨he, b, hb, rfl⟩
    · cases h
  · next he => cases h; exact .inl ⟨by simpa using he, rfl⟩

end Sys2Proof.Machine
end

