-- ==== Sys2Proof/Laws/Invariant.lean ====
section
/-! SUPPORT. What each shared operation keeps of the invariant (Safety.lean). -/

namespace Sys2Proof.Machine

variable {p : Params} {b b' : Block}

/-! ### The queue -/

theorem Frame.Ok.withSeq {r : Frame} (h : Frame.Ok r) (n : BitVec 8) : Frame.Ok { r with seq := n } :=
  ⟨h.len, h.df, h.ts, h.dataPad, h.softPad, h.softAny⟩

theorem enqueue_fq_length (r : Frame) :
    (enqueue p r b).fq.length = if p.fqDepth ≤ b.fq.length then b.fq.length - 1 + 1 else b.fq.length + 1 := by
  simp only [enqueue_fq]
  split <;> simp_all

/-- Where an enqueued record stands, and what stands before it. -/
theorem enqueue_getElem? {r x : Frame} {k : Nat} (h : (enqueue p r b).fq[k]? = some x) :
    (∃ j, b.fq[j]? = some x ∧ b.fq.length - j = (enqueue p r b).fq.length - 1 - k) ∨
    (x = { r with seq := b.seqCtr } ∧ k = (enqueue p r b).fq.length - 1) := by
  have hl := enqueue_fq_length (p := p) (b := b) r
  simp only [enqueue_fq] at h hl
  generalize hkept : (if decide (p.fqDepth ≤ b.fq.length) = true then b.fq.tail else b.fq) = kept at *
  have hlen : (kept ++ [{ r with seq := b.seqCtr }]).length = kept.length + 1 := by simp
  simp only [enqueue_fq, hkept]
  rw [hlen]
  by_cases hk : k < kept.length
  · left
    rw [List.getElem?_append_left hk] at h
    split at hkept
    · subst hkept
      rw [List.getElem?_tail] at h
      refine ⟨k + 1, h, ?_⟩
      simp at hk ⊢
      omega
    · subst hkept
      exact ⟨k, h, by omega⟩
  · right
    rw [List.getElem?_append_right (by omega)] at h
    have : k - kept.length = 0 := by
      by_contra hne
      rw [List.getElem?_eq_none (by simp; omega)] at h
      cases h
    rw [this] at h
    simp at h
    exact ⟨h.symm, by omega⟩

/-- Enqueue keeps the queue within its depth, its records in order and their numbers consecutive
(44_frame_assembler.md R233, R234). -/
theorem enqueue_queue {r : Frame} (hp : p.Legal) (hb : b.Base p) : (enqueue p r b).fq.length ≤ p.fqDepth := by
  rw [enqueue_fq_length]
  have := hb.queue
  obtain ⟨_, _, _, _⟩ := hp
  split <;> omega

theorem enqueue_order {r : Frame} (hb : b.Base p) (k : Nat) (x : Frame) (h : (enqueue p r b).fq[k]? = some x) :
    x.seq = (enqueue p r b).seqCtr - BitVec.ofNat 8 ((enqueue p r b).fq.length - k) := by
  have hk : k < (enqueue p r b).fq.length := by
    by_contra hn
    rw [List.getElem?_eq_none (by omega)] at h
    cases h
  obtain ⟨j, hj, hjk⟩ | ⟨hx, hkl⟩ := enqueue_getElem? h
  · rw [hb.order j x hj, hjk, enqueue_seqCtr]
    have : (enqueue p r b).fq.length - k = ((enqueue p r b).fq.length - 1 - k) + 1 := by omega
    rw [this, BitVec.ofNat_add]
    bv_omega
  · subst hx
    have : (enqueue p r b).fq.length - k = 1 := by omega
    rw [this, enqueue_seqCtr]
    simp

theorem enqueue_frames {r : Frame} (hr : Frame.Ok r) (hb : b.Base p) : ∀ x ∈ (enqueue p r b).fq, Frame.Ok x := by
  intro x hx
  simp only [enqueue_fq, List.mem_append, List.mem_singleton] at hx
  obtain hx | rfl := hx
  · split at hx
    · exact hb.frames x (List.mem_of_mem_tail hx)
    · exact hb.frames x hx
  · exact hr.withSeq _

theorem popFrame_inv (h : b.Inv p) : (popFrame b).Inv p where
  window := h.window
  holdoff := h.holdoff
  queue := by have := h.queue; simp; omega
  length := h.length
  mags := h.mags
  noises := h.noises
  envSet := h.envSet
  envOk := h.envOk
  guard := h.guard
  hits := h.hits
  seq := h.seq
  frames := fun r hr => h.frames r (List.mem_of_mem_tail hr)
  order := fun k r hr => by
    simp only [popFrame_fq, List.getElem?_tail] at hr
    have hk : k + 1 < b.fq.length := by
      by_contra hn
      rw [List.getElem?_eq_none (by omega)] at hr
      cases hr
    rw [h.order (k + 1) r hr]
    simp only [popFrame_seqCtr, popFrame_fq, List.length_tail]
    congr 2
    omega
  demod := fun d hd => ⟨(h.demod d hd).disarmed, (h.demod d hd).last, (h.demod d hd).decided, (h.demod d hd).held,
    (h.demod d hd).unfinished, (h.demod d hd).pending⟩

/-! ### Segment ends -/

theorem flush_inv (h : b.Inv p) : (flush b).Inv p where
  window := h.window
  holdoff := h.holdoff
  queue := h.queue
  length := by simp
  mags := by simp
  noises := by simp
  envSet := by simp
  envOk := by simp
  guard := by simp
  hits := by
    have := h.hits
    simp only [flush_cntHit, flush_cntFrame, flush_cntDiscard, flush_demod]
    cases hd : b.demod <;> simp_all
    bv_omega
  seq := h.seq
  frames := h.frames
  order := h.order
  demod := by simp

/-! ### Storing a sample -/

theorem ageOf_store {im re : Word} {g : SampleNo} (h : ageOf b g + 1 < 2 ^ 64) :
    ageOf (storeSample im re b) g = ageOf b g + 1 := by
  simp only [ageOf, since, storeSample_sidx] at *
  bv_omega

theorem entryAt_store {im re : Word} {g : SampleNo} (h : ageOf b g + 1 < 2 ^ 64) :
    entryAt (storeSample im re b) g = entryAt b g := by
  simp only [entryAt, ageOf_store h, storeSample_hist, List.getElem?_cons_succ]

theorem magAt_store {im re : Word} {g : SampleNo} {k : Nat} (hk : k ≤ ageOf b g) (h : ageOf b g + 1 < 2 ^ 64) :
    magAt (storeSample im re b) (g + BitVec.ofNat 64 k) = magAt b (g + BitVec.ofNat 64 k) := by
  simp only [magAt]
  rw [entryAt_store (by rw [ageOf_add hk]; omega)]

/-- A bit period that was in the history reads the same after another sample. -/
theorem halves_store {im re : Word} {h : SampleNo} {k : Nat} (h1 : 35 + 4 * k ≤ ageOf b h)
    (h2 : ageOf b h + 1 < 2 ^ 64) : halves (storeSample im re b) h k = halves b h k := by
  have hadd : ∀ n : Nat, h + BitVec.ofNat 64 (32 + 4 * k) + BitVec.ofNat 64 n =
      h + BitVec.ofNat 64 (32 + 4 * k + n) := fun n => by
    rw [BitVec.add_assoc, ← BitVec.ofNat_add]
  simp only [halves]
  rw [hadd 1, hadd 2, hadd 3, magAt_store (by omega) h2, magAt_store (by omega) h2, magAt_store (by omega) h2,
    magAt_store (by omega) h2]

theorem mapOpt_congr {α β : Type} {f f' : α → Option β} {xs : List α} (h : ∀ x ∈ xs, f x = f' x) :
    mapOpt f xs = mapOpt f' xs := by
  induction xs with
  | nil => rfl
  | cons x xs ih =>
    simp only [mapOpt]
    rw [h x List.mem_cons_self, ih fun y hy => h y (List.mem_cons_of_mem _ hy)]

theorem downlinkFormat_store {im re : Word} {h : SampleNo} (h1 : 51 ≤ ageOf b h) (h2 : ageOf b h + 1 < 2 ^ 64) :
    downlinkFormat (storeSample im re b) h = downlinkFormat b h := by
  simp only [downlinkFormat]
  rw [mapOpt_congr fun k hk => halves_store (by rw [List.mem_range] at hk; omega) h2]

/-- The least magnitude of a window is one of its magnitudes. -/
theorem leastOf_isMag {m : Word} {older : List Word} (hm : IsMag m) (ho : ∀ x ∈ older, IsMag x) :
    IsMag (leastOf m older) := by
  unfold leastOf
  induction older generalizing m with
  | nil => exact hm
  | cons x xs ih =>
    refine ih ?_ fun y hy => ho y (List.mem_cons_of_mem _ hy)
    unfold lesser
    split
    · exact ho x List.mem_cons_self
    · exact hm

theorem nextEnv_isNoise (hb : b.Base p) {m : Word} (hm : IsMag m) : IsNoise (nextEnv b m) := by
  unfold nextEnv
  split
  · exact le_of_lt hm
  · next e he =>
    split
    · exact le_of_lt hm
    · next hge => exact releaseStep_isNoise _ _ (hb.envOk e he) hm (by simpa using hge)

theorem noiseValue_isNoise (hb : b.Base p) {m : Word} (hm : IsMag m) : IsNoise (noiseValue b m) := by
  unfold noiseValue
  split
  · refine le_of_lt (leastOf_isMag hm fun x hx => ?_)
    obtain ⟨e, he, rfl⟩ := List.mem_map.1 hx
    exact hb.mags e (List.mem_of_mem_take he)
  · exact nextEnv_isNoise hb hm

theorem storeSample_base (im re : Word) (hb : b.Base p) : (storeSample im re b).Base p where
  window := hb.window
  holdoff := hb.holdoff
  queue := hb.queue
  length := by
    have := hb.length
    simp only [storeSample_hist, storeSample_sidx, storeSample_segStart, List.length_cons, BitVec.ofNat_add]
    rw [this]
    bv_omega
  mags := by
    intro e he
    simp only [storeSample_hist, List.mem_cons] at he
    obtain rfl | he := he
    · exact sanitize_isMag (rawMag_bounded _ _ _)
    · exact hb.mags e he
  noises := by
    intro e he
    simp only [storeSample_hist, List.mem_cons] at he
    obtain rfl | he := he
    · exact noiseValue_isNoise hb (sanitize_isMag (rawMag_bounded _ _ _))
    · exact hb.noises e he
  envSet := by simp
  envOk := by
    intro e he
    simp only [storeSample_env, Option.some.injEq] at he
    subst he
    exact nextEnv_isNoise hb (sanitize_isMag (rawMag_bounded _ _ _))
  guard := hb.guard
  hits := hb.hits
  seq := hb.seq
  frames := hb.frames
  order := hb.order

/-! ### The demodulator's step -/

/-- A demodulation that the sample just stored may bring to its last bit. -/
structure DemodDue (b : Block) (d : Demod) : Prop where
  disarmed : b.armed = false
  last : b.lastHit = some d.h
  decided : 47 ≤ ageOf b d.h
  held : ageOf b d.h < b.hist.length
  unfinished : ageOf b d.h ≤ 479
  pending : 51 ≤ ageOf b d.h → ∀ df, downlinkFormat b d.h = some df → ageOf b d.h ≤ 31 + 4 * frameLen df

theorem storeSample_due {im re : Word} {d : Demod} (h : Demod.Ok b d) : DemodDue (storeSample im re b) d := by
  have h1 := h.unfinished
  have h2 : ageOf (storeSample im re b) d.h = ageOf b d.h + 1 := ageOf_store (by omega)
  refine ⟨h.disarmed, h.last, by have := h.decided; omega, ?_, by omega, fun h51 df hdf => ?_⟩
  · have := h.held
    rw [h2]
    simp
    omega
  · by_cases hb : 51 ≤ ageOf b d.h
    · rw [downlinkFormat_store hb (by omega)] at hdf
      have := h.pending hb df hdf
      omega
    · obtain hl | hl := frameLen_cases df <;> omega

theorem complete_frame_ok {d : Demod} {df : BitVec 5} {ab : List (Fp × Fp)} {eps : Word} {n : BitVec 8}
    (hdf : downlinkFormat b d.h = some df)
    (hab : mapOpt (halves b d.h) (List.range (frameLen df)) = some ab) :
    Frame.Ok (frameOf n d df (ab.map bitValue) (ab.map (softFlag eps))) := by
  obtain ⟨hl, hk⟩ := mapOpt_spec hab
  rw [List.length_range] at hl
  refine frameOf_ok (by simp [hl]) (by simp [hl]) ?_
  simp only [downlinkFormat, Option.bind_eq_bind, Option.bind_eq_some_iff, Option.some.injEq] at hdf
  obtain ⟨ab5, h5, rfl⟩ := hdf
  obtain ⟨hl5, hk5⟩ := mapOpt_spec h5
  rw [List.length_range] at hl5
  congr 2
  rw [← List.map_take]
  congr 1
  apply List.ext_getElem?
  intro k
  by_cases h : k < 5
  · have hle : 56 ≤ frameLen (BitVec.ofNat 5 (bitsToNat (List.map bitValue ab5))) := by
      obtain h | h := frameLen_cases (BitVec.ofNat 5 (bitsToNat (List.map bitValue ab5))) <;> omega
    rw [List.getElem?_take_of_lt h, ← hk5 k k (List.getElem?_range h), ← hk k k (List.getElem?_range (by omega))]
  · rw [List.getElem?_eq_none (by omega), List.getElem?_eq_none (by simp; omega)]

theorem demodStep_inv (hp : p.Legal) (hb : b.Base p) (hd : ∀ d, b.demod = some d → DemodDue b d)
    (h : demodStep p (b.sidx - 1#64) b = some b') : b'.Inv p := by
  obtain ⟨hn, rfl⟩ | ⟨d, hsome, hcase⟩ := demodStep_cases h
  · exact ⟨hb, fun d he => by rw [hn] at he; cases he⟩
  have due := hd d hsome
  have keep : ageOf b d.h < 479 →
      (51 ≤ ageOf b d.h → ∀ df, downlinkFormat b d.h = some df → ageOf b d.h < 31 + 4 * frameLen df) → b.Inv p :=
    fun hu hpend => ⟨hb, fun d' he => by
      rw [hsome, Option.some.injEq] at he
      subst he
      exact ⟨due.disarmed, due.last, due.decided, due.held, hu, hpend⟩⟩
  obtain ⟨hlt, rfl⟩ | ⟨df, h51, hdf, hcase⟩ := hcase
  · have hlt' : ageOf b' d.h < 51 := hlt
    exact keep (by omega) fun _ => by omega
  have h51' : 51 ≤ ageOf b d.h := h51
  obtain ⟨hne, rfl⟩ | ⟨heq, hc⟩ := hcase
  · have hne' : ageOf b' d.h ≠ 31 + 4 * frameLen df := hne
    have hle := due.pending h51' df hdf
    refine keep ?_ fun _ df' hdf' => ?_
    · obtain hl | hl := frameLen_cases df <;> omega
    · rw [hdf, Option.some.injEq] at hdf'
      subst hdf'
      omega
  · obtain ⟨ab, hab, rfl⟩ := complete_cases hc
    have hok := complete_frame_ok (eps := b.eps) (n := b.seqCtr) hdf hab
    refine ⟨⟨hb.window, hb.holdoff, enqueue_queue hp hb, hb.length, hb.mags, hb.noises, hb.envSet, hb.envOk, hb.guard,
      ?_, ?_, enqueue_frames hok hb, enqueue_order hb⟩, fun _ hd => by cases hd⟩
    · have := hb.hits
      simp only [hsome, Option.isSome_some, if_true] at this
      simp only [enqueue_cntHit, enqueue_cntFrame, enqueue_cntDiscard, Option.isSome_none, Bool.false_eq_true, if_false]
      rw [this]
      bv_omega
    · have := hb.seq
      simp only [enqueue_seqCtr, enqueue_cntFrame, this]
      bv_omega

/-- After a sample is stored the demodulator's step reads only samples of the history. -/
theorem demodStep_some (hd : ∀ d, b.demod = some d → DemodDue b d) :
    ∃ b', demodStep p (b.sidx - 1#64) b = some b' := by
  unfold demodStep
  split
  · exact ⟨b, rfl⟩
  · next d hsome =>
    have due := hd d hsome
    split
    · exact ⟨b, rfl⟩
    · next hge =>
      have h51 : 51 ≤ ageOf b d.h := by
        have : ¬ageOf b d.h < 51 := hge
        omega
      obtain ⟨df, hdf⟩ := downlinkFormat_some h51 due.held
      simp only [hdf, Option.bind_eq_bind, Option.bind_some]
      split
      · next heq =>
        have heq' : ageOf b d.h = 31 + 4 * frameLen df := heq
        obtain ⟨ab, hab⟩ := mapOpt_some (f := halves b d.h) (xs := List.range (frameLen df)) fun k hk =>
          halves_some (by rw [List.mem_range] at hk; omega) due.held
        exact ⟨_, by simp only [complete, hab, Option.bind_eq_bind, Option.bind_some]; rfl⟩
      · exact ⟨b, rfl⟩

/-! ### The correlator's step -/

theorem ageOf_decided (b : Block) : ageOf b (b.sidx - 1#64 - 47#64) = 47 := by
  simp only [ageOf, since]
  bv_omega

/-- The newest sample's place in its segment is within the history. -/
theorem newest_held (hb : b.Base p) (hne : b.hist ≠ []) : since (b.sidx - 1#64) b.segStart < b.hist.length := by
  have hl : b.hist.length % 2 ^ 64 = (b.sidx - b.segStart).toNat := by
    rw [← hb.length, BitVec.toNat_ofNat]
  have hpos : 0 < b.hist.length := List.length_pos_iff.2 hne
  have hs : since (b.sidx - 1#64) b.segStart = ((b.sidx - b.segStart) - 1#64).toNat := by
    simp only [since]
    congr 1
    bv_omega
  rw [hs]
  by_cases h0 : (b.sidx - b.segStart).toNat = 0
  · have : 2 ^ 64 ≤ b.hist.length := by omega
    have := ((b.sidx - b.segStart) - 1#64).isLt
    omega
  · have := Nat.mod_le b.hist.length (2 ^ 64)
    bv_omega

/-- The reach of the local-maximum window of the index decided 47 samples after it stays in the history. -/
theorem decided_reach (hb : b.Base p) (h : 47 ≤ since (b.sidx - 1#64) b.segStart) (hne : b.hist ≠ []) :
    47 + reachBack b (b.sidx - 1#64 - 47#64) < b.hist.length := by
  have h1 := newest_held hb hne
  have h2 : since (b.sidx - 1#64 - 47#64) b.segStart = since (b.sidx - 1#64) b.segStart - 47 := by
    simp only [since] at *
    bv_omega
  have : reachBack b (b.sidx - 1#64 - 47#64) ≤ since (b.sidx - 1#64) b.segStart - 47 := by
    rw [← h2]
    exact Nat.min_le_right _ _
  omega

theorem decideIndex_inv (hb : b.Inv p) (h : 47 ≤ since (b.sidx - 1#64) b.segStart) (hne : b.hist ≠ [])
    (hd : decideIndex (b.sidx - 1#64 - 47#64) b = some b') : b'.Inv p := by
  have hage := ageOf_decided b
  have hheld := newest_held hb.toBase hne
  obtain ⟨q, _, ⟨_, _, harm, ht⟩ | ⟨_, _, _, rfl⟩ | ⟨_, harm, hr⟩ | ⟨_, _, rfl⟩⟩ := decideIndex_cases hd
  · have hnone : b.demod = none := by
      cases hdem : b.demod with
      | none => rfl
      | some d => have := (hb.demod d hdem).disarmed; rw [harm] at this; cases this
    obtain ⟨c, nz, hi, _, _, _, rfl⟩ := takeHit_cases ht
    refine ⟨⟨hb.window, hb.holdoff, hb.queue, hb.length, hb.mags, hb.noises, hb.envSet, hb.envOk, by simp, ?_, hb.seq,
      hb.frames, hb.order⟩, fun d hd => ?_⟩
    · have := hb.hits
      simp only [hnone, Option.isSome_none, Bool.false_eq_true, if_false] at this
      simp only [Option.isSome_some, if_true, this]
      bv_omega
    · simp only [Option.some.injEq] at hd
      subst hd
      have hage' : ∀ x : Demod, x.h = b.sidx - 1#64 - 47#64 → ageOf b x.h = 47 := fun x hx => by rw [hx, hage]
      refine ⟨rfl, rfl, ?_, ?_, ?_, ?_⟩
      · exact le_of_eq hage.symm
      · exact lt_of_le_of_lt (le_of_eq hage) (show 47 < b.hist.length by omega)
      · exact lt_of_le_of_lt (le_of_eq hage) (by omega)
      · intro h51
        exact absurd (le_trans h51 (le_of_eq hage)) (by omega)
  · exact ⟨⟨hb.window, hb.holdoff, hb.queue, hb.length, hb.mags, hb.noises, hb.envSet, hb.envOk, hb.guard, hb.hits,
      hb.seq, hb.frames, hb.order⟩, fun d hd => ⟨(hb.demod d hd).disarmed, (hb.demod d hd).last,
      (hb.demod d hd).decided, (hb.demod d hd).held, (hb.demod d hd).unfinished, (hb.demod d hd).pending⟩⟩
  · obtain ⟨l, hl, ⟨hle, rfl⟩ | ⟨_, rfl⟩⟩ := rearm_cases hr
    · refine ⟨⟨hb.window, hb.holdoff, hb.queue, hb.length, hb.mags, hb.noises, hb.envSet, hb.envOk, by simp, hb.hits,
        hb.seq, hb.frames, hb.order⟩, fun d hd => ?_⟩
      exfalso
      have hd' : b.demod = some d := hd
      have ok := hb.demod d hd'
      have := hb.holdoff
      have h1 := ok.decided
      have h2 := ok.unfinished
      have h3 : l = d.h := by
        have := ok.last
        rw [hl, Option.some.injEq] at this
        exact this
      subst h3
      simp only [ageOf, since] at *
      bv_omega
    · exact hb
  · exact hb

/-- The decision of the SAMPLE that was just stored reads only samples of the history. -/
theorem decideIndex_some (hb : b.Inv p) (h : 47 ≤ since (b.sidx - 1#64) b.segStart) (hne : b.hist ≠ []) :
    ∃ b', decideIndex (b.sidx - 1#64 - 47#64) b = some b' := by
  have hage := ageOf_decided b
  have hreach := decided_reach hb.toBase h hne
  have h31 : 31 ≤ ageOf b (b.sidx - 1#64 - 47#64) := by omega
  have hlen : ageOf b (b.sidx - 1#64 - 47#64) < b.hist.length := by omega
  obtain ⟨q, hq⟩ := qualify_some h31 hlen
  obtain ⟨lm, hlm⟩ := localMax_some (b := b) (i := b.sidx - 1#64 - 47#64) (by omega) (by omega) (by omega)
  have hc : ∃ c, candidate b (b.sidx - 1#64 - 47#64) q = some c := by
    unfold candidate
    split
    · exact ⟨lm, hlm⟩
    · exact ⟨false, rfl⟩
  obtain ⟨c, hc⟩ := hc
  simp only [decideIndex, hq, hc, Option.bind_eq_bind, Option.bind_some]
  split
  · split
    · obtain ⟨x, hx⟩ := score_some_iff (b := b) (i := b.sidx - 1#64 - 47#64).2 ⟨h31, hlen⟩
      obtain ⟨y, hy⟩ := noiseAt_some hlen
      obtain ⟨z, hz⟩ := pulseSum_some h31 hlen
      exact ⟨_, by simp only [takeHit, hx, hy, hz, Option.bind_eq_bind, Option.bind_some]; rfl⟩
    · exact ⟨_, rfl⟩
  · split
    · exact ⟨b, rfl⟩
    · next harm =>
      have harm' : b.armed = false := by simp_all
      have := hb.guard harm'
      cases hl : b.lastHit with
      | none => exact absurd hl this
      | some l => exact ⟨_, by simp only [rearm, hl, Option.bind_eq_bind, Option.bind_some]; rfl⟩

/-! ### A processed sample -/

theorem storeSample_newest (im re : Word) (b : Block) : (storeSample im re b).sidx - 1#64 = b.sidx := by
  simp

/-- What the demodulator's step leaves of a stored sample. -/
theorem demodStep_keeps (g : SampleNo) (h : demodStep p g b = some b') :
    b'.sidx = b.sidx ∧ b'.segStart = b.segStart ∧ b'.hist = b.hist := by
  obtain ⟨_, rfl⟩ | ⟨d, _, ⟨_, rfl⟩ | ⟨df, _, _, ⟨_, rfl⟩ | ⟨_, hc⟩⟩⟩ := demodStep_cases h
  · exact ⟨rfl, rfl, rfl⟩
  · exact ⟨rfl, rfl, rfl⟩
  · exact ⟨rfl, rfl, rfl⟩
  · obtain ⟨ab, _, rfl⟩ := complete_cases hc
    exact ⟨rfl, rfl, rfl⟩

theorem demodStep_store_inv {im re : Word} {b1 : Block} (hp : p.Legal) (hb : b.Inv p)
    (h : demodStep p b.sidx (storeSample im re b) = some b1) : b1.Inv p := by
  rw [← storeSample_newest im re b] at h
  exact demodStep_inv hp (storeSample_base im re hb.toBase) (fun d hd => storeSample_due (hb.demod d hd)) h

/-- A sample's processing keeps the invariant. -/
theorem processSample_inv {last : Bool} {im re : Word} (hp : p.Legal) (hb : b.Inv p)
    (h : processSample p last im re b = some b') : b'.Inv p := by
  obtain ⟨b1, b2, h1, h2, rfl⟩ := processSample_cases h
  have hi1 := demodStep_store_inv hp hb h1
  obtain ⟨hs, _, hh⟩ := demodStep_keeps _ h1
  have hne : b1.hist ≠ [] := by rw [hh]; simp
  have hg : b.sidx = b1.sidx - 1#64 := by rw [hs]; simp
  have hi2 : b2.Inv p := by
    obtain ⟨_, rfl⟩ | ⟨h47, hd⟩ := decideStep_cases h2
    · exact hi1
    · rw [hg] at h47 hd
      exact decideIndex_inv hi1 h47 hne hd
  cases last
  · exact hi2
  · exact flush_inv hi2

/-- A sample is processed in every state that meets the invariant: no rule reads outside the history
(10_state.md R52). -/
theorem processSample_some (last : Bool) (im re : Word) (hp : p.Legal) (hb : b.Inv p) :
    ∃ b', processSample p last im re b = some b' := by
  obtain ⟨b1, h1⟩ := demodStep_some (p := p) (b := storeSample im re b) fun d hd => storeSample_due (hb.demod d hd)
  rw [storeSample_newest] at h1
  have hi1 := demodStep_store_inv hp hb h1
  obtain ⟨hs, _, hh⟩ := demodStep_keeps _ h1
  have hne : b1.hist ≠ [] := by rw [hh]; simp
  have hg : b.sidx = b1.sidx - 1#64 := by rw [hs]; simp
  have h2 : ∃ b2, decideStep b.sidx b1 = some b2 := by
    unfold decideStep decisionLag
    split
    · next h47 =>
      rw [hg] at h47 ⊢
      exact decideIndex_some hi1 h47 hne
    · exact ⟨b1, rfl⟩
  obtain ⟨b2, h2⟩ := h2
  exact ⟨if last then flush b2 else b2, by simp [processSample, h1, h2]⟩

end Sys2Proof.Machine
end

