-- ==== Sys2Proof/Laws/PerInstr.lean ====
section
/-! SUPPORT. Facts of every instruction, one lemma per constructor. The family EncodeLength: a transaction's words
are one descriptor of its kind and the kind's payload (30_encoding.md R81, R85). -/

namespace Sys2Proof.Laws.EncodeLength

/-- The words of an instruction: as many as its kind takes, the first a descriptor of that kind. -/
def Statement (i : Instr) : Prop :=
  (encode i).length = wordsOfKind (kindOfForm (formOf i)) ∧
    ((encode i).head?.bind kindOf) = some (kindOfForm (formOf i))

theorem ofRd (a : Addr) : kindOf (0b0000#4 ++ a) = some .rd := (kindOf_append _ a).trans rfl

theorem ofWr (a : Addr) : kindOf (0b0010#4 ++ a) = some .wr := (kindOf_append _ a).trans rfl

theorem rdId : Statement .rdId := ⟨rfl, ofRd _⟩
theorem rdVersion : Statement .rdVersion := ⟨rfl, ofRd _⟩
theorem rdCtrl : Statement .rdCtrl := ⟨rfl, ofRd _⟩
theorem rdStatus : Statement .rdStatus := ⟨rfl, ofRd _⟩
theorem rdTAbs : Statement .rdTAbs := ⟨rfl, ofRd _⟩
theorem rdKRel : Statement .rdKRel := ⟨rfl, ofRd _⟩
theorem rdEps : Statement .rdEps := ⟨rfl, ofRd _⟩
theorem rdNfWindow : Statement .rdNfWindow := ⟨rfl, ofRd _⟩
theorem rdNfShift : Statement .rdNfShift := ⟨rfl, ofRd _⟩
theorem rdHoldoff : Statement .rdHoldoff := ⟨rfl, ofRd _⟩
theorem rdNoise : Statement .rdNoise := ⟨rfl, ofRd _⟩
theorem rdSidxLo : Statement .rdSidxLo := ⟨rfl, ofRd _⟩
theorem rdSidxHi : Statement .rdSidxHi := ⟨rfl, ofRd _⟩
theorem rdCntHit : Statement .rdCntHit := ⟨rfl, ofRd _⟩
theorem rdCntSupp : Statement .rdCntSupp := ⟨rfl, ofRd _⟩
theorem rdCntFrame : Statement .rdCntFrame := ⟨rfl, ofRd _⟩
theorem rdCntDiscard : Statement .rdCntDiscard := ⟨rfl, ofRd _⟩
theorem rdCntFqdrop : Statement .rdCntFqdrop := ⟨rfl, ofRd _⟩
theorem rdCntBadmag : Statement .rdCntBadmag := ⟨rfl, ofRd _⟩
theorem rdCntBuserr : Statement .rdCntBuserr := ⟨rfl, ofRd _⟩
theorem rdFrInfo : Statement .rdFrInfo := ⟨rfl, ofRd _⟩
theorem rdFrTsLo : Statement .rdFrTsLo := ⟨rfl, ofRd _⟩
theorem rdFrTsHi : Statement .rdFrTsHi := ⟨rfl, ofRd _⟩
theorem rdFrIdxLo : Statement .rdFrIdxLo := ⟨rfl, ofRd _⟩
theorem rdFrIdxHi : Statement .rdFrIdxHi := ⟨rfl, ofRd _⟩
theorem rdFrScore : Statement .rdFrScore := ⟨rfl, ofRd _⟩
theorem rdFrNoise : Statement .rdFrNoise := ⟨rfl, ofRd _⟩
theorem rdFrData0 : Statement .rdFrData0 := ⟨rfl, ofRd _⟩
theorem rdFrData1 : Statement .rdFrData1 := ⟨rfl, ofRd _⟩
theorem rdFrData2 : Statement .rdFrData2 := ⟨rfl, ofRd _⟩
theorem rdFrData3 : Statement .rdFrData3 := ⟨rfl, ofRd _⟩
theorem rdFrSoft0 : Statement .rdFrSoft0 := ⟨rfl, ofRd _⟩
theorem rdFrSoft1 : Statement .rdFrSoft1 := ⟨rfl, ofRd _⟩
theorem rdFrSoft2 : Statement .rdFrSoft2 := ⟨rfl, ofRd _⟩
theorem rdFrSoft3 : Statement .rdFrSoft3 := ⟨rfl, ofRd _⟩
theorem rdFrPop : Statement .rdFrPop := ⟨rfl, ofRd _⟩
theorem rdBuserr (a : Addr) : Statement (.rdBuserr a) := ⟨rfl, ofRd a⟩
theorem wrId (v : Word) : Statement (.wrId v) := ⟨rfl, ofWr _⟩
theorem wrVersion (v : Word) : Statement (.wrVersion v) := ⟨rfl, ofWr _⟩
theorem wrCtrl (v : Word) : Statement (.wrCtrl v) := ⟨rfl, ofWr _⟩
theorem wrStatus (v : Word) : Statement (.wrStatus v) := ⟨rfl, ofWr _⟩
theorem wrTAbs (v : Word) : Statement (.wrTAbs v) := ⟨rfl, ofWr _⟩
theorem wrKRel (v : Word) : Statement (.wrKRel v) := ⟨rfl, ofWr _⟩
theorem wrEps (v : Word) : Statement (.wrEps v) := ⟨rfl, ofWr _⟩
theorem wrNfWindow (v : Word) : Statement (.wrNfWindow v) := ⟨rfl, ofWr _⟩
theorem wrNfShift (v : Word) : Statement (.wrNfShift v) := ⟨rfl, ofWr _⟩
theorem wrHoldoff (v : Word) : Statement (.wrHoldoff v) := ⟨rfl, ofWr _⟩
theorem wrNoise (v : Word) : Statement (.wrNoise v) := ⟨rfl, ofWr _⟩
theorem wrSidxLo (v : Word) : Statement (.wrSidxLo v) := ⟨rfl, ofWr _⟩
theorem wrSidxHi (v : Word) : Statement (.wrSidxHi v) := ⟨rfl, ofWr _⟩
theorem wrCntHit (v : Word) : Statement (.wrCntHit v) := ⟨rfl, ofWr _⟩
theorem wrCntSupp (v : Word) : Statement (.wrCntSupp v) := ⟨rfl, ofWr _⟩
theorem wrCntFrame (v : Word) : Statement (.wrCntFrame v) := ⟨rfl, ofWr _⟩
theorem wrCntDiscard (v : Word) : Statement (.wrCntDiscard v) := ⟨rfl, ofWr _⟩
theorem wrCntFqdrop (v : Word) : Statement (.wrCntFqdrop v) := ⟨rfl, ofWr _⟩
theorem wrCntBadmag (v : Word) : Statement (.wrCntBadmag v) := ⟨rfl, ofWr _⟩
theorem wrCntBuserr (v : Word) : Statement (.wrCntBuserr v) := ⟨rfl, ofWr _⟩
theorem wrFrInfo (v : Word) : Statement (.wrFrInfo v) := ⟨rfl, ofWr _⟩
theorem wrFrTsLo (v : Word) : Statement (.wrFrTsLo v) := ⟨rfl, ofWr _⟩
theorem wrFrTsHi (v : Word) : Statement (.wrFrTsHi v) := ⟨rfl, ofWr _⟩
theorem wrFrIdxLo (v : Word) : Statement (.wrFrIdxLo v) := ⟨rfl, ofWr _⟩
theorem wrFrIdxHi (v : Word) : Statement (.wrFrIdxHi v) := ⟨rfl, ofWr _⟩
theorem wrFrScore (v : Word) : Statement (.wrFrScore v) := ⟨rfl, ofWr _⟩
theorem wrFrNoise (v : Word) : Statement (.wrFrNoise v) := ⟨rfl, ofWr _⟩
theorem wrFrData0 (v : Word) : Statement (.wrFrData0 v) := ⟨rfl, ofWr _⟩
theorem wrFrData1 (v : Word) : Statement (.wrFrData1 v) := ⟨rfl, ofWr _⟩
theorem wrFrData2 (v : Word) : Statement (.wrFrData2 v) := ⟨rfl, ofWr _⟩
theorem wrFrData3 (v : Word) : Statement (.wrFrData3 v) := ⟨rfl, ofWr _⟩
theorem wrFrSoft0 (v : Word) : Statement (.wrFrSoft0 v) := ⟨rfl, ofWr _⟩
theorem wrFrSoft1 (v : Word) : Statement (.wrFrSoft1 v) := ⟨rfl, ofWr _⟩
theorem wrFrSoft2 (v : Word) : Statement (.wrFrSoft2 v) := ⟨rfl, ofWr _⟩
theorem wrFrSoft3 (v : Word) : Statement (.wrFrSoft3 v) := ⟨rfl, ofWr _⟩
theorem wrFrPop (v : Word) : Statement (.wrFrPop v) := ⟨rfl, ofWr _⟩
theorem wrBuserr (a : Addr) (v : Word) : Statement (.wrBuserr a v) := ⟨rfl, ofWr a⟩
theorem sample (last : Bool) (im re : Word) : Statement (.sample last im re) := ⟨rfl, by cases last <;> rfl⟩
theorem ftake : Statement .ftake := ⟨rfl, rfl⟩

end Sys2Proof.Laws.EncodeLength
end

