-- ==== Sys2Proof/Laws/Step.lean ====
section
/-! SUPPORT. What a transaction and a step can do, said once. -/

namespace Sys2Proof.Machine

/-- The blocks a transaction can leave of a block: itself, one with a configuration register, CTRL, the queue or
the bus-error counter written, or, while EN = 1, one that has processed a sample. -/
inductive BlockMove (p : Params) (b : Block) : Block → Prop where
  | same : BlockMove p b b
  | busError : BlockMove p b (busError b)
  | ctrl (v : Word) : BlockMove p b (writeCtrl v b)
  | tAbs (v : Word) : BlockMove p b { b with tAbs := v }
  | kRel (v : Word) : BlockMove p b { b with kRel := v }
  | eps (v : Word) : BlockMove p b { b with eps := v }
  | nfWindow (v : Word) : BlockMove p b { b with nfWindow := legalWindow p v }
  | nfShift (v : Word) : BlockMove p b { b with nfShift := shiftField v }
  | holdoff (v : Word) : BlockMove p b { b with holdoff := legalHoldoff v }
  | pop : BlockMove p b (popFrame b)
  | sample {b' : Block} (last : Bool) (im re : Word) (h : processSample p last im re b = some b')
      (en : b.en = true) : BlockMove p b b'

/-- Every transaction that completes moves the block in one of these ways and leaves the parameters. -/
theorem exec_moves {i : Instr} {s t : State} (h : exec i s = .next t) :
    t.params = s.params ∧ BlockMove s.params s.blk t.blk := by
  cases i
  case sample last im re =>
    obtain ⟨_, rfl⟩ | ⟨he, b, hb, rfl⟩ := execSample_cases h
    · exact ⟨rfl, .same⟩
    · exact ⟨rfl, .sample last im re hb he⟩
  case ftake =>
    simp only [exec, execFtake] at h
    split at h <;> cases h
    · exact ⟨rfl, .same⟩
    · exact ⟨rfl, .pop⟩
  case wrCtrl v => cases h; exact ⟨rfl, .ctrl v⟩
  case wrTAbs v => cases h; exact ⟨rfl, .tAbs v⟩
  case wrKRel v => cases h; exact ⟨rfl, .kRel v⟩
  case wrEps v => cases h; exact ⟨rfl, .eps v⟩
  case wrNfWindow v => cases h; exact ⟨rfl, .nfWindow v⟩
  case wrNfShift v => cases h; exact ⟨rfl, .nfShift v⟩
  case wrHoldoff v => cases h; exact ⟨rfl, .holdoff v⟩
  case wrFrPop v => cases h; exact ⟨rfl, .pop⟩
  case rdBuserr a => cases h; exact ⟨rfl, .busError⟩
  case wrBuserr a v => cases h; exact ⟨rfl, .busError⟩
  all_goals cases h; exact ⟨rfl, .same⟩

/-- What a turn brings: nothing but, from the reset input, a reset; or a transaction on the block as it is. -/
theorem fetch_idle {s t : State} (h : fetch s = .idle t) :
    t.params = s.params ∧ (t.blk = s.blk ∨ t.blk = Block.reset) := by
  unfold fetch at h
  split at h
  · cases h; exact ⟨rfl, .inl rfl⟩
  · cases h; exact ⟨rfl, .inr rfl⟩
  · unfold fetchTurn at h
    split at h
    · cases h
    · unfold fetchPort at h
      split at h
      · cases h; exact ⟨rfl, .inl rfl⟩
      · split at h
        · cases h
        · split at h <;> cases h

theorem fetch_run {s t : State} {i : Instr} (h : fetch s = .run i t) : t.params = s.params ∧ t.blk = s.blk := by
  unfold fetch at h
  split at h
  · cases h
  · cases h
  · unfold fetchTurn at h
    split at h
    · cases h; exact ⟨rfl, rfl⟩
    · unfold fetchPort at h
      split at h
      · cases h
      · split at h
        · cases h
        · split at h
          · cases h; exact ⟨rfl, rfl⟩
          · cases h

/-- A step that completes is a turn without a transaction, or one transaction. -/
theorem step_next {s t : State} (h : step s = .next t) :
    fetch s = .idle t ∨ ∃ i u, fetch s = .run i u ∧ exec i u = .next t := by
  unfold step at h
  split at h
  · next hf => cases h; exact .inl hf
  · next i u hf => exact .inr ⟨i, u, hf, h⟩
  · cases h

/-- Every step that completes moves the block as a transaction does, or resets it, and leaves the parameters. -/
theorem step_moves {s t : State} (h : step s = .next t) :
    t.params = s.params ∧ (BlockMove s.params s.blk t.blk ∨ t.blk = Block.reset) := by
  obtain hf | ⟨i, u, hf, he⟩ := step_next h
  · obtain ⟨hp, hb | hb⟩ := fetch_idle hf
    · exact ⟨hp, .inl (hb ▸ .same)⟩
    · exact ⟨hp, .inr hb⟩
  · obtain ⟨hp, hb⟩ := fetch_run hf
    obtain ⟨hp', hm⟩ := exec_moves he
    rw [hp, hb] at hm
    exact ⟨hp'.trans hp, .inl hm⟩

end Sys2Proof.Machine
end

