-- ==== Sys2Proof/Tests/Slice0.lean ====
section
/-! SUPPORT. The model's own tests. Expected results come from the rules of spec/ and from 95_test_vectors.md, named
in each comment. The last part shows, for every statement with hypotheses, a state and operands that meet them. -/

namespace Sys2Proof.Tests

open Sys2Proof.Machine

set_option Elab.async false

/-- The next state of an outcome. -/
def nextOf : Out → Option State
  | .next t => some t
  | _ => none

/-- The refusal of an outcome. -/
def refusalOf : Out → Option Refusal
  | .refused r => some r
  | _ => none

/-- The state an outcome leaves, the reset state where it leaves none. -/
def endOf (o : Out) : State := (nextOf o).getD State.reset

theorem next_endOf {o : Out} (h : (nextOf o).isSome = true) : o = .next (endOf o) := by
  cases o
  · rfl
  · cases h
  · cases h

/-- 1.0 and 5.0, as binary32 bits. -/
def one : Word := 0x3F800000#32
def five : Word := 0x40A00000#32

/-- The reset machine with another block. -/
def atBlk (b : Block) : State := { State.reset with blk := b }

/-- The reset machine with EN = 1 and a magnitude mode. -/
def enabledIn (mode : MagMode) : State := atBlk { Block.reset with en := true, magMode := mode }

/-- A segment of `n` samples from sample 0 on whose sample g has magnitude `f g`, every noise value 1.0, EN = 1 and
MAG_MODE = 2. -/
def blockAt (n : Nat) (f : Nat → Word) : Block :=
  { Block.reset with
    en := true
    magMode := .bypass
    sidx := BitVec.ofNat 64 n
    hist := (List.range n).reverse.map fun g => { mag := f g, noise := one }
    env := if n = 0 then none else some one }

/-- The preamble of 42_correlator.md R160 at samples 0 .. 31, 1.0 elsewhere; with `long`, the payload's first bit
periods spell the Downlink Format 17 (10001), without it every bit is a tie and the format is 0. -/
def burst (long : Bool) (g : Nat) : Word :=
  if g ∈ [0, 1, 4, 5, 14, 15, 18, 19] ∨ (long = true ∧ g ∈ [32, 33, 48, 49]) then five else one

/-- The demodulation of the hit at sample 0 of a burst: score 28.0, noise 1.0, pulse sum 40.0 (R176). -/
def burstHit : Demod := { h := 0#64, score := 0x41E00000#32, noise := one, sHi := 0x42200000#32 }

/-- A burst `n` samples in, its hit taken and in flight. -/
def inFlight (long : Bool) (n : Nat) : Block :=
  { blockAt n (burst long) with armed := false, lastHit := some 0#64, cntHit := 1#32, demod := some burstHit }

/-- A 56-bit frame record with a sequence number, as V 2.5 gives its data. -/
def frame (seq : BitVec 8) : Frame :=
  { seq := seq, len := 56#8, df := 11#5, softAny := false, siglvl := 0xA4#8, ts := 300#48, idx := 100#64,
    score := 0x41E00000#32, noise := one, data := 0x5DABCDEF8A6AB300000000000000#112, softmask := 0#112 }

/-- A queue of two consecutive frames. -/
def twoFrames : Block :=
  { Block.reset with fq := [frame 0#8, frame 1#8], seqCtr := 2#8, cntFrame := 2#32, cntHit := 2#32 }

/-! ### Well-formed transactions -/

/-- A bus error's constructor does not name a mapped address (30_encoding.md R92, exact rows first). -/
theorem test_illformed_rdBuserr : WellFormed (.rdBuserr 0x000#12) = false := by decide

theorem test_illformed_wrBuserr : WellFormed (.wrBuserr 0x010#12 5#32) = false := by decide

theorem test_wellformed_misaligned : WellFormed (.rdBuserr 0x011#12) = true := by decide

/-! ### Decoding: words written out from 30_encoding.md R81 to R84 and the encodings of 95_test_vectors.md -/

theorem test_decode_rd_ctrl : decode [0b000_0_000000001000#16] = .ok (.rdCtrl, []) := by rfl

theorem test_decode_rd_soft3 : decode [0b000_0_000010111100#16, 0xFFFF#16] = .ok (.rdFrSoft3, [0xFFFF#16]) := by rfl

theorem test_decode_rd_unmapped : decode [0x0FFC#16] = .ok (.rdBuserr 0xFFC#12, []) := by rfl

/-- V 2.6's `0100` has bit 12 clear: by R82 it is the RD of the unmapped address 0x100 (notes/assumptions/21.md). -/
theorem test_decode_0100 : decode [0x0100#16] = .ok (.rdBuserr 0x100#12, []) := by rfl

/-- WR T_ABS, 0x41480000 (R261's example). -/
theorem test_decode_wr_tabs :
    decode [0b001_0_000000010000#16, 0x0000#16, 0x4148#16] = .ok (.wrTAbs 0x41480000#32, []) := by rfl

/-- S 3.0, 4.0: RE in payload bits 31:0, IM in 63:32 (R84). -/
theorem test_decode_sample :
    decode [0b010_000000000000_0#16, 0x0000#16, 0x4040#16, 0x0000#16, 0x4080#16] =
      .ok (.sample false 0x40800000#32 0x40400000#32, []) := by rfl

theorem test_decode_sample_last :
    decode [0b010_000000000000_1#16, 0#16, 0#16, 0#16, 0#16] = .ok (.sample true 0#32 0#32, []) := by rfl

theorem test_decode_ftake : decode [0b011_0000000000000#16] = .ok (.ftake, []) := by rfl

theorem test_decode_reserved_kind : decode [0x8000#16] = .error .reservedKind := by rfl

theorem test_decode_reserved_bit : decode [0x1000#16] = .error .reservedBits := by rfl

theorem test_decode_truncated : decode [0x2008#16, 0x0021#16] = .error .truncated := by rfl

/-- WR CTRL, 0x23 is 2008:00000023. -/
theorem test_encode_wr_ctrl : encode (.wrCtrl 0x23#32) = [0x2008#16, 0x0023#16, 0x0000#16] := by decide

/-! ### The host's entries: a table word, and a step of it -/

theorem test_table_word_ftake : decodeTableWord 16 0x6000 = some .ftake := by decide

theorem test_table_word_wr : decodeTableWord 16 0x2024 = some (.wrHoldoff 0#32) := by decide

theorem test_fetch_word_rd :
    (nextOf (step (State.reset.withFetchWord 16 0x0004))).map (fun t => t.io.rResponses) = some [0x00010000#32] := by
  decide

theorem test_fetch_word_wr :
    (nextOf (step (State.reset.withFetchWord 16 0x20FC))).map (fun t => t.blk.cntBuserr) = some 1#32 := by decide

theorem test_fetch_word_reserved :
    refusalOf (step (State.reset.withFetchWord 16 0xE000)) = some (.noTransaction .reservedKind) := by decide

/-! ### Register reads and writes (95_test_vectors.md 2.6, 2.7, V-S1) -/

/-- What a RD responds. -/
def readOf (i : Instr) (s : State) : Option Word := (nextOf (exec i s)).bind fun t => t.io.rResponses.head?

theorem test_rd_status_after_reset : readOf .rdStatus State.reset = some 0x00000004#32 := by decide

theorem test_rd_status_two_frames : readOf .rdStatus (atBlk twoFrames) = some 0x00000205#32 := by decide

theorem test_rd_fr_info_56 : readOf .rdFrInfo (atBlk twoFrames) = some 0x00A48B38#32 := by decide

theorem test_rd_fr_data :
    readOf .rdFrData0 (atBlk twoFrames) = some 0x5DABCDEF#32 ∧
      readOf .rdFrData1 (atBlk twoFrames) = some 0x8A6AB300#32 := by decide

theorem test_rd_fr_ts_idx :
    readOf .rdFrTsLo (atBlk twoFrames) = some 0x12C#32 ∧ readOf .rdFrIdxLo (atBlk twoFrames) = some 100#32 := by decide

theorem test_rd_noise_empty_segment : readOf .rdNoise State.reset = some 0#32 := by decide

theorem test_rd_misaligned :
    (nextOf (exec (.rdBuserr 0x011#12) State.reset)).map (fun t => (t.io.rResponses, t.blk.cntBuserr)) =
      some ([0#32], 1#32) := by decide

theorem test_wr_nf_window_clamps :
    (endOf (exec (.wrNfWindow 0#32) State.reset)).blk.nfWindow = 1#32 ∧
      (endOf (exec (.wrNfWindow 0xFFFFFFFF#32) State.reset)).blk.nfWindow = 4096#32 := by decide

theorem test_wr_nf_shift : (endOf (exec (.wrNfShift 0x25#32) State.reset)).blk.nfShift = 5#5 := by decide

theorem test_wr_holdoff_clamps :
    (endOf (exec (.wrHoldoff 100#32) State.reset)).blk.holdoff = 480#16 ∧
      (endOf (exec (.wrHoldoff 0x00010258#32) State.reset)).blk.holdoff = 600#16 := by decide

theorem test_wr_ctrl_magmode_3 : readOf .rdCtrl (endOf (exec (.wrCtrl 0x31#32) State.reset)) = some 1#32 := by decide

theorem test_wr_ctrl_0x79 : readOf .rdCtrl (endOf (exec (.wrCtrl 0x79#32) State.reset)) = some 0x49#32 := by decide

theorem test_wr_t_abs_keeps_nan : (endOf (exec (.wrTAbs 0x7FC00001#32) State.reset)).blk.tAbs = 0x7FC00001#32 := by
  decide

theorem test_wr_fr_pop : (endOf (exec (.wrFrPop 0#32) (atBlk twoFrames))).blk.fq = [frame 1#8] := by decide

theorem test_wr_id_ignored : nextOf (exec (.wrId 5#32) State.reset) = some State.reset := by decide

theorem test_wr_unmapped : (endOf (exec (.wrBuserr 0x0FC#12 1#32) State.reset)).blk.cntBuserr = 1#32 := by decide

/-- WR CTRL, 0x23 with a demodulation in flight counts it discarded (95_test_vectors.md P3). -/
theorem test_wr_ctrl_flush_discards :
    (endOf (exec (.wrCtrl 0x23#32) (atBlk (inFlight true 148)))).blk.cntDiscard = 1#32 := by decide +kernel

/-! ### FTAKE -/

theorem test_ftake_head :
    (nextOf (exec .ftake (atBlk twoFrames))).map (fun t => (t.io.fResponses, t.blk.fq)) =
      some ([frame 0#8], [frame 1#8]) := by decide

theorem test_ftake_held : (nextOf (exec .ftake State.reset)).map (fun t => t.io.fHeld) = some true := by decide

/-! ### SAMPLE: magnitude (95_test_vectors.md 2.1) -/

/-- The magnitude a first SAMPLE stores, and what it counts. -/
def storedOf (mode : MagMode) (im re : Word) : Option Word × Word :=
  let t := endOf (exec (.sample false im re) (enabledIn mode))
  (t.blk.hist.head?.map HistEntry.mag, t.blk.cntBadmag)

/-- 3, 4 stores 5.0; 1, 1 stores the root of 2. -/
theorem test_sample_abs :
    storedOf .abs 0x40800000#32 0x40400000#32 = (some 0x40A00000#32, 0#32) ∧
      storedOf .abs one one = (some 0x3FB504F3#32, 0#32) := by decide +kernel

/-- 2^63, 2^63 has a finite square sum; 2^64, 0 overflows to MAXF and is counted; 1e-23, 0 underflows to +0.0. -/
theorem test_sample_abs_range :
    storedOf .abs 0x5F000000#32 0x5F000000#32 = (some 0x5F3504F3#32, 0#32) ∧
      storedOf .abs 0#32 0x5F800000#32 = (some 0x7F7FFFFF#32, 1#32) ∧
      storedOf .abs 0#32 0x19416D9A#32 = (some 0#32, 0#32) := by decide +kernel

/-- A NaN is stored as +0.0 and counted; -2.0 and -inf are counted in bypass, -0.0 is not, and IM is not read. -/
theorem test_sample_bad_magnitudes :
    storedOf .abs 0#32 0x7FC00000#32 = (some 0#32, 1#32) ∧ storedOf .bypass one 0xC0000000#32 = (some 0#32, 1#32) ∧
      storedOf .bypass one 0xFF800000#32 = (some 0#32, 1#32) ∧ storedOf .bypass one 0x80000000#32 = (some 0#32, 0#32) ∧
      storedOf .bypass 0x7FC00000#32 0x40F00000#32 = (some 0x40F00000#32, 0#32) := by decide +kernel

theorem test_sample_absSq : storedOf .absSq 0x40800000#32 0x40400000#32 = (some 0x41C80000#32, 0#32) := by
  decide +kernel

/-! ### Noise floor (2.2) -/

/-- The segment 3, 1, 2, 4, 5 with NF_WINDOW = 3, then 6: the minimum of 4, 5, 6. -/
def rising : Block :=
  { blockAt 5 (fun g => [0x40400000#32, one, 0x40000000#32, 0x40800000#32, five].getD g one) with nfWindow := 3#32 }

theorem test_moving_minimum :
    ((endOf (exec (.sample false 0#32 0x40C00000#32) (atBlk rising))).blk.hist.head?.map HistEntry.noise) =
      some 0x40800000#32 := by decide +kernel

/-- NF_SHIFT = 1: E = 6.0 and m = 8.0 give 7.0; E = 7.0 and m = 2.0 give 2.0. -/
theorem test_release :
    nextEnv { blockAt 2 (burst false) with env := some 0x40C00000#32, nfShift := 1#5 } 0x41000000#32 = 0x40E00000#32 ∧
      nextEnv { blockAt 2 (burst false) with env := some 0x40E00000#32, nfShift := 1#5 } 0x40000000#32 =
        0x40000000#32 := by decide +kernel

/-! ### Correlator (2.3) -/

/-- C at a burst's first sample is 28.0 and two samples before a peak it is -28.0 (C(100), C(102)). -/
theorem test_score :
    (score (blockAt 64 (burst false)) 0#64).map (bitsOf 0#23) = some 0x41E00000#32 ∧
      (score (blockAt 64 (burst false)) 2#64).map (bitsOf 0#23) = some 0xC1E00000#32 ∧
      score (blockAt 64 (burst false)) 33#64 = none := by decide +kernel

/-- Qualification is strict: 28 against T_ABS = 28.0 fails; K_REL = -1.0 passes. -/
theorem test_qualify :
    qualify { blockAt 48 (burst false) with tAbs := 0x41E00000#32 } 0#64 = some false ∧
      qualify { blockAt 48 (burst false) with kRel := 0xBF800000#32 } 0#64 = some true := by decide +kernel

/-- The SAMPLE of sample i + 47 takes the hit at i. -/
theorem test_sample_takes_hit :
    (endOf (exec (.sample false 0#32 one) (atBlk (blockAt 47 (burst false))))).blk.demod = some burstHit := by
  decide +kernel

/-! ### Demodulator and frames (2.4) -/

/-- The 56-bit frame of a burst with tied bits completes at sample 255, every bit soft: FR_INFO has LEN 56, DF 0,
SOFT_ANY, VALID, SIGLVL 164. -/
theorem test_sample_completes_frame :
    readOf .rdFrInfo (endOf (exec (.sample false 0#32 one) (atBlk (inFlight false 255)))) = some 0x00A4A038#32 := by
  decide +kernel

/-- 3, 1, 2, 1.5: bit 1; soft with EPS = 0.5, not with 0.0 or -1.0; four MAXF: bit 0, soft. -/
theorem test_soft_flag :
    bitValue (f32 0x40800000#32, f32 0x40600000#32) = true ∧
      softFlag 0#32 (f32 0x40800000#32, f32 0x40600000#32) = false ∧
      softFlag 0x3F000000#32 (f32 0x40800000#32, f32 0x40600000#32) = true ∧
      softFlag 0xBF800000#32 (f32 0x40800000#32, f32 0x40600000#32) = false ∧
      bitValue (.inf false, .inf false) = false ∧ softFlag one (.inf false, .inf false) = true := by decide +kernel

theorem test_signal_level :
    sigLvl 0x3D000000#32 = 0#8 ∧ sigLvl 0x3D080000#32 = 1#8 ∧ sigLvl 0x42200000#32 = 164#8 ∧
      sigLvl 0x44F7E666#32 = 254#8 ∧ sigLvl 0x44F80000#32 = 255#8 ∧ sigLvl maxF = 255#8 := by decide +kernel

theorem test_timestamp :
    timestamp 100#64 = 0x12C#48 ∧ timestamp 0x555555555556#64 = 2#48 ∧
      timestamp 0xFFFFFFFFFFFFFFFF#64 = 0xFFFFFFFFFFFD#48 := by decide

/-- A ninth frame drops the oldest of eight and takes the next number. -/
theorem test_enqueue_full :
    (enqueue Params.default (frame 0#8)
      { Block.reset with fq := (List.range 8).map fun k => frame (BitVec.ofNat 8 k), seqCtr := 8#8 }).fq.map Frame.seq =
        (List.range 8).map fun k => BitVec.ofNat 8 (k + 1) := by decide

/-- The frame of V-S1 has residue 0, the frame of V-S3 has not; the DF11 frame of V 2.5 has residue 0. -/
theorem test_crc_residue :
    crcResidue (frameBits 0x8DABCDEF205054D40C130C699BEF#112 112) = 0#24 ∧
      crcResidue (frameBits 0x8DABCDEF20D054D40C130C699BEF#112 112) ≠ 0#24 ∧ frameResidue (frame 0#8) = 0#24 := by
  decide +kernel

/-! ### Witnesses: states and operands that meet the hypotheses of the statements -/

theorem burst_isMag (long : Bool) (g : Nat) : IsMag (burst long g) := by
  unfold burst
  split <;> decide

theorem legal_default : Params.default.Legal := by decide

/-- A segment of any length with good magnitudes meets the invariant. -/
theorem blockAt_base (n : Nat) (f : Nat → Word) (hf : ∀ g, IsMag (f g)) : (blockAt n f).Base Params.default where
  window := by simp [blockAt, Block.reset]
  holdoff := by simp [blockAt, Block.reset]
  queue := by simp [blockAt, Block.reset]
  length := by simp [blockAt, Block.reset]
  mags := by
    intro e he
    simp only [blockAt, List.mem_map] at he
    obtain ⟨g, _, rfl⟩ := he
    exact hf g
  noises := by
    intro e he
    simp only [blockAt, List.mem_map] at he
    obtain ⟨g, _, rfl⟩ := he
    show IsNoise one
    decide
  envSet := by cases n <;> simp [blockAt]
  envOk := by
    intro e he
    simp only [blockAt] at he
    split at he <;> cases he
    decide
  guard := by simp [blockAt, Block.reset]
  hits := by simp [blockAt, Block.reset]
  seq := by simp [blockAt, Block.reset]
  frames := by simp [blockAt, Block.reset]
  order := by simp [blockAt, Block.reset]

theorem blockAt_inv (n : Nat) (f : Nat → Word) (hf : ∀ g, IsMag (f g)) : (atBlk (blockAt n f)).Inv where
  params := legal_default
  blk := ⟨blockAt_base n f hf, by intro d hd; cases hd⟩

/-- A burst in flight meets the invariant while its last bit is still to come. -/
theorem inFlight_inv (long : Bool) (n : Nat) (df : BitVec 5) (h1 : 48 ≤ n) (h2 : n < 32 + 4 * frameLen df)
    (hdf : downlinkFormat (inFlight long n) 0#64 = some df) : (atBlk (inFlight long n)).Inv where
  params := legal_default
  blk := by
    have hb := blockAt_base n (burst long) (burst_isMag long)
    have h480 : n ≤ 479 := by unfold frameLen at h2; split at h2 <;> omega
    have hage : ageOf (inFlight long n) 0#64 = n - 1 := by
      simp only [ageOf, since, inFlight, blockAt, BitVec.sub_zero, BitVec.toNat_sub, BitVec.toNat_ofNat]
      omega
    refine ⟨⟨hb.window, hb.holdoff, hb.queue, hb.length, hb.mags, hb.noises, hb.envSet, hb.envOk, ?_, ?_, hb.seq,
      hb.frames, hb.order⟩, ?_⟩
    · intro _
      show some 0#64 ≠ none
      simp
    · show 1#32 = 0#32 + 0#32 + 1#32
      decide
    · intro d hd
      cases hd
      refine ⟨rfl, rfl, ?_, ?_, ?_, ?_⟩
      · show 47 ≤ ageOf (inFlight long n) 0#64
        omega
      · show ageOf (inFlight long n) 0#64 < (inFlight long n).hist.length
        rw [hage]
        simp [inFlight, blockAt]
        omega
      · show ageOf (inFlight long n) 0#64 < 479
        omega
      · show 51 ≤ ageOf (inFlight long n) 0#64 → ∀ df, downlinkFormat (inFlight long n) 0#64 = some df →
          ageOf (inFlight long n) 0#64 < 31 + 4 * frameLen df
        intro _ df' hdf'
        rw [hdf, Option.some.injEq] at hdf'
        subst hdf'
        omega

/-- The short burst one sample before its last bit ends, and the long one. -/
theorem inFlight_short_inv : (atBlk (inFlight false 255)).Inv :=
  inFlight_inv false 255 0#5 (by decide) (by decide) (by decide +kernel)

theorem inFlight_long_inv : (atBlk (inFlight true 479)).Inv :=
  inFlight_inv true 479 17#5 (by decide) (by decide) (by decide +kernel)

/-- Two frames queued meet the invariant. -/
theorem frame_ok (seq : BitVec 8) : Frame.Ok (frame seq) where
  len := rfl
  df := by
    show 11#5 = BitVec.extractLsb' 107 5 0x5DABCDEF8A6AB300000000000000#112
    decide
  ts := rfl
  dataPad := by
    intro k hk
    have h56 : 56 ≤ k := hk
    by_cases h : k < 112
    · have : ∀ j < 112, 56 ≤ j → (0x5DABCDEF8A6AB300000000000000#112).getMsbD j = false := by decide
      exact this k h h56
    · show (0x5DABCDEF8A6AB300000000000000#112).getMsbD k = false
      simp [BitVec.getMsbD, h]
  softPad := by
    intro k _
    show (0#112).getMsbD k = false
    simp [BitVec.getMsbD]
  softAny := rfl

theorem twoFrames_inv : (atBlk twoFrames).Inv where
  params := by decide
  blk := by
    refine ⟨?_, by intro d hd; cases hd⟩
    constructor
    case frames =>
      intro r hr
      simp only [twoFrames, atBlk, List.mem_cons, List.not_mem_nil, or_false] at hr
      obtain rfl | rfl := hr
      · exact frame_ok 0#8
      · exact frame_ok 1#8
    case order =>
      intro k r hr
      match k, hr with
      | 0, hr => cases hr; decide
      | 1, hr => cases hr; decide
    all_goals simp [atBlk, State.reset, twoFrames, Block.reset, Params.default]

/-! #### Encoding and steps -/

theorem witness_DecodeOfEncode : WellFormed (.wrBuserr 0xFFF#12 1#32) = true ∧ WellFormed .ftake = true := by decide

theorem witness_EncodeOfDecode : decode [0x20C0#16, 1#16, 2#16, 3#16] = .ok (.wrFrPop 0x00020001#32, [3#16]) := by rfl

/-- Addresses of no row of the register map: misaligned, in a hole, the last of the space. -/
theorem witness_RegisterMapRows :
    regAt 0x001#12 = none ∧ regAt 0x034#12 = none ∧ regAt 0x09C#12 = none ∧ regAt 0xFFC#12 = none := by decide

/-- A descriptor for each clause: kinds 100 and 111, and one reserved bit at each end of its field. -/
theorem witness_ReservedDescriptorsRefused :
    (4 ≤ ((0x8000#16).extractLsb' 13 3).toNat ∧ 4 ≤ ((0xFFFF#16).extractLsb' 13 3).toNat) ∧
      ((0x1000#16).extractLsb' 13 3 = 0b000#3 ∧ (0x1000#16).getLsbD 12 = true) ∧
      ((0x3FFF#16).extractLsb' 13 3 = 0b001#3 ∧ (0x3FFF#16).getLsbD 12 = true) ∧
      ((0x4002#16).extractLsb' 13 3 = 0b010#3 ∧ (0x4002#16).extractLsb' 1 12 ≠ 0#12) ∧
      ((0x5000#16).extractLsb' 13 3 = 0b010#3 ∧ (0x5000#16).extractLsb' 1 12 ≠ 0#12) ∧
      ((0x6001#16).extractLsb' 13 3 = 0b011#3 ∧ (0x6001#16).extractLsb' 0 13 ≠ 0#13) ∧
      ((0x7000#16).extractLsb' 13 3 = 0b011#3 ∧ (0x7000#16).extractLsb' 0 13 ≠ 0#13) ∧
      (placeWords State.reset .r [0x8000#16]).io.turns = [.port .r] ∧
      portWords (placeWords State.reset .r [0x8000#16]).io .r = [0x8000#16] := by decide

/-- The reset machine with words at one port and its agent's turn next. -/
def offered (p : Port) (ws : List Desc) : State := placeWords State.reset p ws

/-- A transaction of the port, one of another port, and words that spell none. -/
theorem witness_StepRunsDecodedTransaction :
    (offered .r [0#16]).io.turns = [.port .r] ∧
      decode (portWords (offered .r [0#16]).io .r) = .ok (.rdId, []) ∧ portOf .rdId = .r ∧
      (offered .s [0#16]).io.turns = [.port .s] ∧
      decode (portWords (offered .s [0#16]).io .s) = .ok (.rdId, []) ∧ portOf .rdId ≠ .s ∧
      (offered .f [0x8000#16]).io.turns = [.port .f] ∧ (offered .f [0x8000#16]).io.fHeld = false ∧
      decode (portWords (offered .f [0x8000#16]).io .f) = .error .reservedKind :=
  ⟨rfl, rfl, rfl, rfl, rfl, by decide, rfl, rfl, rfl⟩

/-- The reset machine with a held FTAKE and turns to come. -/
def waiting (turns : List Turn) : State :=
  { State.reset with io := { Io.idle with fHeld := true, turns := turns } }

theorem witness_HeldFtakeIsOfferedAgain :
    (waiting [.port .f]).io.turns = .port .f :: [] ∧ (waiting [.port .f]).io.fHeld = true := by decide

theorem witness_NoTransactionNoEffect :
    State.reset.io.turns = [] ∧ (waiting [.port .s]).io.turns = .port .s :: [] ∧
      portWords (waiting [.port .s]).io .s = [] := by decide

theorem witness_ResetInputPerformsReset : (waiting [.resetPin, .port .f]).io.turns = .resetPin :: [.port .f] := by decide

theorem witness_SoftReset : (0x00000006#32).getLsbD 2 = true := by decide

/-! #### Registers -/

/-- The parameters at both ends of their ranges are legal. -/
theorem witness_LegalisedRegisters :
    State.reset.params.Legal ∧ Params.Legal { nfWMax := 1, fqDepth := 1 } ∧
      Params.Legal { nfWMax := 65535, fqDepth := 255 } := by decide

theorem witness_ObservationRegisters :
    State.reset.blk.hist = [] ∧ (blockAt 1 (burst false)).hist = { mag := five, noise := one } :: [] := by decide

theorem witness_FrameWindowWords :
    State.reset.blk.fq = [] ∧ (atBlk twoFrames).blk.fq = frame 0#8 :: [frame 1#8] := by decide

/-- A misaligned address, one in a hole of the map, and the last word of the space. -/
theorem witness_BusErrors :
    (0x001#12).extractLsb' 0 2 ≠ 0#2 ∧ (0xFFF#12).extractLsb' 0 2 ≠ 0#2 ∧ (∀ r, regAddr r ≠ 0x034#12) ∧
      ∀ r, regAddr r ≠ 0xFFC#12 :=
  ⟨by decide, by decide, regAt_none.mp (by decide), regAt_none.mp (by decide)⟩

/-! #### SAMPLE and the arithmetic -/

theorem witness_DisabledSampleIgnored : State.reset.blk.en = false := by decide

theorem witness_EnabledSampleCompletes : (atBlk (inFlight true 479)).Inv ∧ (atBlk (inFlight true 479)).blk.en = true :=
  ⟨inFlight_long_inv, rfl⟩

/-- For SampleFrame and SampleStoresMagnitude: a NaN, an infinity and a value below zero in bypass, then the values
not counted. -/
theorem witness_SampleStoresMagnitude :
    (enabledIn .bypass).blk.en = true ∧ f32 0x7F800001#32 = .nan ∧ f32 0x7F800000#32 = .inf false ∧
      f32 0x80000001#32 = .fin true 1 ∧ f32 0x80000000#32 = .fin true 0 ∧ f32 0#32 = .fin false 0 ∧
      (nextOf (exec (.sample false 0#32 0x7F800001#32) (enabledIn .bypass))).isSome = true ∧
      (nextOf (exec (.sample true 0#32 0x7F800000#32) (enabledIn .bypass))).isSome = true ∧
      (nextOf (exec (.sample false 0#32 0x80000001#32) (enabledIn .bypass))).isSome = true ∧
      (nextOf (exec (.sample true 0#32 0x80000000#32) (enabledIn .bypass))).isSome = true ∧
      (nextOf (exec (.sample false 0#32 0#32) (enabledIn .bypass))).isSome = true := by decide +kernel

/-- The ends of each clause's range. -/
theorem witness_SanitizeByWord :
    (0x7F800000 < (0x7F800001#32).toNat % 2 ^ 31 ∧ 0x7F800000 < (0xFFFFFFFF#32).toNat % 2 ^ 31) ∧
      (0x80000000 < (0x80000001#32).toNat ∧ (0xFF800000#32).toNat ≤ 0xFF800000) ∧
      (0x7F7FFFFF#32).toNat < 0x7F800000 := by decide

/-- A tie (2^24 + 1), the last number that rounds to MAXF, and the first that rounds past it. -/
theorem witness_RoundingIsNearestEven :
    (2 ^ 24 + 1 < (2 ^ 277 - 2 ^ 252) * 2 ^ 0 ∧ roundTo false (2 ^ 24 + 1) 0 = .fin false (2 ^ 24) ∧
      Representable (2 ^ 24 + 2)) ∧
      roundTo true (2 ^ 277 - 2 ^ 252 - 1) 0 = .fin true (2 ^ 277 - 2 ^ 253) ∧
      Representable (2 ^ 277 - 2 ^ 253) ∧ roundTo true (2 ^ 277 - 2 ^ 252) 0 = .inf true := by decide +kernel

/-- An inexact sum, an exact zero sum, a product, and MAXF plus half of its last place, which overflows. -/
theorem witness_SumsAndProductsAreNearest :
    Representable 1 ∧ fadd (.fin false (2 ^ 24)) (.fin false 1) = .fin false (2 ^ 24) ∧
      fadd (.fin false 1) (.fin true 1) = .fin false 0 ∧
      fmul (.fin true (2 ^ 149)) (.fin false 3) = .fin true 3 ∧
      fadd (f32 maxF) (.fin false (2 ^ 252 - 1)) = f32 maxF ∧ fadd (f32 maxF) (.fin false (2 ^ 252)) = .inf false := by
  decide +kernel

/-- The ends of the range, a root beside a power of two, and representable values on either side of it. -/
theorem witness_SquareRootIsNearest :
    (0 < 1 ∧ 1 < two128 ∧ 0 < two128 - 1 ∧ two128 - 1 < two128) ∧
      fsqrt (f32 0x3F7FFFFF#32) = f32 0x3F7FFFFF#32 ∧ f32 0x3F7FFFFF#32 = .fin false (2 ^ 149 - 2 ^ 125) ∧
      Representable (2 ^ 149) ∧ Representable (2 ^ 149 - 2 ^ 126) := by decide +kernel

theorem witness_BitsOfValues :
    f32 0xFF800000#32 ≠ .nan ∧ Representable 0 ∧ Representable (2 ^ 24) ∧ Representable (two128 - 2 ^ 253) := by
  decide +kernel

/-- Both infinities, a negative value and the zeros are words the order speaks of. -/
theorem witness_ComparisonsAreOrdered :
    (0x7F800000#32).toNat % 2 ^ 31 ≤ 0x7F800000 ∧ (0xFF800000#32).toNat % 2 ^ 31 ≤ 0x7F800000 ∧
      (0xC1200000#32).toNat % 2 ^ 31 ≤ 0x7F800000 ∧ (0x80000000#32).toNat % 2 ^ 31 ≤ 0x7F800000 ∧
      fgt (f32 0xC0000000#32) (f32 0xC1200000#32) = true := by decide +kernel

/-- A first sample of a segment, and one of a window the segment does not yet fill. -/
theorem witness_MovingMinimumIsLeast :
    (atBlk (blockAt 0 (burst false))).Inv ∧ (atBlk (blockAt 3 (burst false))).Inv ∧
      (atBlk (blockAt 0 (burst false))).blk.nfMode = .movingMin ∧
      (atBlk (blockAt 3 (burst false))).blk.nfMode = .movingMin ∧
      (nextOf (exec (.sample false 0#32 five) (atBlk (blockAt 0 (burst false))))).isSome = true ∧
      (nextOf (exec (.sample false 0#32 five) (atBlk (blockAt 3 (burst false))))).isSome = true :=
  ⟨blockAt_inv 0 _ (burst_isMag false), blockAt_inv 3 _ (burst_isMag false), rfl, rfl, by decide +kernel,
    by decide +kernel⟩

/-- Three samples of a segment whose E is 1.0, with NF_MODE = 1. -/
def releasing : Block := { blockAt 3 (burst false) with nfMode := .release }

/-- No E; a magnitude below E, above it, and equal to it. -/
theorem witness_ReleaseEnvelope :
    (atBlk (blockAt 0 (burst false))).blk.env = none ∧ (atBlk releasing).Inv ∧ releasing.env = some one ∧
      flt (f32 0x3F000000#32) (f32 one) = true ∧ flt (f32 five) (f32 one) = false ∧ releasing.nfMode = .release ∧
      (endOf (exec (.sample false 0#32 one) (atBlk releasing))).blk.hist.head?.map HistEntry.mag = some one ∧
      (nextOf (exec (.sample false 0#32 five) (atBlk releasing))).isSome = true := by
  have hb := blockAt_base 3 (burst false) (burst_isMag false)
  exact ⟨rfl, ⟨by decide, ⟨⟨hb.window, hb.holdoff, hb.queue, hb.length, hb.mags, hb.noises, hb.envSet, hb.envOk,
    hb.guard, hb.hits, hb.seq, hb.frames, hb.order⟩, by intro d hd; cases hd⟩⟩, rfl, by decide +kernel,
    by decide +kernel, rfl, by decide +kernel, by decide +kernel⟩

/-! #### Correlator -/

/-- The youngest index with a score, and the oldest. -/
theorem witness_ScoreFormula :
    (31 ≤ ageOf (blockAt 48 (burst false)) 16#64 ∧ ageOf (blockAt 48 (burst false)) 16#64 < 48) ∧
      (31 ≤ ageOf (blockAt 48 (burst false)) 0#64 ∧ ageOf (blockAt 48 (burst false)) 0#64 < 48) ∧
      ¬31 ≤ ageOf (blockAt 48 (burst false)) 17#64 ∧ (blockAt 48 (burst false)).hist.length = 48 := by decide

theorem witness_QualifyBothBounds :
    (score (blockAt 48 (burst false)) 0#64).isSome = true ∧ noiseAt (blockAt 48 (burst false)) 0#64 = some one := by
  decide +kernel

/-- A burst's first sample is a local maximum; the sample 16 after it, the last that R167 rules out, is none. For
LocalMaximumTest and NoTwoMaximaWithin16. -/
theorem witness_LocalMaximumTest :
    localMax (blockAt 64 (burst false)) 0#64 = some true ∧ localMax (blockAt 64 (burst false)) 16#64 = some false ∧
      16 ≤ since (0#64 + BitVec.ofNat 64 16) (blockAt 64 (burst false)).segStart := by decide +kernel

/-- For CandidateTaken. -/
theorem witness_CandidateTaken :
    (blockAt 48 (burst false)).armed = true ∧ qualify (blockAt 48 (burst false)) 0#64 = some true ∧
      localMax (blockAt 48 (burst false)) 0#64 = some true ∧ noiseAt (blockAt 48 (burst false)) 0#64 = some one ∧
      score (blockAt 48 (burst false)) 0#64 = some (f32 0x41E00000#32) ∧
      foldSum (blockAt 48 (burst false)) 0#64 [0, 1, 4, 5, 14, 15, 18, 19] = some (f32 0x42200000#32) := by
  decide +kernel

theorem witness_CandidateSuppressed :
    (inFlight false 48).armed = false ∧ qualify (inFlight false 48) 0#64 = some true ∧
      localMax (inFlight false 48) 0#64 = some true := by decide +kernel

/-- A disarmed guard with its last hit at sample 0 and a hold-off that ends at the decided sample, then one later. -/
def guarded (holdoff : BitVec 16) : Block := { inFlight false 64 with demod := none, holdoff := holdoff }

theorem witness_GuardRearms :
    qualify (guarded 2#16) 2#64 = some false ∧ (guarded 2#16).armed = false ∧ (guarded 2#16).lastHit = some 0#64 ∧
      since 2#64 0#64 = 2 ∧ (guarded 3#16).holdoff.toNat = 3 ∧
      qualify (blockAt 64 (burst false)) 2#64 = some false ∧ (blockAt 64 (burst false)).armed = true ∧
      qualify { blockAt 64 (burst false) with tAbs := 0xC2C80000#32, kRel := 0xC2C80000#32 } 2#64 = some true ∧
      localMax { blockAt 64 (burst false) with tAbs := 0xC2C80000#32, kRel := 0xC2C80000#32 } 2#64 = some false := by
  decide +kernel

/-- `n` samples of a burst with the guard off since a hit at sample `h`, its frame completed. -/
def disarmed (n : Nat) (h : SampleNo) : Block :=
  { blockAt n (burst false) with armed := false, lastHit := some h }

theorem disarmed_inv (n : Nat) (h : SampleNo) : (atBlk (disarmed n h)).Inv where
  params := legal_default
  blk := by
    have hb := blockAt_base n (burst false) (burst_isMag false)
    exact ⟨⟨hb.window, hb.holdoff, hb.queue, hb.length, hb.mags, hb.noises, hb.envSet, hb.envOk,
      (by intro _ hl; cases hl), hb.hits, hb.seq, hb.frames, hb.order⟩, by intro d hd; cases hd⟩

/-- 49 samples of a burst under thresholds of -100.0, which every index exceeds. -/
def lowered : Block := { blockAt 49 (burst false) with tAbs := 0xC2C80000#32, kRel := 0xC2C80000#32 }

theorem lowered_inv : (atBlk lowered).Inv where
  params := legal_default
  blk := by
    have hb := blockAt_base 49 (burst false) (burst_isMag false)
    exact ⟨⟨hb.window, hb.holdoff, hb.queue, hb.length, hb.mags, hb.noises, hb.envSet, hb.envOk, hb.guard, hb.hits,
      hb.seq, hb.frames, hb.order⟩, by intro d hd; cases hd⟩

/-- The block a SAMPLE of magnitude 1.0 leaves. -/
def nextBlk (b : Block) : Block := (endOf (exec (.sample false 0#32 one) (atBlk b))).blk

/-- A 47th sample decides nothing. For SampleFrame too: it completes no frame and takes no hit. -/
theorem witness_DecisionTiming_early :
    since (blockAt 46 (burst false)).sidx (blockAt 46 (burst false)).segStart = 46 ∧
      (blockAt 46 (burst false)).demod = none ∧
      (nextOf (exec (.sample false 0#32 one) (atBlk (blockAt 46 (burst false))))).isSome = true ∧
      (nextBlk (blockAt 46 (burst false))).cntHit = 0#32 ∧ (nextBlk (blockAt 46 (burst false))).cntFrame = 0#32 := by
  decide +kernel

/-- The 48th sample of a burst decides its index 0, a candidate: taken with the guard on, suppressed with it off. -/
theorem witness_DecisionTiming_candidate :
    (atBlk (blockAt 47 (burst false))).Inv ∧ (atBlk (disarmed 47 0#64)).Inv ∧
      since (blockAt 47 (burst false)).sidx (blockAt 47 (burst false)).segStart = 47 ∧
      (blockAt 47 (burst false)).armed = true ∧ (disarmed 47 0#64).armed = false ∧
      qualify (nextBlk (blockAt 47 (burst false))) 0#64 = some true ∧
      localMax (nextBlk (blockAt 47 (burst false))) 0#64 = some true ∧
      qualify (nextBlk (disarmed 47 0#64)) 0#64 = some true ∧ localMax (nextBlk (disarmed 47 0#64)) 0#64 = some true ∧
      (nextBlk (blockAt 47 (burst false))).cntHit = 1#32 ∧ (nextBlk (disarmed 47 0#64)).cntSupp = 1#32 :=
  ⟨blockAt_inv 47 _ (burst_isMag false), disarmed_inv 47 0#64, by decide +kernel, rfl, rfl, by decide +kernel,
    by decide +kernel, by decide +kernel, by decide +kernel, by decide +kernel, by decide +kernel⟩

/-- An index that qualifies and is no local maximum; and one that does not qualify, 480 samples after the last hit,
where the guard re-arms, and 479 after it, where it does not. -/
theorem witness_DecisionTiming_other :
    (atBlk lowered).Inv ∧ qualify (nextBlk lowered) 2#64 = some true ∧ localMax (nextBlk lowered) 2#64 = some false ∧
      (atBlk (disarmed 60 (13#64 - 480#64))).Inv ∧ qualify (nextBlk (disarmed 60 (13#64 - 480#64))) 13#64 = some false ∧
      (nextBlk (disarmed 60 (13#64 - 480#64))).armed = true ∧ (nextBlk (disarmed 60 (13#64 - 479#64))).armed = false :=
  ⟨lowered_inv, by decide +kernel, by decide +kernel, disarmed_inv _ _, by decide +kernel, by decide +kernel,
    by decide +kernel⟩

theorem witness_HitFindsDemodulatorIdle :
    (atBlk (blockAt 47 (burst false))).Inv ∧
      (nextOf (exec (.sample false 0#32 one) (atBlk (blockAt 47 (burst false))))).map (fun t => t.blk.cntHit) =
        some 1#32 ∧ (atBlk (blockAt 47 (burst false))).blk.cntHit = 0#32 :=
  ⟨blockAt_inv 47 _ (burst_isMag false), by decide +kernel, rfl⟩

/-- A NaN in T_ABS, in K_REL and in EPS. -/
theorem witness_NanThresholdsDisable :
    f32 0x7FC00001#32 = .nan ∧
      (nextOf (exec (.sample false 0#32 one)
        (atBlk { blockAt 47 (burst false) with tAbs := 0x7FC00001#32 }))).isSome = true ∧
      (nextOf (exec (.sample true 0#32 one)
        (atBlk { blockAt 47 (burst false) with kRel := 0xFFC00001#32 }))).isSome = true := by decide +kernel

/-! #### Frames -/

/-- The magnitudes of a burst's payload after its last sample, 1.0. -/
def payload (long : Bool) (j : Nat) : Fp := f32 (burst long (32 + j))

/-- The magnitudes a segment holds. -/
theorem magAt_blockAt (n g : Nat) (f : Nat → Word) (hg : g < n) (hn : n < 2 ^ 64) :
    magAt (blockAt n f) (BitVec.ofNat 64 g) = some (f32 (f g)) := by
  have hage : ageOf (blockAt n f) (BitVec.ofNat 64 g) = n - 1 - g := by
    simp only [ageOf, since, blockAt, BitVec.toNat_sub, BitVec.toNat_ofNat]
    omega
  have hlt : n - 1 - g < n := by omega
  have hsub : n - 1 - (n - 1 - g) = g := by omega
  rw [magAt, entryAt, hage]
  simp [blockAt, hlt, hsub]

/-- A SAMPLE that leaves the history and the number of the segment one sample longer completes, and a burst's
magnitudes are then that segment's. -/
theorem magAt_after {long : Bool} {n : Nat} {o : Out}
    (h : (nextOf o).map (fun t => (t.blk.hist, t.blk.sidx)) =
      some ((blockAt (n + 1) (burst long)).hist, BitVec.ofNat 64 (n + 1))) (hn : n + 1 < 2 ^ 64) :
    (nextOf o).isSome = true ∧ ∀ j, 32 + j < n + 1 →
      magAt (endOf o).blk (burstHit.h + BitVec.ofNat 64 (32 + j)) = some (payload long j) := by
  rw [Option.map_eq_some_iff] at h
  obtain ⟨t, ht, h⟩ := h
  rw [Prod.mk.injEq] at h
  refine ⟨by simp [ht], fun j hj => ?_⟩
  have := magAt_blockAt (n + 1) (32 + j) (burst long) hj hn
  simpa [endOf, ht, magAt, entryAt, ageOf, h.1, h.2, burstHit, payload, blockAt] using this

/-- The last sample of the last bit of a 56-bit and of a 112-bit frame. -/
theorem witness_FrameRecordContents_short :
    (atBlk (inFlight false 255)).Inv ∧ (atBlk (inFlight false 255)).blk.demod = some burstHit ∧
      since (atBlk (inFlight false 255)).blk.sidx burstHit.h = 31 + 4 * 56 ∧
      (nextOf (exec (.sample false 0#32 one) (atBlk (inFlight false 255)))).isSome = true ∧
      ∀ j, 32 + j < 32 + 4 * 56 →
        magAt (endOf (exec (.sample false 0#32 one) (atBlk (inFlight false 255)))).blk
          (burstHit.h + BitVec.ofNat 64 (32 + j)) = some (payload false j) :=
  ⟨inFlight_short_inv, rfl, by decide +kernel, magAt_after (n := 255) (by decide +kernel) (by decide)⟩

theorem witness_FrameRecordContents_long :
    (atBlk (inFlight true 479)).Inv ∧ (atBlk (inFlight true 479)).blk.demod = some burstHit ∧
      since (atBlk (inFlight true 479)).blk.sidx burstHit.h = 31 + 4 * 112 ∧
      (nextOf (exec (.sample false 0#32 one) (atBlk (inFlight true 479)))).isSome = true ∧
      ∀ j, 32 + j < 32 + 4 * 112 →
        magAt (endOf (exec (.sample false 0#32 one) (atBlk (inFlight true 479)))).blk
          (burstHit.h + BitVec.ofNat 64 (32 + j)) = some (payload true j) :=
  ⟨inFlight_long_inv, rfl, by decide +kernel, magAt_after (n := 479) (by decide +kernel) (by decide)⟩

/-- A short burst in flight behind a queue of two frames, under an FQ_DEPTH of two. -/
def fullQueue : State :=
  { State.reset with
    params := { nfWMax := 4096, fqDepth := 2 }
    blk := { inFlight false 255 with fq := twoFrames.fq, seqCtr := 2#8, cntFrame := 2#32, cntHit := 3#32 } }

theorem fullQueue_inv : fullQueue.Inv where
  params := by
    show Params.Legal { nfWMax := 4096, fqDepth := 2 }
    decide
  blk := by
    have hb := inFlight_short_inv.blk
    have hq := twoFrames_inv.blk
    refine ⟨⟨hb.window, hb.holdoff, ?_, hb.length, hb.mags, hb.noises, hb.envSet, hb.envOk, hb.guard, ?_, ?_,
      hq.frames, hq.order⟩, fun d hd => ?_⟩
    · show 2 ≤ 2
      decide
    · show 3#32 = 2#32 + 0#32 + 1#32
      decide
    · show 2#8 = (2#32).setWidth 8
      decide
    · have h := hb.demod d hd
      exact ⟨h.disarmed, h.last, h.decided, h.held, h.unfinished, h.pending⟩

/-- The frame that completes behind a full queue. -/
theorem witness_FrameRecordContents_full :
    fullQueue.Inv ∧ fullQueue.blk.fq.length = fullQueue.params.fqDepth ∧ fullQueue.blk.demod = some burstHit ∧
      since fullQueue.blk.sidx burstHit.h = 31 + 4 * 56 ∧
      (endOf (exec (.sample false 0#32 one) fullQueue)).blk.cntFqdrop = 1#32 :=
  ⟨fullQueue_inv, rfl, rfl, by decide +kernel, by decide +kernel⟩

/-- The Downlink Format of each payload gives its length. -/
theorem witness_FrameRecordContents_df :
    (∀ k, k < 5 → fgt (fadd (payload false (4 * k)) (payload false (4 * k + 1)))
      (fadd (payload false (4 * k + 2)) (payload false (4 * k + 3))) = false) ∧
      ∀ k, k < 5 → fgt (fadd (payload true (4 * k)) (payload true (4 * k + 1)))
        (fadd (payload true (4 * k + 2)) (payload true (4 * k + 3))) = (decide (k = 0) || decide (k = 4)) := by
  decide +kernel

/-- A SAMPLE that completes a frame, and the one before it, which keeps the demodulation. -/
theorem witness_FrameCompletionTiming :
    (atBlk (inFlight false 255)).Inv ∧ (atBlk (inFlight false 254)).Inv ∧
      (endOf (exec (.sample false 0#32 one) (atBlk (inFlight false 255)))).blk.cntFrame = 1#32 ∧
      (endOf (exec (.sample false 0#32 one) (atBlk (inFlight false 254)))).blk.demod = some burstHit :=
  ⟨inFlight_short_inv, inFlight_inv false 254 0#5 (by decide) (by decide) (by decide +kernel), by decide +kernel,
    by decide +kernel⟩

theorem witness_EnqueueDropsOldest :
    twoFrames.fq.length < Params.default.fqDepth ∧ twoFrames.fq = frame 0#8 :: [frame 1#8] ∧
      twoFrames.fq.length = ({ nfWMax := 1, fqDepth := 2 } : Params).fqDepth := by decide

theorem witness_FlushEndsSegment :
    (nextOf (exec (.sample false 0#32 one) (atBlk (inFlight false 255)))).isSome = true ∧
      (0x23#32).getLsbD 2 = false ∧ (0x23#32).getLsbD 1 = true := by decide +kernel

/-- The ends of the ranges of the pulse sum. -/
theorem witness_SignalLevelFormula :
    4 ≤ (0x02000000#32).toNat / 2 ^ 23 ∧ (0x7F7FFFFF#32).toNat / 2 ^ 23 ≤ 254 ∧ (0x01FFFFFF#32).toNat < 2 ^ 25 := by
  decide

theorem witness_FtakeTakesHead : (atBlk twoFrames).blk.fq = frame 0#8 :: [frame 1#8] ∧ State.reset.blk.fq = [] := by
  decide

/-- A reset and an FR_POP while an FTAKE is held. -/
theorem witness_HeldFtakeKeepsWaiting :
    (nextOf (exec (.wrCtrl 4#32) (waiting []))).isSome = true ∧
      (nextOf (exec (.wrFrPop 0#32) (waiting []))).isSome = true ∧ (waiting []).io.fHeld = true := by decide

/-! #### Rules of the whole machine -/

/-- For StepKeepsInvariant, StepNeverFaults and ParametersNeverChange: the last SAMPLE of a frame, as a step. -/
theorem witness_StepKeepsInvariant :
    (placeWords (atBlk (inFlight false 255)) .s (encode (.sample false 0#32 one))).Inv ∧
      (nextOf (step (placeWords (atBlk (inFlight false 255)) .s (encode (.sample false 0#32 one))))).isSome = true :=
  ⟨⟨inFlight_short_inv.params, inFlight_short_inv.blk⟩, by decide +kernel⟩

/-- A bus error, a configuration write and a soft reset that change what they may. -/
theorem witness_OnlyTheirOwnTransactions :
    (endOf (exec (.rdBuserr 0x001#12) State.reset)).blk.cntBuserr ≠ State.reset.blk.cntBuserr ∧
      (endOf (exec (.wrTAbs 0#32) State.reset)).blk.tAbs ≠ State.reset.blk.tAbs ∧
      (endOf (exec (.wrKRel 0#32) State.reset)).blk.kRel ≠ State.reset.blk.kRel ∧
      (endOf (exec (.wrEps 1#32) State.reset)).blk.eps ≠ State.reset.blk.eps ∧
      (endOf (exec (.wrNfWindow 0#32) State.reset)).blk.nfWindow ≠ State.reset.blk.nfWindow ∧
      (endOf (exec (.wrNfShift 0#32) State.reset)).blk.nfShift ≠ State.reset.blk.nfShift ∧
      (endOf (exec (.wrHoldoff 0xFFFF#32) State.reset)).blk.holdoff ≠ State.reset.blk.holdoff ∧
      (endOf (exec (.wrCtrl 0x79#32) State.reset)).blk.en ≠ State.reset.blk.en ∧
      (endOf (exec (.wrCtrl 0x79#32) State.reset)).blk.ie ≠ State.reset.blk.ie ∧
      (endOf (exec (.wrCtrl 0x10#32) State.reset)).blk.magMode ≠ State.reset.blk.magMode ∧
      (endOf (exec (.wrCtrl 0x79#32) State.reset)).blk.nfMode ≠ State.reset.blk.nfMode ∧
      (nextOf (exec (.ftake) State.reset)).isSome = true := by decide

theorem witness_FramesLeaveInOrder :
    (atBlk twoFrames).Inv ∧ (atBlk twoFrames).blk.fq = frame 0#8 :: frame 1#8 :: [] ∧
      (nextOf (exec .ftake (atBlk twoFrames))).isSome = true ∧
      (nextOf (exec .ftake (endOf (exec .ftake (atBlk twoFrames))))).isSome = true :=
  ⟨twoFrames_inv, rfl, by decide, by decide⟩

/-- Two segments of 481 samples that differ only in their first, with NF_WMAX = 480 and NF_WINDOW = 480. -/
def oldest (m : Word) : State :=
  { State.reset with
    params := { nfWMax := 480, fqDepth := 8 }
    blk := { blockAt 481 (fun g => if g = 0 then m else one) with nfWindow := 480#32 } }

theorem oldest_inv (m : Word) (hm : IsMag m) : (oldest m).Inv where
  params := by
    show Params.Legal { nfWMax := 480, fqDepth := 8 }
    decide
  blk := by
    have hb := blockAt_base 481 (fun g => if g = 0 then m else one) (by intro g; split; exact hm; decide)
    refine ⟨⟨?_, hb.holdoff, hb.queue, hb.length, hb.mags, hb.noises, hb.envSet, hb.envOk, hb.guard, hb.hits,
      hb.seq, hb.frames, hb.order⟩, by intro d hd; cases hd⟩
    show 1 ≤ (480#32).toNat ∧ (480#32).toNat ≤ max 480 4000
    decide

theorem witness_OldHistoryHasNoEffect :
    (oldest one).Inv ∧ (oldest five).Inv ∧ (oldest five).blk.hist[480]? = some { mag := five, noise := one } ∧
      (oldest one).blk.hist[480]? = some { mag := one, noise := one } ∧
      (oldest five).blk.hist.length = (oldest one).blk.hist.length ∧
      ((oldest five).blk.hist.map HistEntry.mag).take (max 480 480) =
        ((oldest one).blk.hist.map HistEntry.mag).take (max 480 480) ∧
      ((oldest five).blk.hist.map HistEntry.noise).take 48 = ((oldest one).blk.hist.map HistEntry.noise).take 48 ∧
      (oldest one).blk.nfWindow.toNat ≤ 480 ∧
      (oldest one).blk.en = true ∧ (nextOf (exec (.sample false 0#32 one) (oldest one))).isSome = true ∧
      (nextOf (exec (.sample true 0#32 one) (oldest one))).isSome = true ∧ (atBlk twoFrames).Inv ∧
      (atBlk twoFrames).blk.en = false :=
  ⟨oldest_inv _ (by decide), oldest_inv _ (by decide), by decide +kernel, by decide +kernel, by decide +kernel,
    by decide +kernel, by decide +kernel, by decide +kernel, rfl, by decide +kernel, by decide +kernel, twoFrames_inv,
    rfl⟩

end Sys2Proof.Tests
end

/-! ## The one rounding of an operation (00_scope.md R9)

An exact result of `n / 2^k` units is rounded to `R` steps of `2^d` units. A representable value off that grid has
more precision than the steps, so it lies below the least value with the step `2^d`, which is on the grid: the
nearest point of the grid is therefore the nearest representable value. -/

namespace Sys2Proof.Machine

/-! ### The quantum of a number of units -/

theorem le_excess_of_two_pow_le {d n : Nat} (h : 2 ^ (23 + d) ≤ n) : d ≤ excess n := by
  have hn : n ≠ 0 := by
    have : 0 < 2 ^ (23 + d) := by positivity
    omega
  have hlog : 23 + d ≤ n.log2 := (Nat.le_log2 hn).2 h
  simp only [excess]
  omega

theorem two_pow_le_of_excess_pos {n : Nat} (h : 0 < excess n) : 2 ^ (23 + excess n) ≤ n := by
  simp only [excess] at h ⊢
  have hn : n ≠ 0 := by
    rintro rfl
    simp at h
  exact (Nat.le_log2 hn).1 (by omega)

theorem dvd_of_representable {v d : Nat} (hv : Representable v) (h : 2 ^ (23 + d) ≤ v) : 2 ^ d ∣ v :=
  (pow_dvd_pow 2 (le_excess_of_two_pow_le h)).trans hv.2

theorem excess_two_pow_24 (d : Nat) : excess (2 ^ 24 * 2 ^ d) = d + 1 := by
  rw [← pow_add, excess, Nat.log2_two_pow]
  omega

theorem two_pow_excess_dvd {m : Nat} (d : Nat) (hm : m ≤ 2 ^ 24) : 2 ^ excess (m * 2 ^ d) ∣ m * 2 ^ d := by
  obtain hlt | rfl := hm.lt_or_eq
  · have he : excess (m * 2 ^ d) ≤ d := excess_le (Nat.mul_lt_mul_of_pos_right hlt (by positivity))
    exact (pow_dvd_pow 2 he).trans (Nat.dvd_mul_left _ _)
  · rw [excess_two_pow_24, ← pow_add]
    exact pow_dvd_pow 2 (by omega)

theorem even_significand {m : Nat} (d : Nat) (hm : m ≤ 2 ^ 24) (he : m % 2 = 0) :
    m * 2 ^ d / 2 ^ excess (m * 2 ^ d) % 2 = 0 := by
  have hdvd : 2 ^ (excess (m * 2 ^ d) + 1) ∣ m * 2 ^ d := by
    obtain hlt | rfl := hm.lt_or_eq
    · have hle : excess (m * 2 ^ d) ≤ d := excess_le (Nat.mul_lt_mul_of_pos_right hlt (by positivity))
      calc 2 ^ (excess (m * 2 ^ d) + 1) ∣ 2 ^ (d + 1) := pow_dvd_pow 2 (by omega)
        _ = 2 * 2 ^ d := by ring
        _ ∣ m * 2 ^ d := Nat.mul_dvd_mul_right (Nat.dvd_of_mod_eq_zero he) _
    · rw [excess_two_pow_24, ← pow_add]
      exact pow_dvd_pow 2 (by omega)
  rw [pow_succ] at hdvd
  exact Nat.mod_eq_zero_of_dvd (Nat.dvd_div_of_mul_dvd hdvd)

/-! ### Rounding to a multiple of a power of two -/

theorem roundEven_le (n q : Nat) : roundEven n q ≤ n / 2 ^ q + 1 := by
  simp only [roundEven]
  split <;> omega

/-- The rounded number of steps is at most half a step off, and even where it is exactly half a step off. -/
theorem roundEven_half_step (n q : Nat) :
    2 * n ≤ (2 * roundEven n q + 1) * 2 ^ q ∧ 2 * (roundEven n q * 2 ^ q) ≤ 2 * n + 2 ^ q ∧
      (2 * n = (2 * roundEven n q + 1) * 2 ^ q ∨ 2 * (roundEven n q * 2 ^ q) = 2 * n + 2 ^ q →
        roundEven n q % 2 = 0) := by
  have hn : n = n / 2 ^ q * 2 ^ q + n % 2 ^ q := (Nat.div_add_mod' n (2 ^ q)).symm
  have hr : n % 2 ^ q < 2 ^ q := Nat.mod_lt _ (by positivity)
  simp only [roundEven]
  split
  · next hup => grind
  · next hdown => grind

/-- No multiple of the step is nearer than one at most half a step off, and one equally near is half a step off. -/
theorem nearest_multiple {Q n R : ℤ} (h : 2 * |R * Q - n| ≤ Q) (w : ℤ) :
    |R * Q - n| ≤ |w * Q - n| ∧ (w ≠ R → |R * Q - n| = |w * Q - n| → 2 * |R * Q - n| = Q) := by
  by_cases hw : w = R
  · simp [hw]
  · have hQ : 0 ≤ Q := le_trans (by positivity) h
    have hstep : Q ≤ |w * Q - R * Q| := by
      rw [← sub_mul, abs_mul, abs_of_nonneg hQ]
      exact le_mul_of_one_le_left hQ (Int.one_le_abs (sub_ne_zero.2 hw))
    have htri : |w * Q - R * Q| ≤ |w * Q - n| + |R * Q - n| := by
      rw [abs_sub_comm (R * Q)]
      exact abs_sub_le _ _ _
    exact ⟨by linarith, fun _ he => by linarith⟩

/-! ### The result of a rounding -/

/-- The exponent of the step of a rounding, counted in the units of `n`: the digits of `n` it takes off. -/
def stepExp (n k : Nat) : Nat := max k (excess n)

/-- The units of a rounding's result, before those from 2^128 up become an infinity. -/
def roundedUnits (n k : Nat) : Nat := roundEven n (stepExp n k) * 2 ^ (stepExp n k - k)

theorem roundTo_eq (neg : Bool) (n k : Nat) :
    roundTo neg n k = if roundedUnits n k < two128 then .fin neg (roundedUnits n k) else .inf neg := by
  simp only [roundTo]
  rfl

theorem roundedUnits_mul (n k : Nat) :
    roundedUnits n k * 2 ^ k = roundEven n (stepExp n k) * 2 ^ stepExp n k := by
  have hk : k ≤ stepExp n k := le_max_left _ _
  rw [roundedUnits, mul_assoc, ← pow_add, Nat.sub_add_cancel hk]

theorem roundEven_stepExp_le (n k : Nat) : roundEven n (stepExp n k) ≤ 2 ^ 24 := by
  have hmono : n / 2 ^ stepExp n k ≤ n / 2 ^ excess n :=
    Nat.div_le_div_left (Nat.pow_le_pow_right (by norm_num) (le_max_right _ _)) (by positivity)
  have hsig : n / 2 ^ excess n < 2 ^ 24 := div_excess_lt n
  have hle : roundEven n (stepExp n k) ≤ n / 2 ^ stepExp n k + 1 := roundEven_le n _
  omega

/-- Where the result's step is more than one unit, it is set by the number of digits of `n`. -/
theorem two_pow_stepExp_le {n k : Nat} (h : k < stepExp n k) : 2 ^ 23 * 2 ^ stepExp n k ≤ n := by
  have hq : stepExp n k = excess n := max_eq_right (by simp only [stepExp] at h; omega)
  rw [← pow_add, hq]
  exact two_pow_le_of_excess_pos (by omega)

theorem two_mul_abs_roundEven_sub (n q : Nat) :
    2 * |(roundEven n q : ℤ) * 2 ^ q - n| ≤ 2 ^ q ∧
      (2 * |(roundEven n q : ℤ) * 2 ^ q - n| = 2 ^ q → roundEven n q % 2 = 0) := by
  obtain ⟨hlow, hhigh, htie⟩ := roundEven_half_step n q
  zify at hlow hhigh
  have hscale : 2 * |(roundEven n q : ℤ) * 2 ^ q - n| = |2 * ((roundEven n q : ℤ) * 2 ^ q) - 2 * n| := by
    rw [← mul_sub, abs_mul, abs_two]
  rw [hscale]
  refine ⟨abs_le.2 ⟨by linarith, by linarith⟩, fun he => htie ?_⟩
  zify
  obtain h | h := eq_or_eq_neg_of_abs_eq he
  · exact .inr (by linarith)
  · exact .inl (by linarith)

/-- The result is the nearest representable value, and of two equally near the one with the even significand. -/
theorem roundedUnits_nearest (n k : Nat) {v : Nat} (hv : Representable v) :
    |(roundedUnits n k : ℤ) * 2 ^ k - n| ≤ |(v : ℤ) * 2 ^ k - n| ∧
      (v ≠ roundedUnits n k → |(roundedUnits n k : ℤ) * 2 ^ k - n| = |(v : ℤ) * 2 ^ k - n| →
        roundedUnits n k / 2 ^ excess (roundedUnits n k) % 2 = 0) := by
  obtain ⟨hhalf, htie⟩ := two_mul_abs_roundEven_sub n (stepExp n k)
  have hu : (roundedUnits n k : ℤ) * 2 ^ k = roundEven n (stepExp n k) * 2 ^ stepExp n k := by
    exact_mod_cast roundedUnits_mul n k
  have hkd : stepExp n k - k + k = stepExp n k := Nat.sub_add_cancel (le_max_left _ _)
  rw [hu]
  by_cases hgrid : 2 ^ (stepExp n k - k) ∣ v
  · -- v is a multiple of the step
    obtain ⟨w, rfl⟩ := hgrid
    have hw : ((2 ^ (stepExp n k - k) * w : ℕ) : ℤ) * 2 ^ k = w * 2 ^ stepExp n k := by
      push_cast
      rw [mul_comm, ← mul_assoc, ← pow_add, Nat.add_comm, hkd, mul_comm]
    rw [hw]
    obtain ⟨hle, heq⟩ := nearest_multiple hhalf w
    refine ⟨hle, fun hne he => even_significand _ (roundEven_stepExp_le n k) (htie (heq ?_ he))⟩
    intro hwR
    rw [Int.natCast_inj] at hwR
    exact hne (by rw [roundedUnits, hwR, mul_comm])
  · -- v lies below 2^23 steps, which is nearer
    have hbelow : v < 2 ^ 23 * 2 ^ (stepExp n k - k) := by
      rw [← pow_add]
      exact lt_of_not_ge fun h => hgrid (dvd_of_representable hv h)
    have hpos : k < stepExp n k := by
      by_contra hle
      rw [Nat.sub_eq_zero_of_le (by omega)] at hgrid
      exact hgrid (one_dvd v)
    have hn : 2 ^ 23 * 2 ^ stepExp n k ≤ n := two_pow_stepExp_le hpos
    have hv23 : v * 2 ^ k < 2 ^ 23 * 2 ^ stepExp n k := by
      calc v * 2 ^ k < 2 ^ 23 * 2 ^ (stepExp n k - k) * 2 ^ k := Nat.mul_lt_mul_of_pos_right hbelow (by positivity)
        _ = 2 ^ 23 * 2 ^ stepExp n k := by rw [mul_assoc, ← pow_add, hkd]
    zify at hn hv23
    have hnear := (nearest_multiple hhalf (2 ^ 23)).1
    have hlt : |(roundEven n (stepExp n k) : ℤ) * 2 ^ stepExp n k - n| < |(v : ℤ) * 2 ^ k - n| := by
      rw [abs_of_nonpos (by linarith : (2 : ℤ) ^ 23 * 2 ^ stepExp n k - n ≤ 0)] at hnear
      rw [abs_of_nonpos (by linarith : (v : ℤ) * 2 ^ k - n ≤ 0)]
      linarith
    exact ⟨hlt.le, fun _ he => absurd he hlt.ne⟩

theorem overflow_units : 2 ^ 277 - 2 ^ 252 = (2 ^ 25 - 1) * 2 ^ 252 := by
  rw [Nat.sub_mul, one_mul, ← pow_add]

theorem two_mul_overflow_units (k : Nat) :
    2 * ((2 ^ 277 - 2 ^ 252) * 2 ^ k) = (2 ^ 25 - 1) * 2 ^ (253 + k) := by
  rw [overflow_units, pow_add]
  ring

theorem two128_le_roundedUnits {n k : Nat} (h : (2 ^ 277 - 2 ^ 252) * 2 ^ k ≤ n) : two128 ≤ roundedUnits n k := by
  obtain ⟨hlow, -, htie⟩ := roundEven_half_step n (stepExp n k)
  have hexc : 253 + k ≤ excess n := by
    apply le_excess_of_two_pow_le
    calc 2 ^ (23 + (253 + k)) = 2 ^ 24 * (2 ^ 252 * 2 ^ k) := by
          rw [← pow_add, ← pow_add]
          congr 1
          omega
      _ ≤ (2 ^ 25 - 1) * (2 ^ 252 * 2 ^ k) := Nat.mul_le_mul_right _ (by norm_num)
      _ ≤ n := by rwa [← Nat.mul_assoc, ← overflow_units]
  have hq : stepExp n k = excess n := max_eq_right (by omega)
  have hpos : 0 < 2 ^ stepExp n k := by positivity
  rw [two128_eq, roundedUnits]
  obtain heq | hgt := hexc.eq_or_lt
  · -- the last binade: a significand of 2^24 - 1 would be odd and half a step off
    have hd : stepExp n k - k = 253 := by omega
    have hn : (2 ^ 25 - 1) * 2 ^ stepExp n k ≤ 2 * n := by
      calc (2 ^ 25 - 1) * 2 ^ stepExp n k = 2 * ((2 ^ 277 - 2 ^ 252) * 2 ^ k) := by
            rw [hq, ← heq, two_mul_overflow_units]
        _ ≤ 2 * n := Nat.mul_le_mul_left _ h
    have hR : 2 ^ 25 - 1 ≤ 2 * roundEven n (stepExp n k) + 1 := Nat.le_of_mul_le_mul_right (hn.trans hlow) hpos
    have hne : roundEven n (stepExp n k) ≠ 2 ^ 24 - 1 := by
      intro hodd
      have heven := htie (.inl (le_antisymm hlow (by rw [hodd]; exact hn)))
      rw [hodd] at heven
      exact absurd heven (by decide)
    rw [hd]
    exact Nat.mul_le_mul_right _ (by omega)
  · -- a wider step
    have hn : 2 ^ 23 * 2 ^ stepExp n k ≤ n := two_pow_stepExp_le (by omega)
    have hR : 2 ^ 24 ≤ 2 * roundEven n (stepExp n k) + 1 := by
      refine Nat.le_of_mul_le_mul_right (le_trans ?_ hlow) hpos
      calc 2 ^ 24 * 2 ^ stepExp n k = 2 * (2 ^ 23 * 2 ^ stepExp n k) := by ring
        _ ≤ 2 * n := Nat.mul_le_mul_left _ hn
    calc 2 ^ 24 * 2 ^ 253 = 2 ^ 23 * 2 ^ 254 := by norm_num
      _ ≤ roundEven n (stepExp n k) * 2 ^ (stepExp n k - k) :=
          Nat.mul_le_mul (by omega) (Nat.pow_le_pow_right (by norm_num) (by omega))

theorem roundedUnits_lt_two128 {n k : Nat} (h : n < (2 ^ 277 - 2 ^ 252) * 2 ^ k) : roundedUnits n k < two128 := by
  by_contra hge
  rw [not_lt, two128_eq, roundedUnits] at hge
  obtain ⟨-, hhigh, -⟩ := roundEven_half_step n (stepExp n k)
  have hR : roundEven n (stepExp n k) ≤ 2 ^ 24 := roundEven_stepExp_le n k
  have hlarge : 253 ≤ stepExp n k - k := by
    have := Nat.le_of_mul_le_mul_left (hge.trans (Nat.mul_le_mul_right _ hR)) (by positivity)
    exact (Nat.pow_le_pow_iff_right (by norm_num)).1 this
  have hn : 2 ^ 23 * 2 ^ stepExp n k ≤ n := two_pow_stepExp_le (by omega)
  have hsmall : stepExp n k < 254 + k := by
    have : 2 ^ 23 * 2 ^ stepExp n k < 2 ^ 23 * 2 ^ (254 + k) := by
      calc 2 ^ 23 * 2 ^ stepExp n k ≤ n := hn
        _ < (2 ^ 277 - 2 ^ 252) * 2 ^ k := h
        _ ≤ 2 ^ 277 * 2 ^ k := Nat.mul_le_mul_right _ (Nat.sub_le _ _)
        _ = 2 ^ 23 * 2 ^ (254 + k) := by rw [← pow_add, ← pow_add, ← Nat.add_assoc]
    exact (Nat.pow_lt_pow_iff_right (by norm_num)).1 (Nat.lt_of_mul_lt_mul_left this)
  have hq : stepExp n k = 253 + k := by omega
  have hlast : 2 ^ 24 ≤ roundEven n (stepExp n k) := by
    rw [hq, Nat.add_sub_cancel] at hge
    rw [hq]
    exact Nat.le_of_mul_le_mul_right hge (by positivity)
  have hbelow : 2 * n < (2 ^ 25 - 1) * 2 ^ stepExp n k := by
    calc 2 * n < 2 * ((2 ^ 277 - 2 ^ 252) * 2 ^ k) := Nat.mul_lt_mul_of_pos_left h (by norm_num)
      _ = (2 ^ 25 - 1) * 2 ^ stepExp n k := by
          rw [hq, two_mul_overflow_units]
  have habove : 2 ^ 24 * 2 ^ stepExp n k ≤ roundEven n (stepExp n k) * 2 ^ stepExp n k :=
    Nat.mul_le_mul_right _ hlast
  omega

theorem roundedUnits_representable {n k : Nat} (h : n < (2 ^ 277 - 2 ^ 252) * 2 ^ k) :
    Representable (roundedUnits n k) :=
  ⟨roundedUnits_lt_two128 h, two_pow_excess_dvd _ (roundEven_stepExp_le n k)⟩

theorem roundTo_finite (neg : Bool) {n k : Nat} (h : n < (2 ^ 277 - 2 ^ 252) * 2 ^ k) :
    roundTo neg n k = .fin neg (roundedUnits n k) := by
  rw [roundTo_eq, if_pos (roundedUnits_lt_two128 h)]

theorem roundTo_overflow (neg : Bool) {n k : Nat} (h : (2 ^ 277 - 2 ^ 252) * 2 ^ k ≤ n) :
    roundTo neg n k = .inf neg := by
  rw [roundTo_eq, if_neg (two128_le_roundedUnits h).not_gt]

/-- Settles O29: the rounded number of steps is the nearest, and representable values off the grid are farther. -/
theorem roundingIsNearestEven : Obligations.RoundingIsNearestEven := fun neg n k =>
  ⟨fun h => ⟨roundedUnits n k, roundTo_finite neg h, roundedUnits_representable h,
    fun _ hv => roundedUnits_nearest n k hv⟩, roundTo_overflow neg⟩

end Sys2Proof.Machine

/-! ## Sums and products (00_scope.md R9)

A rounding of `n / 2^k` units, with its sign, is RoundsTo of the rational number it stands for; fadd, fsub and fmul of
finite values are the roundings of their exact results. -/

namespace Sys2Proof.Machine

/-! ### The rational number of a signed number of units -/

/-- The rational number that `n / 2^k` units with a sign stand for. -/
def exactValue (neg : Bool) (n k : Nat) : ℚ := (signed neg n : ℚ) / 2 ^ (149 + k)

theorem valueOf_fin (neg : Bool) (u k : Nat) : valueOf (.fin neg u) = exactValue neg (u * 2 ^ k) k := by
  have hs : signed neg (u * 2 ^ k) = signed neg u * 2 ^ k := by
    cases neg <;> simp [signed]
  rw [valueOf, exactValue, hs, pow_add]
  push_cast
  rw [mul_div_mul_right _ _ (by positivity)]

theorem abs_signed (neg : Bool) (n : Nat) : |signed neg n| = n := by
  cases neg <;> simp [signed]

theorem abs_signed_sub_same (neg : Bool) (a n : Nat) : |signed neg a - signed neg n| = |(a : ℤ) - n| := by
  cases neg
  · rfl
  · rw [abs_sub_comm (a : ℤ)]
    simp only [signed, if_true, neg_sub_neg]

/-- A value of the other sign is farther from a number than zero is, by its own size. -/
theorem abs_signed_sub_opposite {d neg : Bool} (h : d ≠ neg) (a n : Nat) :
    |signed d a - signed neg n| = a + n := by
  cases d <;> cases neg <;> simp only [signed, if_true, Bool.false_eq_true, if_false, ne_eq, not_true_eq_false] at h ⊢
  · rw [abs_of_nonneg (by omega)]
    omega
  · rw [abs_of_nonpos (by omega)]
    omega

theorem abs_exactValue (neg : Bool) (n k : Nat) : |exactValue neg n k| = n / 2 ^ (149 + k) := by
  rw [exactValue, abs_div, abs_of_pos (by positivity : (0 : ℚ) < 2 ^ (149 + k)), ← Int.cast_abs, abs_signed]
  rfl

theorem abs_valueOf_sub (d neg : Bool) (v n k : Nat) :
    |valueOf (.fin d v) - exactValue neg n k| = (|signed d (v * 2 ^ k) - signed neg n| : ℤ) / 2 ^ (149 + k) := by
  rw [valueOf_fin d v k, exactValue, exactValue, ← sub_div, abs_div,
    abs_of_pos (by positivity : (0 : ℚ) < 2 ^ (149 + k)), ← Int.cast_sub, Int.cast_abs]

theorem abs_exactValue_lt_iff (neg : Bool) (n k : Nat) :
    |exactValue neg n k| < 2 ^ 128 - 2 ^ 103 ↔ n < (2 ^ 277 - 2 ^ 252) * 2 ^ k := by
  have hcast : (2 ^ 128 - 2 ^ 103 : ℚ) * 2 ^ (149 + k) = ((2 ^ 277 - 2 ^ 252) * 2 ^ k : ℕ) := by
    rw [overflow_units, pow_add]
    push_cast
    ring
  rw [abs_exactValue, div_lt_iff₀ (by positivity), hcast, Nat.cast_lt]

/-! ### A rounding rounds the number it is given -/

theorem representable_zero : Representable 0 := ⟨two128_pos, dvd_zero _⟩

/-- The nearest value among those of both signs: one of the other sign is no nearer than zero. -/
theorem roundedUnits_nearest_signed (neg d : Bool) (n k : Nat) {v : Nat} (hv : Representable v) :
    |(roundedUnits n k : ℤ) * 2 ^ k - n| ≤ |signed d (v * 2 ^ k) - signed neg n| ∧
      (signed d v ≠ signed neg (roundedUnits n k) →
        |(roundedUnits n k : ℤ) * 2 ^ k - n| = |signed d (v * 2 ^ k) - signed neg n| →
        roundedUnits n k / 2 ^ excess (roundedUnits n k) % 2 = 0) := by
  by_cases hd : d = neg
  · subst hd
    obtain ⟨hle, htie⟩ := roundedUnits_nearest n k hv
    rw [abs_signed_sub_same]
    push_cast
    exact ⟨hle, fun hne he => htie (fun h => hne (by rw [h])) he⟩
  · obtain ⟨hle, htie⟩ := roundedUnits_nearest n k representable_zero
    have hzero : |((0 : ℕ) : ℤ) * 2 ^ k - n| = n := by simp
    rw [hzero] at hle htie
    rw [abs_signed_sub_opposite hd]
    refine ⟨by omega, fun hne he => htie ?_ (by omega)⟩
    intro hu
    have hvk : v * 2 ^ k = 0 := by omega
    have hv0 : v = 0 := (Nat.mul_eq_zero.1 hvk).resolve_right (by positivity)
    refine hne ?_
    rw [hv0, ← hu]
    cases d <;> cases neg <;> rfl

theorem valueOf_fin_ne_iff (d neg : Bool) (v u : Nat) :
    valueOf (.fin d v) ≠ valueOf (.fin neg u) ↔ signed d v ≠ signed neg u := by
  rw [ne_eq, valueOf, valueOf, div_left_inj' (by positivity), Int.cast_inj]

theorem roundTo_roundsTo (neg : Bool) (n k : Nat) : RoundsTo (roundTo neg n k) neg (exactValue neg n k) := by
  refine ⟨fun h => ?_, fun h => ?_⟩
  · rw [abs_exactValue_lt_iff] at h
    rw [roundTo_finite neg h]
    refine ⟨_, rfl, roundedUnits_representable h, fun d v hv => ?_⟩
    obtain ⟨hle, htie⟩ := roundedUnits_nearest_signed neg d n k hv
    rw [abs_valueOf_sub, abs_valueOf_sub, abs_signed_sub_same, valueOf_fin_ne_iff,
      div_le_div_iff_of_pos_right (by positivity), div_left_inj' (by positivity), Int.cast_le, Int.cast_inj]
    push_cast
    exact ⟨hle, htie⟩
  · rw [← not_lt, abs_exactValue_lt_iff, not_lt] at h
    exact roundTo_overflow neg h

/-! ### The operations -/

theorem roundTo_zero (neg : Bool) : roundTo neg 0 0 = .fin neg 0 := by
  have h : roundedUnits 0 0 = 0 := by decide
  rw [roundTo_eq, h, if_pos two128_pos]

/-- The sign of a sum of finite values: its own, and the given one where the sum is zero. -/
def sumSign (zero : Bool) (z : Int) : Bool := if z = 0 then zero else decide (z < 0)

theorem fadd_fin (a b : Bool) (x y : Nat) :
    fadd (.fin a x) (.fin b y) =
      roundTo (sumSign (a && b) (signed a x + signed b y)) (signed a x + signed b y).natAbs 0 := by
  simp only [fadd, sumSign]
  split
  · next hz => rw [hz, Int.natAbs_zero, roundTo_zero]
  · rfl

theorem signed_sumSign_natAbs (zero : Bool) (z : Int) : signed (sumSign zero z) z.natAbs = z := by
  simp only [sumSign, signed]
  split
  · next hz => simp [hz]
  · simp only [decide_eq_true_eq]
    split <;> omega

theorem valueOf_add_fin (a b : Bool) (x y : Nat) :
    valueOf (.fin a x) + valueOf (.fin b y) = ((signed a x + signed b y : ℤ) : ℚ) / 2 ^ 149 := by
  rw [valueOf, valueOf, ← add_div, Int.cast_add]

theorem sumSign_eq (zero : Bool) (z : Int) :
    sumSign zero z = if (z : ℚ) / 2 ^ 149 = 0 then zero else decide ((z : ℚ) / 2 ^ 149 < 0) := by
  have hpos : (0 : ℚ) < 2 ^ 149 := by positivity
  simp only [sumSign, div_eq_zero_iff, hpos.ne', or_false, Int.cast_eq_zero, div_lt_iff₀ hpos, zero_mul,
    Int.cast_lt_zero]

theorem fadd_roundsTo (a b : Bool) (x y : Nat) :
    RoundsTo (fadd (.fin a x) (.fin b y))
      (if valueOf (.fin a x) + valueOf (.fin b y) = 0 then a && b
        else decide (valueOf (.fin a x) + valueOf (.fin b y) < 0))
      (valueOf (.fin a x) + valueOf (.fin b y)) := by
  have h := roundTo_roundsTo (sumSign (a && b) (signed a x + signed b y)) (signed a x + signed b y).natAbs 0
  rw [exactValue, signed_sumSign_natAbs] at h
  rw [fadd_fin, valueOf_add_fin, ← sumSign_eq]
  exact h

theorem valueOf_fneg (v : Fp) : valueOf (fneg v) = -valueOf v := by
  cases v with
  | nan => simp [fneg, valueOf]
  | inf a => simp [fneg, valueOf]
  | fin a x => cases a <;> simp [fneg, valueOf, signed, neg_div]

theorem fsub_roundsTo (a b : Bool) (x y : Nat) :
    RoundsTo (fsub (.fin a x) (.fin b y))
      (if valueOf (.fin a x) - valueOf (.fin b y) = 0 then a && !b
        else decide (valueOf (.fin a x) - valueOf (.fin b y) < 0))
      (valueOf (.fin a x) - valueOf (.fin b y)) := by
  rw [sub_eq_add_neg, ← valueOf_fneg]
  exact fadd_roundsTo a (!b) x y

theorem signed_mul (a b : Bool) (x y : Nat) : signed (a != b) (x * y) = signed a x * signed b y := by
  cases a <;> cases b <;> simp [signed]

theorem fmul_roundsTo (a b : Bool) (x y : Nat) :
    RoundsTo (fmul (.fin a x) (.fin b y)) (a != b) (valueOf (.fin a x) * valueOf (.fin b y)) := by
  have hval : valueOf (.fin a x) * valueOf (.fin b y) = exactValue (a != b) (x * y) 149 := by
    rw [exactValue, signed_mul, valueOf, valueOf, div_mul_div_comm, ← pow_add, Int.cast_mul]
  rw [hval, fmul_fin]
  exact roundTo_roundsTo _ _ _

theorem sums_and_products_nan (v : Fp) :
    fadd .nan v = .nan ∧ fadd v .nan = .nan ∧ fsub .nan v = .nan ∧ fsub v .nan = .nan ∧
      fmul .nan v = .nan ∧ fmul v .nan = .nan := by
  cases v <;> exact ⟨rfl, rfl, rfl, rfl, rfl, rfl⟩

theorem fsub_inf_inf (a b : Bool) : fsub (.inf a) (.inf b) = if a = b then .nan else .inf a := by
  cases a <;> cases b <;> rfl

/-- Settles O30: every operation on finite values is one rounding of its exact result. -/
theorem sumsAndProductsAreNearest : Obligations.SumsAndProductsAreNearest :=
  ⟨fun a b x y => ⟨fadd_roundsTo a b x y, fsub_roundsTo a b x y, fmul_roundsTo a b x y⟩, sums_and_products_nan,
    fun a b _ => ⟨rfl, rfl, rfl, fsub_inf_inf a b, rfl, rfl, rfl, rfl, by cases a <;> cases b <;> rfl⟩⟩

end Sys2Proof.Machine

/-! ## The square root (40_sample_magnitude.md R113, R120)

The root of `x` units is `2√n` units for `n = x · 2^147`, and fsqrt rounds `2r` or `2r + 1` in its place, `r` the
integer part of `√n`. Both lie between the same two multiples of 2 as the root; the points halfway between
representable values of that size are multiples of 2 too, so that the rounded number and the root lie on the same side
of each. -/

namespace Sys2Proof.Machine

/-! ### The integer square root -/

theorem isqrtBits_spec (n : Nat) : ∀ k r, r * r ≤ n → n < (r + 2 ^ k) * (r + 2 ^ k) →
    isqrtBits n k r * isqrtBits n k r ≤ n ∧ n < (isqrtBits n k r + 1) * (isqrtBits n k r + 1)
  | 0, _, hle, hlt => ⟨hle, hlt⟩
  | k + 1, r, hle, hlt => by
    rw [isqrtBits]
    split
    · next hbit =>
      refine isqrtBits_spec n k _ hbit ?_
      rwa [add_assoc, ← two_mul, ← pow_succ']
    · next hbit => exact isqrtBits_spec n k r hle (not_le.1 hbit)

theorem isqrt_spec (n : Nat) : isqrt n * isqrt n ≤ n ∧ n < (isqrt n + 1) * (isqrt n + 1) := by
  refine isqrtBits_spec n _ 0 (Nat.zero_le _) ?_
  calc n < 2 ^ (n.log2 + 1) := Nat.lt_log2_self
    _ ≤ 2 ^ (n.log2 / 2 + 1 + (n.log2 / 2 + 1)) := Nat.pow_le_pow_right (by norm_num) (by omega)
    _ = (0 + 2 ^ (n.log2 / 2 + 1)) * (0 + 2 ^ (n.log2 / 2 + 1)) := by rw [pow_add, Nat.zero_add]

/-! ### Twice the integer root, with a sticky unit -/

/-- What fsqrt rounds for the root `2√n`. -/
def stickyRoot (n : Nat) : Nat := 2 * isqrt n + if isqrt n * isqrt n = n then 0 else 1

theorem fsqrt_pos {x : Nat} (hx : 0 < x) : fsqrt (.fin false x) = roundTo false (stickyRoot (x * 2 ^ 147)) 0 := by
  simp only [fsqrt, if_neg hx.ne', Bool.false_eq_true, if_false]
  rfl

/-- A multiple of 4 on either side of twice the sticky root is on that side of twice the root. -/
theorem sq_of_stickyRoot {n m : Nat} (hm : 4 ∣ m) :
    (m ≤ 2 * stickyRoot n → m ^ 2 ≤ 16 * n) ∧ (2 * stickyRoot n ≤ m → 16 * n ≤ m ^ 2) := by
  obtain ⟨hle, hlt⟩ := isqrt_spec n
  obtain ⟨j, rfl⟩ := hm
  have hsq : (4 * j) ^ 2 = 16 * (j * j) := by ring
  simp only [hsq, stickyRoot]
  constructor
  · intro h
    have hj : j ≤ isqrt n := by split at h <;> omega
    exact Nat.mul_le_mul_left _ ((Nat.mul_le_mul hj hj).trans hle)
  · intro h
    refine Nat.mul_le_mul_left _ ?_
    split at h
    · next hexact =>
      have hj : isqrt n ≤ j := by omega
      exact hexact.symm.le.trans (Nat.mul_le_mul hj hj)
    · have hj : isqrt n + 1 ≤ j := by omega
      exact hlt.le.trans (Nat.mul_le_mul hj hj)

theorem le_stickyRoot {n : Nat} (h : 2 ^ 146 ≤ n) : 2 ^ 73 ≤ stickyRoot n := by
  obtain ⟨-, hlt⟩ := isqrt_spec n
  have hroot : 2 ^ 73 < isqrt n + 1 := by
    rw [← Nat.mul_self_lt_mul_self_iff, ← pow_add]
    exact h.trans_lt hlt
  simp only [stickyRoot]
  omega

theorem stickyRoot_lt {n : Nat} (h : n < 2 ^ 212 * 2 ^ 212) : stickyRoot n < 2 ^ 213 := by
  obtain ⟨hle, -⟩ := isqrt_spec n
  have hroot : isqrt n < 2 ^ 212 := Nat.mul_self_lt_mul_self_iff.1 (hle.trans_lt h)
  simp only [stickyRoot]
  split <;> omega

/-! ### The nearest representable values -/

theorem four_dvd_of_representable {v : Nat} (hv : Representable v) (h : 2 ^ 25 ≤ v) : 4 ∣ v :=
  dvd_of_representable (d := 2) hv h

theorem representable_two_pow {m : Nat} (h : m ≤ 253) : Representable (2 ^ m) := by
  refine ⟨?_, by simpa using two_pow_excess_dvd (m := 1) m (by norm_num)⟩
  calc 2 ^ m ≤ 2 ^ 253 := Nat.pow_le_pow_right (by norm_num) h
    _ < 2 ^ 24 * 2 ^ 253 := by norm_num
    _ = two128 := two128_eq.symm

/-- The halfway point from the result of a rounding to another representable value is on that value's side. -/
theorem roundedUnits_halfway (t : Nat) {v : Nat} (hv : Representable v) :
    (v < roundedUnits t 0 → roundedUnits t 0 + v ≤ 2 * t) ∧
      (roundedUnits t 0 < v → 2 * t ≤ roundedUnits t 0 + v) := by
  have h := (roundedUnits_nearest t 0 hv).1
  rw [pow_zero, mul_one, mul_one] at h
  constructor <;> intro hlt <;> grind

theorem le_roundedUnits {m t : Nat} (hm : m ≤ 253) (h : 2 ^ m ≤ t) : 2 ^ m ≤ roundedUnits t 0 := by
  by_contra hlt
  have := (roundedUnits_halfway t (representable_two_pow hm)).2 (not_le.1 hlt)
  omega

/-- The halfway point from the rounded sticky root to a representable value is on the same side of twice the root. -/
theorem roundedUnits_stickyRoot_halfway {n v : Nat} (hn : 2 ^ 146 ≤ n)
    (hu : Representable (roundedUnits (stickyRoot n) 0)) (hv : Representable v) :
    (v < roundedUnits (stickyRoot n) 0 → (roundedUnits (stickyRoot n) 0 + v) ^ 2 ≤ 16 * n) ∧
      (roundedUnits (stickyRoot n) 0 < v → 16 * n ≤ (roundedUnits (stickyRoot n) 0 + v) ^ 2) := by
  have ht : 2 ^ 73 ≤ stickyRoot n := le_stickyRoot hn
  have hlarge : 2 ^ 26 ≤ roundedUnits (stickyRoot n) 0 :=
    le_roundedUnits (by norm_num) (le_trans (by norm_num) ht)
  have hu4 : 4 ∣ roundedUnits (stickyRoot n) 0 := four_dvd_of_representable hu (le_trans (by norm_num) hlarge)
  constructor
  · intro hlt
    -- a value below 2^25 gives way to 2^25, so that the halfway point is a multiple of 2
    obtain ⟨w, hvw, hwu, hw, hw25⟩ :
        ∃ w, v ≤ w ∧ w < roundedUnits (stickyRoot n) 0 ∧ Representable w ∧ 2 ^ 25 ≤ w := by
      obtain hsmall | hbig := le_total v (2 ^ 25)
      · exact ⟨2 ^ 25, hsmall, by omega, representable_two_pow (by norm_num), le_rfl⟩
      · exact ⟨v, le_rfl, hlt, hv, hbig⟩
    have h4 : 4 ∣ roundedUnits (stickyRoot n) 0 + w := hu4.add (four_dvd_of_representable hw hw25)
    calc (roundedUnits (stickyRoot n) 0 + v) ^ 2 ≤ (roundedUnits (stickyRoot n) 0 + w) ^ 2 :=
          Nat.pow_le_pow_left (by omega) 2
      _ ≤ 16 * n := (sq_of_stickyRoot h4).1 ((roundedUnits_halfway _ hw).1 hwu)
  · intro hlt
    have h4 : 4 ∣ roundedUnits (stickyRoot n) 0 + v := hu4.add (four_dvd_of_representable hv (by omega))
    exact (sq_of_stickyRoot h4).2 ((roundedUnits_halfway _ hv).2 hlt)

theorem fsqrt_nearest {x : Nat} (h0 : 0 < x) (hx : x < two128) :
    ∃ u, fsqrt (.fin false x) = .fin false u ∧ Representable u ∧
      ∀ v, Representable v →
        (v < u → (u + v) ^ 2 ≤ 4 * x * 2 ^ 149) ∧ (u < v → 4 * x * 2 ^ 149 ≤ (u + v) ^ 2) := by
  have hn : 2 ^ 146 ≤ x * 2 ^ 147 := (by norm_num : 2 ^ 146 ≤ 1 * 2 ^ 147).trans (Nat.mul_le_mul_right _ h0)
  have hlt : x * 2 ^ 147 < 2 ^ 212 * 2 ^ 212 := by
    calc x * 2 ^ 147 < two128 * 2 ^ 147 := Nat.mul_lt_mul_of_pos_right hx (by positivity)
      _ = 2 ^ 212 * 2 ^ 212 := by rw [two128_eq]; norm_num
  have hfin : stickyRoot (x * 2 ^ 147) < (2 ^ 277 - 2 ^ 252) * 2 ^ 0 := by
    rw [overflow_units]
    exact (stickyRoot_lt hlt).trans (by norm_num)
  have hsq : 4 * x * 2 ^ 149 = 16 * (x * 2 ^ 147) := by ring
  rw [fsqrt_pos h0, roundTo_finite false hfin, hsq]
  exact ⟨_, rfl, roundedUnits_representable hfin, fun v hv =>
    roundedUnits_stickyRoot_halfway hn (roundedUnits_representable hfin) hv⟩

theorem fsqrt_zero (neg : Bool) : fsqrt (.fin neg 0) = .fin neg 0 := rfl

theorem fsqrt_negative {x : Nat} (h : 0 < x) : fsqrt (.fin true x) = .nan := by
  simp only [fsqrt, if_neg h.ne', if_true]

/-- Settles O31: the sticky root and the exact root lie on the same side of every point halfway to a neighbour. -/
theorem squareRootIsNearest : Obligations.SquareRootIsNearest :=
  ⟨fun _ h0 hx => fsqrt_nearest h0 hx, fsqrt_zero, fun _ h => fsqrt_negative h, rfl, rfl, rfl⟩

end Sys2Proof.Machine

/-! ## The comparisons (00_scope.md R10)

The order of the binary32 words is that of their low 31 bits, negated where the sign bit is set, because the units
those bits stand for grow strictly with them, from a zero's 0 to an infinity's rank. -/

namespace Sys2Proof.Machine

/-! ### The rank of a word -/

/-- The units that the low 31 bits of a word stand for; 2^128's for those of an infinity. -/
def wordUnits (m : Nat) : Nat :=
  if m / 2 ^ 23 = 0 then m % 2 ^ 23 else (2 ^ 23 + m % 2 ^ 23) * 2 ^ (m / 2 ^ 23 - 1)

theorem wordUnits_zero : wordUnits 0 = 0 := rfl

theorem wordUnits_infinity : wordUnits 0x7F800000 = two128 := by
  have hdiv : 0x7F800000 / 2 ^ 23 = 255 := by norm_num
  have hmod : 0x7F800000 % 2 ^ 23 = 0 := by norm_num
  rw [wordUnits, hdiv, hmod, two128_eq, if_neg (by decide)]
  norm_num

theorem wordUnits_lt_succ (m : Nat) : wordUnits m < wordUnits (m + 1) := by
  have hmod : m % 2 ^ 23 < 2 ^ 23 := Nat.mod_lt _ (by norm_num)
  simp only [wordUnits]
  obtain ⟨hdiv', hmod'⟩ | ⟨hdiv', hmod', hlast⟩ :
      ((m + 1) / 2 ^ 23 = m / 2 ^ 23 ∧ (m + 1) % 2 ^ 23 = m % 2 ^ 23 + 1) ∨
      ((m + 1) / 2 ^ 23 = m / 2 ^ 23 + 1 ∧ (m + 1) % 2 ^ 23 = 0 ∧ m % 2 ^ 23 = 2 ^ 23 - 1) := by omega
  · -- the next fraction of the same exponent
    rw [hdiv', hmod']
    split
    · exact Nat.lt_succ_self _
    · exact Nat.mul_lt_mul_of_pos_right (by omega) (by positivity)
  · -- the first fraction of the next exponent
    rw [hdiv', hmod', hlast, if_neg (Nat.succ_ne_zero _), Nat.add_sub_cancel]
    split
    · next h0 => rw [h0]; norm_num
    · next h0 =>
      calc (2 ^ 23 + (2 ^ 23 - 1)) * 2 ^ (m / 2 ^ 23 - 1) < 2 ^ 24 * 2 ^ (m / 2 ^ 23 - 1) :=
            Nat.mul_lt_mul_of_pos_right (by norm_num) (by positivity)
        _ = 2 ^ 23 * 2 ^ (m / 2 ^ 23) := by
            rw [← pow_add, ← pow_add]
            congr 1
            omega
        _ = (2 ^ 23 + 0) * 2 ^ (m / 2 ^ 23) := rfl

theorem wordUnits_strictMono : StrictMono wordUnits := strictMono_nat_of_lt_succ wordUnits_lt_succ

theorem rank_f32 {w : Word} (h : w.toNat % 2 ^ 31 ≤ 0x7F800000) :
    rank (f32 w) = some (signed (w.getLsbD 31) (wordUnits (w.toNat % 2 ^ 31))) := by
  have hexp : (w.extractLsb' 23 8).toNat = w.toNat % 2 ^ 31 / 2 ^ 23 := by
    rw [BitVec.extractLsb'_toNat, Nat.shiftRight_eq_div_pow]
    omega
  have hfrac : (w.extractLsb' 0 23).toNat = w.toNat % 2 ^ 31 % 2 ^ 23 := by
    rw [BitVec.extractLsb'_toNat, Nat.shiftRight_zero]
    omega
  simp only [f32, hexp, hfrac]
  split
  · next h255 =>
    have hinf : w.toNat % 2 ^ 31 = 0x7F800000 := by omega
    rw [hinf, if_pos (by norm_num), wordUnits_infinity]
    rfl
  · split
    · next h0 => rw [wordUnits, if_pos h0]; rfl
    · next h0 => rw [wordUnits, if_neg h0]; rfl

/-! ### Comparing by ranks -/

theorem fgt_of_rank {v w : Fp} {x y : Int} (hv : rank v = some x) (hw : rank w = some y) :
    fgt v w = decide (y < x) := by
  simp only [fgt, hv, hw]

theorem fge_of_rank {v w : Fp} {x y : Int} (hv : rank v = some x) (hw : rank w = some y) :
    fge v w = decide (y ≤ x) := by
  simp only [fge, hv, hw]

theorem flt_of_rank {v w : Fp} {x y : Int} (hv : rank v = some x) (hw : rank w = some y) :
    flt v w = decide (x < y) := fgt_of_rank hw hv

theorem comparisons_nan (v : Fp) :
    fgt .nan v = false ∧ fgt v .nan = false ∧ fge .nan v = false ∧ fge v .nan = false ∧
      flt .nan v = false ∧ flt v .nan = false := by
  cases v <;> exact ⟨rfl, rfl, rfl, rfl, rfl, rfl⟩

theorem f32_zero : f32 0#32 = .fin false 0 := by decide

theorem f32_neg_zero : f32 0x80000000#32 = .fin true 0 := by decide

theorem comparisons_fin_zero (a b : Bool) :
    fgt (.fin a 0) (.fin b 0) = false ∧ flt (.fin a 0) (.fin b 0) = false ∧ fge (.fin a 0) (.fin b 0) = true := by
  cases a <;> cases b <;> decide

theorem comparisons_zeros : ∀ z ∈ [(0#32, 0x80000000#32), (0x80000000#32, 0#32)],
    fgt (f32 z.1) (f32 z.2) = false ∧ flt (f32 z.1) (f32 z.2) = false ∧ fge (f32 z.1) (f32 z.2) = true := by
  rw [List.forall_mem_cons, List.forall_mem_singleton, f32_zero, f32_neg_zero]
  exact ⟨comparisons_fin_zero false true, comparisons_fin_zero true false⟩

/-- A strictly growing function from 0 on keeps the order of signed numbers. -/
theorem signed_le_iff_of_strictMono {g : Nat → Nat} (hg : StrictMono g) (h0 : g 0 = 0) (a b : Bool) (x y : Nat) :
    signed a (g x) ≤ signed b (g y) ↔ signed a x ≤ signed b y := by
  have hxy : g x ≤ g y ↔ x ≤ y := hg.le_iff_le
  have hyx : g y ≤ g x ↔ y ≤ x := hg.le_iff_le
  have hx0 : g x ≤ 0 ↔ x ≤ 0 := by rw [← hg.le_iff_le (a := x), h0]
  have hy0 : g y ≤ 0 ↔ y ≤ 0 := by rw [← hg.le_iff_le (a := y), h0]
  cases a <;> cases b <;> simp only [signed, Bool.false_eq_true, if_true, if_false] <;> omega

theorem comparisons_words {a b : Word} (ha : a.toNat % 2 ^ 31 ≤ 0x7F800000) (hb : b.toNat % 2 ^ 31 ≤ 0x7F800000) :
    let place (w : Word) : ℤ := signed (w.getLsbD 31) (w.toNat % 2 ^ 31)
    fgt (f32 a) (f32 b) = decide (place b < place a) ∧ fge (f32 a) (f32 b) = decide (place b ≤ place a) ∧
      flt (f32 a) (f32 b) = decide (place a < place b) := by
  have hle := signed_le_iff_of_strictMono wordUnits_strictMono wordUnits_zero
  refine ⟨?_, ?_, ?_⟩
  · rw [fgt_of_rank (rank_f32 ha) (rank_f32 hb), decide_eq_decide, ← not_le, ← not_le, hle]
  · rw [fge_of_rank (rank_f32 ha) (rank_f32 hb), decide_eq_decide, hle]
  · rw [flt_of_rank (rank_f32 ha) (rank_f32 hb), decide_eq_decide, ← not_le, ← not_le, hle]

theorem valueOf_lt_iff (a b : Bool) (x y : Nat) :
    valueOf (.fin a x) < valueOf (.fin b y) ↔ signed a x < signed b y := by
  rw [valueOf, valueOf, div_lt_div_iff_of_pos_right (by positivity), Int.cast_lt]

theorem valueOf_le_iff (a b : Bool) (x y : Nat) :
    valueOf (.fin a x) ≤ valueOf (.fin b y) ↔ signed a x ≤ signed b y := by
  rw [valueOf, valueOf, div_le_div_iff_of_pos_right (by positivity), Int.cast_le]

theorem comparisons_values (a b : Bool) (x y : Nat) :
    (fgt (.fin a x) (.fin b y) = true ↔ valueOf (.fin b y) < valueOf (.fin a x)) ∧
      (fge (.fin a x) (.fin b y) = true ↔ valueOf (.fin b y) ≤ valueOf (.fin a x)) ∧
      (flt (.fin a x) (.fin b y) = true ↔ valueOf (.fin a x) < valueOf (.fin b y)) := by
  rw [fgt_of_rank rfl rfl, fge_of_rank rfl rfl, flt_of_rank rfl rfl]
  simp only [decide_eq_true_eq, valueOf_lt_iff, valueOf_le_iff, and_self]

/-- Settles O33: a word's rank is its low 31 bits' units, signed, and these grow strictly with the bits. -/
theorem comparisonsAreOrdered : Obligations.ComparisonsAreOrdered :=
  ⟨comparisons_nan, comparisons_zeros, fun _ _ ha hb => comparisons_words ha hb, comparisons_values⟩

end Sys2Proof.Machine

/-! ## The ports: what a turn brings, FTAKE and FR_POP (10_state.md R20, R40, R47) -/

namespace Sys2Proof.Machine

variable {s : State} {p : Port} {ts : List Turn}

/-! ### A turn of an agent -/

/-- Using up a turn leaves the words at every port. -/
@[simp] theorem portWords_turns (io : Io) (p : Port) (ts : List Turn) :
    portWords { io with turns := ts } p = portWords io p := by
  cases p <;> rfl

/-- An agent that waits on no held FTAKE takes its next transaction off its own port. -/
theorem fetch_port (h : s.io.turns = .port p :: ts) (hfree : ¬(p = .f ∧ s.io.fHeld = true)) :
    fetch s = fetchPort p { s with io := { s.io with turns := ts } } := by
  simp only [fetch, h, fetchTurn, if_neg hfree]

theorem fetchPort_nil (h : portWords s.io p = []) : fetchPort p s = .idle s := by
  simp only [fetchPort, h]

theorem fetchPort_ok {i : Instr} {rest : List Desc} (h : decode (portWords s.io p) = .ok (i, rest)) :
    fetchPort p s =
      if portOf i = p then .run i { s with io := setPort s.io p rest } else .refuse (.wrongPort (portOf i)) := by
  cases hw : portWords s.io p with
  | nil => rw [hw] at h; cases h
  | cons w ws => rw [hw] at h; simp only [fetchPort, hw, h]

theorem fetchPort_error {why : DecodeError} (hne : portWords s.io p ≠ [])
    (h : decode (portWords s.io p) = .error why) : fetchPort p s = .refuse (.noTransaction why) := by
  cases hw : portWords s.io p with
  | nil => exact absurd hw hne
  | cons w ws => rw [hw] at h; simp only [fetchPort, hw, h]

/-- Settles O6: the step is what the moving agent's port brings. -/
theorem stepRunsDecodedTransaction : Obligations.StepRunsDecodedTransaction := by
  intro s p ts hturn hfree
  have hfetch := fetch_port hturn hfree
  refine ⟨fun i rest hdec => ?_, fun why hne hdec => ?_⟩
  · rw [fetchPort_ok (by simpa using hdec)] at hfetch
    exact ⟨fun hp => by simp only [step, hfetch, if_pos hp], fun hp => by simp only [step, hfetch, if_neg hp]⟩
  · rw [fetchPort_error (by simpa using hne) (by simpa using hdec)] at hfetch
    simp only [step, hfetch]

/-- Settles O8: without a turn, or without words, the fetch brings no transaction. -/
theorem noTransactionNoEffect : Obligations.NoTransactionNoEffect := by
  refine fun s => ⟨fun hturn => ?_, fun p ts hturn hfree hw => ?_⟩
  · simp only [step, fetch, hturn]
  · have hfetch := fetch_port hturn hfree
    rw [fetchPort_nil (by simpa using hw)] at hfetch
    simp only [step, hfetch]

/-- Settles O56: every step that completes leaves the parameters. -/
theorem parametersNeverChange : Obligations.ParametersNeverChange := fun _ _ h => (step_moves h).1

/-! ### The head of the queue -/

theorem popFrame_of_nil {b : Block} (h : b.fq = []) : popFrame b = b := by
  rw [popFrame, h, List.tail_nil, ← h]

theorem popFrame_of_cons {b : Block} {r : Frame} {rest : List Frame} (h : b.fq = r :: rest) :
    popFrame b = { b with fq := rest } := by
  rw [popFrame, h, List.tail_cons]

theorem fValid_eq (b : Block) : fValid b = (b.fq != []) := by
  cases hq : b.fq <;> simp [fValid, hq]

theorem exec_ftake_of_nil (h : s.blk.fq = []) : exec .ftake s = .next (holdFtake s) := by
  simp only [exec, execFtake, h]

theorem exec_ftake_of_cons {r : Frame} {rest : List Frame} (h : s.blk.fq = r :: rest) :
    exec .ftake s = .next (answerFtake (withBlk s (popFrame s.blk)) r) := by
  simp only [exec, execFtake, h]

/-- Settles O51: FTAKE answers the head record and removes it, or is held. -/
theorem ftakeTakesHead : Obligations.FtakeTakesHead := by
  refine fun s => ⟨fun r rest hq => ⟨?_, ?_, ?_⟩, fun hq => ⟨?_, exec_ftake_of_nil hq⟩⟩
  · simp [fValid_eq, hq]
  · rw [fData, hq, List.head?_cons]
  · rw [exec_ftake_of_cons hq, popFrame_of_cons hq]
    rfl
  · simp [fValid_eq, hq]

/-- Settles O20: a WR to FR_POP leaves the block without its head record. -/
theorem frPopRegister : Obligations.FrPopRegister := by
  have hwr : ∀ (s : State) (v : Word), exec (.wrFrPop v) s = .next (withBlk s (popFrame s.blk)) := fun _ _ => rfl
  refine fun s v => ⟨fun hq => ?_, fun r rest hq => ?_, rfl⟩
  · rw [hwr, popFrame_of_nil hq]
    rfl
  · rw [hwr, popFrame_of_cons hq]
    rfl

end Sys2Proof.Machine

/-! ## The register map and the words of a RD (10_state.md R22 to R39) -/

namespace Sys2Proof.Machine

/-! ### Every register's RD and WR -/

/-- The word a RD of each register responds (10_state.md R22 to R40). -/
def readWord (b : Block) : Reg → Word
  | .id => idWord
  | .version => versionWord
  | .ctrl => ctrlWord b
  | .status => statusWord b
  | .tAbs => b.tAbs
  | .kRel => b.kRel
  | .eps => b.eps
  | .nfWindow => b.nfWindow
  | .nfShift => 0#27 ++ b.nfShift
  | .holdoff => 0#16 ++ b.holdoff
  | .noise => noiseWord b
  | .sidxLo => b.sidx.extractLsb' 0 32
  | .sidxHi => b.sidx.extractLsb' 32 32
  | .cntHit => b.cntHit
  | .cntSupp => b.cntSupp
  | .cntFrame => b.cntFrame
  | .cntDiscard => b.cntDiscard
  | .cntFqdrop => b.cntFqdrop
  | .cntBadmag => b.cntBadmag
  | .cntBuserr => b.cntBuserr
  | .frInfo => headWord b frInfoOf
  | .frTsLo => headWord b frTsLoOf
  | .frTsHi => headWord b frTsHiOf
  | .frIdxLo => headWord b frIdxLoOf
  | .frIdxHi => headWord b frIdxHiOf
  | .frScore => headWord b Frame.score
  | .frNoise => headWord b Frame.noise
  | .frData0 => headWord b (frDataOf 0)
  | .frData1 => headWord b (frDataOf 1)
  | .frData2 => headWord b (frDataOf 2)
  | .frData3 => headWord b (frDataOf 3)
  | .frSoft0 => headWord b (frSoftOf 0)
  | .frSoft1 => headWord b (frSoftOf 1)
  | .frSoft2 => headWord b (frSoftOf 2)
  | .frSoft3 => headWord b (frSoftOf 3)
  | .frPop => 0#32

/-- The RD of a mapped register responds its word and changes nothing else (45_register_port.md R260, R263). -/
theorem exec_rdOf (r : Reg) (s : State) : exec (rdOf r) s = .next (answerRd s (readWord s.blk r)) := by
  cases r <;> rfl

theorem exec_rdOf_eq {r : Reg} {s : State} {w : Word} (h : readWord s.blk r = w) :
    exec (rdOf r) s = .next (answerRd s w) := by
  rw [exec_rdOf, h]

/-- A read-only register ignores writes (45_register_port.md R262). -/
theorem exec_wrOf_of_ro {r : Reg} (h : regAccess r = .ro) (v : Word) (s : State) : exec (wrOf r v) s = .next s := by
  cases r <;> cases h <;> rfl

/-- FR_POP is the one write-only register. -/
theorem eq_frPop_of_wo {r : Reg} (h : regAccess r = .wo) : r = .frPop := by
  cases r <;> cases h
  rfl

theorem decodeRd_of_regAt {a : Addr} {r : Reg} (h : regAt a = some r) : decodeRd a = rdOf r := by
  simp only [decodeRd, h]

theorem decodeWr_of_regAt {a : Addr} {r : Reg} (h : regAt a = some r) (v : Word) : decodeWr a v = wrOf r v := by
  simp only [decodeWr, h]

theorem regAt_none_of_not_mem {a : Addr} (h : a ∉ regMap.map regAddr) : regAt a = none := by
  rw [regAt, List.find?_eq_none]
  intro r hr he
  exact h (List.mem_map.2 ⟨r, hr, by simpa using he⟩)

/-- What the transactions of a mapped address do, by its register's access and reset value (10_state.md R22). -/
theorem row_transactions {a : Addr} {r : Reg} {access : Access} {w : Word} (hreg : regAt a = some r)
    (hacc : regAccess r = access) (hreset : readWord Block.reset r = w) :
    exec (decodeRd a) State.reset = .next { State.reset with io := { State.reset.io with rResponses := [w] } } ∧
      (access = .ro → ∀ (s : State) (v : Word), exec (decodeWr a v) s = .next s) ∧
      (access = .wo → ∀ s : State,
        exec (decodeRd a) s = .next { s with io := { s.io with rResponses := 0#32 :: s.io.rResponses } }) := by
  refine ⟨?_, fun hro s v => ?_, fun hwo s => ?_⟩
  · rw [decodeRd_of_regAt hreg, exec_rdOf, ← hreset]
    rfl
  · rw [decodeWr_of_regAt hreg, exec_wrOf_of_ro (hacc.trans hro)]
  · rw [decodeRd_of_regAt hreg, exec_rdOf, eq_frPop_of_wo (hacc.trans hwo)]
    rfl

/-- Settles O3: each row by its decoded register, and an address of no row by the search of the map. -/
theorem registerMapRows : Obligations.RegisterMapRows := by
  unfold Obligations.RegisterMapRows
  intro rows
  have hrows : ∀ row ∈ rows, regAt row.1 = some row.2.1 ∧ regAccess row.2.1 = row.2.2.1 ∧
      readWord Block.reset row.2.1 = row.2.2.2 := by decide
  have haddr : rows.map Prod.fst = regMap.map regAddr := rfl
  refine ⟨fun row hrow => ?_, fun a v hne => ?_⟩
  · obtain ⟨hreg, hacc, hreset⟩ := hrows row hrow
    exact ⟨hreg, hacc, row_transactions hreg hacc hreset⟩
  · have hnone : regAt a = none := regAt_none_of_not_mem fun ha => by
      rw [← haddr] at ha
      obtain ⟨row, hrow, he⟩ := List.mem_map.1 ha
      exact hne row hrow he
    exact ⟨by simp only [decodeRd, hnone], by simp only [decodeWr, hnone]⟩

/-! ### Configuration registers -/

/-- Settles O15. -/
theorem thresholdRegisters : Obligations.ThresholdRegisters :=
  ⟨fun s _ => ⟨rfl, rfl, rfl, exec_rdOf .tAbs s, exec_rdOf .kRel s, exec_rdOf .eps s⟩, rfl, rfl, rfl⟩

theorem legalWindow_toNat {p : Params} (h : p.Legal) (v : Word) :
    (legalWindow p v).toNat = min (max v.toNat 1) p.nfWMax := by
  obtain ⟨_, hmax, _, _⟩ := h
  rw [legalWindow, BitVec.toNat_ofNat, Nat.mod_eq_of_lt]
  omega

theorem shiftField_toNat (v : Word) : (shiftField v).toNat = v.toNat % 32 := by
  simp [shiftField]

theorem legalHoldoff_toNat (v : Word) : (legalHoldoff v).toNat = max (v.toNat % 65536) 480 := by
  rw [legalHoldoff, BitVec.toNat_ofNat, BitVec.extractLsb'_toNat, Nat.shiftRight_zero, Nat.mod_eq_of_lt]
  omega

/-- Zero bits in front of a field are its zero extension. -/
theorem zero_append_eq_setWidth {n : Nat} (m : Nat) (x : BitVec n) : 0#m ++ x = x.setWidth (m + n) := by
  rw [BitVec.setWidth_eq_append (by omega)]
  simp

/-- Settles O16: the legal value stored is the rule's as a number; the field read stands below zeros. -/
theorem legalisedRegisters : Obligations.LegalisedRegisters := by
  refine ⟨fun s v hp => ⟨⟨_, rfl, legalWindow_toNat hp v⟩, ⟨_, rfl, shiftField_toNat v⟩,
    ⟨_, rfl, legalHoldoff_toNat v⟩⟩, fun s => ⟨exec_rdOf .nfWindow s, ?_, ?_⟩, rfl, rfl, rfl⟩
  · rw [← zero_append_eq_setWidth 27]
    exact exec_rdOf .nfShift s
  · rw [← zero_append_eq_setWidth 16]
    exact exec_rdOf .holdoff s

/-! ### STATUS -/

theorem statusWord_bits (b : Block) :
    (statusWord b).getLsbD 0 = fValid b ∧ (statusWord b).getLsbD 1 = b.demod.isSome ∧
      (statusWord b).getLsbD 2 = b.armed ∧ (statusWord b).getLsbD 3 = false ∧ (statusWord b).getLsbD 4 = irq b := by
  simp [statusWord, BitVec.getLsbD_append, -BitVec.getLsbD_eq_getElem, -Nat.reduceAdd]

theorem statusWord_fields (b : Block) :
    (statusWord b).extractLsb' 5 3 = 0#3 ∧ (statusWord b).extractLsb' 8 8 = BitVec.ofNat 8 b.fq.length ∧
      (statusWord b).extractLsb' 16 16 = 0#16 := by
  simp [statusWord, BitVec.extractLsb'_append_eq_ite, -Nat.reduceAdd]

theorem irq_eq (b : Block) : irq b = (b.ie && b.fq != []) := by
  rw [irq, fValid_eq]

/-- In a state that meets the invariant the queue's length fits FQ_COUNT (00_scope.md R5, 10_state.md R26). -/
theorem fqCount_toNat {s : State} (h : s.Inv) : (BitVec.ofNat 8 s.blk.fq.length).toNat = s.blk.fq.length := by
  obtain ⟨_, _, _, hdepth⟩ := h.params
  have hq := h.blk.queue
  rw [BitVec.toNat_ofNat, Nat.mod_eq_of_lt]
  omega

/-- Settles O14: the word's bits one by one, and the queue's length within FQ_COUNT. -/
theorem statusRegister : Obligations.StatusRegister := by
  refine ⟨fun s v => ⟨statusWord s.blk, rfl, rfl, ?_⟩, rfl⟩
  obtain ⟨havail, hbusy, harmed, hzero, hirq⟩ := statusWord_bits s.blk
  obtain ⟨hlow, hcount, hhigh⟩ := statusWord_fields s.blk
  refine ⟨havail.trans (fValid_eq _), hbusy, harmed, hzero, hirq.trans (irq_eq _), hlow, hcount, hhigh, irq_eq _, hirq,
    fun hinv => ⟨?_, hinv.blk.queue⟩⟩
  rw [hcount, fqCount_toNat hinv]

/-! ### The frame window's numbers -/

theorem headWord_of_nil {b : Block} (h : b.fq = []) (view : Frame → Word) : headWord b view = 0#32 := by
  simp only [headWord, h]

theorem headWord_of_cons {b : Block} {r : Frame} {rest : List Frame} (h : b.fq = r :: rest) (view : Frame → Word) :
    headWord b view = view r := by
  simp only [headWord, h]

theorem frInfoOf_bits (r : Frame) :
    (frInfoOf r).getLsbD 13 = r.softAny ∧ (frInfoOf r).getLsbD 14 = false ∧ (frInfoOf r).getLsbD 15 = true := by
  simp [frInfoOf, BitVec.getLsbD_append, -BitVec.getLsbD_eq_getElem, -Nat.reduceAdd]

theorem frInfoOf_fields (r : Frame) :
    (frInfoOf r).extractLsb' 0 8 = r.len ∧ (frInfoOf r).extractLsb' 8 5 = r.df ∧
      (frInfoOf r).extractLsb' 16 8 = r.siglvl ∧ (frInfoOf r).extractLsb' 24 8 = r.seq := by
  simp [frInfoOf, BitVec.extractLsb'_append_eq_ite, -Nat.reduceAdd]

/-- A field is the low bits of the word shifted down to it. -/
theorem extractLsb'_eq_setWidth_shiftRight {n : Nat} (x : BitVec n) (start len : Nat) :
    x.extractLsb' start len = (x >>> start).setWidth len := by
  ext i h
  simp

theorem frTsHiOf_eq (r : Frame) : frTsHiOf r = (r.ts >>> 32).setWidth 32 := by
  unfold frTsHiOf
  grind

/-- Settles O18: each register is the named view of the head record. -/
theorem frameWindowWords : Obligations.FrameWindowWords := by
  refine fun s => ⟨fun hq => ?_, fun r rest hq => ?_⟩
  · have hnil (r : Reg) {view : Frame → Word} (h : readWord s.blk r = headWord s.blk view) :=
      exec_rdOf_eq (h.trans (headWord_of_nil hq view))
    exact ⟨hnil .frInfo rfl, hnil .frTsLo rfl, hnil .frTsHi rfl, hnil .frIdxLo rfl, hnil .frIdxHi rfl,
      hnil .frScore rfl, hnil .frNoise rfl⟩
  · have hcons (q : Reg) {view : Frame → Word} {w : Word} (h : readWord s.blk q = headWord s.blk view)
        (hw : view r = w) := exec_rdOf_eq (h.trans ((headWord_of_cons hq view).trans hw))
    obtain ⟨hsoft, hzero, hone⟩ := frInfoOf_bits r
    obtain ⟨hlen, hdf, hlvl, hseq⟩ := frInfoOf_fields r
    exact ⟨⟨frInfoOf r, hcons .frInfo rfl rfl, hlen, hdf, hsoft, hzero, hone, hlvl, hseq⟩,
      hcons .frTsLo rfl (BitVec.setWidth_eq_extractLsb' (by omega)).symm, hcons .frTsHi rfl (frTsHiOf_eq r),
      hcons .frIdxLo rfl (BitVec.setWidth_eq_extractLsb' (by omega)).symm,
      hcons .frIdxHi rfl (extractLsb'_eq_setWidth_shiftRight _ _ _),
      hcons .frScore rfl rfl, hcons .frNoise rfl rfl⟩

/-! ### The frame window's bytes -/

/-- The bits of byte k of 14 packed bytes, 0 beyond them (10_state.md R39). -/
theorem byteOf_getMsbD (bytes : BitVec 112) (k : Nat) {j : Nat} (h : j < 8) :
    (byteOf bytes k).getMsbD j = bytes.getMsbD (8 * k + j) := by
  unfold byteOf
  split
  · next hk =>
    rw [BitVec.getMsbD_extractLsb', show 112 - (8 * (13 - k) + 8 - j) = 8 * k + j by omega]
    simp only [h, decide_true, Bool.true_and, Bool.and_eq_right_iff_imp, decide_eq_true_eq]
    omega
  · next hk => rw [BitVec.getMsbD_of_ge bytes _ (by omega), BitVec.getMsbD_zero]

theorem fourBytes_getMsbD (b0 b1 b2 b3 : BitVec 8) (j : Nat) :
    (b0 ++ b1 ++ b2 ++ b3).getMsbD j =
      if j < 8 then b0.getMsbD j else if j < 16 then b1.getMsbD (j - 8)
      else if j < 24 then b2.getMsbD (j - 16) else b3.getMsbD (j - 24) := by
  grind

/-- Word q of packed bytes is bits 32q .. 32q + 31 of them, counted from the first (10_state.md R39). -/
theorem packedWord_getMsbD (bytes : BitVec 112) (q : Nat) {j : Nat} (h : j < 32) :
    (packedWord bytes q).getMsbD j = bytes.getMsbD (32 * q + j) := by
  refine (fourBytes_getMsbD _ _ _ _ j).trans ?_
  split_ifs
  all_goals
    rw [byteOf_getMsbD _ _ (by omega)]
    congr 1
    omega

/-- Settles O19: the eight registers show the words of the packed data and soft-mask bytes. -/
theorem frameByteWords : Obligations.FrameByteWords := by
  intro s ans reads
  have hview : ∀ x ∈ reads, exec x.1 s = ans (headWord s.blk fun r =>
      packedWord (if x.2.1 then r.softmask else r.data) x.2.2) := by
    simp only [reads, List.forall_mem_cons, List.not_mem_nil, false_imp_iff, implies_true, and_true]
    exact ⟨rfl, rfl, rfl, rfl, rfl, rfl, rfl, rfl⟩
  refine ⟨fun hq x hx => ?_, fun r rest hq x hx => ?_⟩
  · rw [hview x hx, headWord_of_nil hq]
  · exact ⟨_, by rw [hview x hx, headWord_of_cons hq], fun j hj => packedWord_getMsbD _ _ hj⟩

end Sys2Proof.Machine

/-! ## What a SAMPLE may change (10_state.md R49, 40_sample_magnitude.md R110)

Each stage of a processed sample writes a few fields of the block and leaves the others: an equation says so at once.
The fields it does write change in few ways: the queue by one record, the counters by one. -/

namespace Sys2Proof.Machine

variable {p : Params} {b b' : Block} {g i : SampleNo} {im re : Word}

/-! ### The stages -/

/-- The demodulator's step writes the queue, its counters and DEMOD. -/
theorem demodStep_frame (h : demodStep p g b = some b') :
    b' = { b with
      fq := b'.fq, seqCtr := b'.seqCtr, cntFrame := b'.cntFrame, cntFqdrop := b'.cntFqdrop, demod := b'.demod } := by
  obtain ⟨_, rfl⟩ | ⟨d, _, ⟨_, rfl⟩ | ⟨df, _, _, ⟨_, rfl⟩ | ⟨_, hc⟩⟩⟩ := demodStep_cases h
  · rfl
  · rfl
  · rfl
  · obtain ⟨ab, _, rfl⟩ := complete_cases hc
    rfl

/-- The demodulator's step changes nothing, or completes the demodulation in flight, 255 or 479 samples after its hit
(43_demodulator.md R206). -/
theorem demodStep_completes (h : demodStep p g b = some b') :
    b' = b ∨ ∃ d r, b.demod = some d ∧ (since g d.h = 255 ∨ since g d.h = 479) ∧
      b' = { enqueue p r b with demod := none } := by
  obtain ⟨_, he⟩ | ⟨d, hd, ⟨_, he⟩ | ⟨df, _, _, ⟨_, he⟩ | ⟨hlast, hc⟩⟩⟩ := demodStep_cases h
  · exact .inl he
  · exact .inl he
  · exact .inl he
  · obtain ⟨ab, _, rfl⟩ := complete_cases hc
    refine .inr ⟨d, _, hd, ?_, rfl⟩
    obtain hlen | hlen := frameLen_cases df <;> omega

/-- What deciding index i does to a block (42_correlator.md R170 to R173). -/
inductive Decision (i : SampleNo) (b : Block) : Block → Prop where
  | unchanged : Decision i b b
  | suppressed : Decision i b { b with cntSupp := b.cntSupp + 1#32 }
  | rearmed : Decision i b { b with armed := true }
  | taken (d : Demod) : Decision i b
      { b with cntHit := b.cntHit + 1#32, armed := false, lastHit := some i, demod := some d }

theorem decideIndex_decision (h : decideIndex i b = some b') : Decision i b b' := by
  obtain ⟨q, _, ⟨_, _, _, ht⟩ | ⟨_, _, _, rfl⟩ | ⟨_, _, hr⟩ | ⟨_, _, rfl⟩⟩ := decideIndex_cases h
  · obtain ⟨c, nz, hi, _, _, _, rfl⟩ := takeHit_cases ht
    exact .taken _
  · exact .suppressed
  · obtain ⟨l, _, ⟨_, rfl⟩ | ⟨_, rfl⟩⟩ := rearm_cases hr
    · exact .rearmed
    · exact .unchanged
  · exact .unchanged

/-- The correlator's turn decides one index, once the segment holds 48 samples (42_correlator.md R168). -/
theorem decideStep_decision (h : decideStep g b = some b') :
    Decision (g - 47#64) b b' ∧ (since g b.segStart < 47 → b' = b) := by
  obtain ⟨_, rfl⟩ | ⟨hge, hd⟩ := decideStep_cases h
  · exact ⟨.unchanged, fun _ => rfl⟩
  · exact ⟨decideIndex_decision hd, fun hlt => absurd hge (by omega)⟩

/-- A decision writes CNT_HIT, CNT_SUPP, the guard and DEMOD. -/
theorem Decision.frame (h : Decision i b b') :
    b' = { b with
      cntHit := b'.cntHit, cntSupp := b'.cntSupp, armed := b'.armed, lastHit := b'.lastHit, demod := b'.demod } := by
  cases h <;> rfl

/-! ### A processed sample, before its segment ends -/

/-- With LAST = 1 the sample is processed as with LAST = 0 and then ends the segment (40_sample_magnitude.md R119). -/
theorem processSample_last {last : Bool} (h : processSample p last im re b = some b') :
    ∃ u, processSample p false im re b = some u ∧ b' = if last then flush u else u := by
  obtain ⟨b1, b2, h1, h2, rfl⟩ := processSample_cases h
  exact ⟨b2, by simp [processSample, h1, h2], rfl⟩

theorem processSample_stages (h : processSample p false im re b = some b') :
    ∃ b1, demodStep p b.sidx (storeSample im re b) = some b1 ∧ decideStep b.sidx b1 = some b' := by
  obtain ⟨b1, b2, h1, h2, rfl⟩ := processSample_cases h
  exact ⟨b1, h1, h2⟩

/-- Beyond what storing it writes, a sample writes the queue, CNT_HIT, CNT_SUPP, the guard and DEMOD. -/
theorem processSample_frame (h : processSample p false im re b = some b') :
    b' = { storeSample im re b with
      fq := b'.fq, seqCtr := b'.seqCtr, cntFrame := b'.cntFrame, cntFqdrop := b'.cntFqdrop, demod := b'.demod
      cntHit := b'.cntHit, cntSupp := b'.cntSupp, armed := b'.armed, lastHit := b'.lastHit } := by
  obtain ⟨b1, h1, h2⟩ := processSample_stages h
  have hdemod := demodStep_frame h1
  have hdecide := (decideStep_decision h2).1.frame
  rw [hdemod] at hdecide
  rw [hdecide]

/-- A sample leaves the queue and its counters, or completes the frame of the hit 255 or 479 samples before it
(43_demodulator.md R206; 44_frame_assembler.md R233, R234). -/
theorem processSample_queue (h : processSample p false im re b = some b') :
    (b'.fq = b.fq ∧ b'.seqCtr = b.seqCtr ∧ b'.cntFqdrop = b.cntFqdrop ∧ b'.cntFrame = b.cntFrame) ∨
    ((∃ d, b.demod = some d ∧ (since b.sidx d.h = 255 ∨ since b.sidx d.h = 479)) ∧
      b'.cntFrame = b.cntFrame + 1#32 ∧ (b'.cntFqdrop = b.cntFqdrop ∨ b'.cntFqdrop = b.cntFqdrop + 1#32)) := by
  obtain ⟨b1, h1, h2⟩ := processSample_stages h
  rw [(decideStep_decision h2).1.frame]
  obtain rfl | ⟨d, r, hd, hwhen, rfl⟩ := demodStep_completes h1
  · exact .inl ⟨rfl, rfl, rfl, rfl⟩
  · refine .inr ⟨⟨d, hd, hwhen⟩, rfl, ?_⟩
    simp only [enqueue_cntFqdrop, storeSample_cntFqdrop]
    split
    · exact .inr rfl
    · exact .inl rfl

/-- A sample takes no hit, or counts one (42_correlator.md R170 to R173). -/
theorem processSample_hits (h : processSample p false im re b = some b') :
    (b'.cntHit = b.cntHit ∧ (b'.cntSupp = b.cntSupp ∨ b'.cntSupp = b.cntSupp + 1#32) ∧ b'.lastHit = b.lastHit ∧
      (b'.demod = none ∨ b'.demod = b.demod)) ∨
    (b'.cntHit = b.cntHit + 1#32 ∧ b'.cntSupp = b.cntSupp) := by
  obtain ⟨b1, h1, h2⟩ := processSample_stages h
  have hdemod : b1.demod = none ∨ b1.demod = b.demod := by
    obtain rfl | ⟨d, r, _, _, rfl⟩ := demodStep_completes h1
    · exact .inr rfl
    · exact .inl rfl
  have hframe := demodStep_frame h1
  have hhit : b1.cntHit = b.cntHit := (congrArg Block.cntHit hframe :)
  have hsupp : b1.cntSupp = b.cntSupp := (congrArg Block.cntSupp hframe :)
  have hlast : b1.lastHit = b.lastHit := (congrArg Block.lastHit hframe :)
  cases (decideStep_decision h2).1 with
  | unchanged => exact .inl ⟨hhit, .inl hsupp, hlast, hdemod⟩
  | suppressed => exact .inl ⟨hhit, .inr (congrArg (· + 1#32) hsupp), hlast, hdemod⟩
  | rearmed => exact .inl ⟨hhit, .inl hsupp, hlast, hdemod⟩
  | taken d => exact .inr ⟨congrArg (· + 1#32) hhit, hsupp⟩

/-- A sample counts in CNT_BADMAG at most once (40_sample_magnitude.md R116). -/
theorem processSample_badmag (h : processSample p false im re b = some b') :
    b'.cntBadmag = b.cntBadmag ∨ b'.cntBadmag = b.cntBadmag + 1#32 := by
  have hbad : b'.cntBadmag = (storeSample im re b).cntBadmag := (congrArg Block.cntBadmag (processSample_frame h) :)
  rw [hbad, storeSample_cntBadmag]
  split
  · exact .inr rfl
  · exact .inl rfl

/-- The sample of a segment of fewer than 48 samples with it decides no index (42_correlator.md R168). -/
theorem processSample_early (h : processSample p false im re b = some b') (hseg : since b.sidx b.segStart < 47) :
    b'.cntHit = b.cntHit ∧ b'.cntSupp = b.cntSupp ∧ b'.armed = b.armed ∧ b'.lastHit = b.lastHit := by
  obtain ⟨b1, h1, h2⟩ := processSample_stages h
  have hframe := demodStep_frame h1
  have hstart : b1.segStart = b.segStart := (congrArg Block.segStart hframe :)
  rw [(decideStep_decision h2).2 (by rw [hstart]; exact hseg), hframe]
  exact ⟨rfl, rfl, rfl, rfl⟩

/-! ### The transaction -/

/-- The registers that only the register port's transactions write (10_state.md R49): CTRL's fields, the six other
configuration registers and CNT_BUSERR. -/
structure Registers where
  en : Bool
  ie : Bool
  magMode : MagMode
  nfMode : NfMode
  tAbs : Word
  kRel : Word
  eps : Word
  nfWindow : Word
  nfShift : BitVec 5
  holdoff : BitVec 16
  cntBuserr : Word

/-- Those registers of a block. -/
def Block.registers (b : Block) : Registers :=
  ⟨b.en, b.ie, b.magMode, b.nfMode, b.tAbs, b.kRel, b.eps, b.nfWindow, b.nfShift, b.holdoff, b.cntBuserr⟩

theorem registers_eq_iff : b'.registers = b.registers ↔
    b'.en = b.en ∧ b'.ie = b.ie ∧ b'.magMode = b.magMode ∧ b'.nfMode = b.nfMode ∧ b'.tAbs = b.tAbs ∧
      b'.kRel = b.kRel ∧ b'.eps = b.eps ∧ b'.nfWindow = b.nfWindow ∧ b'.nfShift = b.nfShift ∧
      b'.holdoff = b.holdoff ∧ b'.cntBuserr = b.cntBuserr := by
  simp only [Block.registers, Registers.mk.injEq]

/-- A processed sample writes none of those registers, its segment ending or not. -/
theorem processSample_registers {u : Block} (h : processSample p false im re b = some u) (last : Bool) :
    (if last then flush u else u).registers = b.registers := by
  have hframe : u.registers = b.registers := (congrArg Block.registers (processSample_frame h) :)
  cases last
  · exact hframe
  · exact hframe

/-- A SAMPLE leaves the state with EN = 0; with EN = 1 it processes the sample and LAST = 1 then ends the segment
(40_sample_magnitude.md R111, R119). -/
theorem exec_sample_cases {s t : State} {last : Bool} (h : exec (.sample last im re) s = .next t) :
    (s.blk.en = false ∧ t = s) ∨
    (s.blk.en = true ∧ ∃ u, processSample s.params false im re s.blk = some u ∧
      t = withBlk s (if last then flush u else u)) := by
  obtain hs | ⟨hen, b, hb, rfl⟩ := execSample_cases h
  · exact .inl hs
  · obtain ⟨u, hu, rfl⟩ := processSample_last hb
    exact .inr ⟨hen, u, hu, rfl⟩

/-- A processed sample's magnitude joins the history of its segment, and SIDX counts it
(40_sample_magnitude.md R110). -/
theorem processSample_stores (h : processSample p false im re b = some b') :
    b'.sidx = b.sidx + 1#64 ∧ b'.hist =
      { mag := sanitize (rawOf b im re), noise := noiseValue b (sanitize (rawOf b im re)) } :: b.hist := by
  have hframe := processSample_frame h
  exact ⟨(congrArg Block.sidx hframe :), (congrArg Block.hist hframe :)⟩

theorem exec_sample_of_some {s : State} (hen : s.blk.en = true) {u : Block}
    (h : processSample s.params false im re s.blk = some u) (last : Bool) :
    exec (.sample last im re) s = .next (withBlk s (if last then flush u else u)) := by
  obtain ⟨b1, h1, h2⟩ := processSample_stages h
  have hlast : processSample s.params last im re s.blk = some (if last then flush u else u) := by
    simp [processSample, h1, h2]
  simp only [exec, execSample, hen, if_true, hlast]

/-- Settles O25: from the invariant a sample is processed, and LAST = 1 then flushes the segment. -/
theorem enabledSampleCompletes : Obligations.EnabledSampleCompletes := by
  intro s last im re hinv hen
  obtain ⟨u, hu⟩ := processSample_some false im re hinv.params hinv.blk
  obtain ⟨hsidx, hhist⟩ := processSample_stores hu
  refine ⟨_, exec_sample_of_some hen hu last, ?_, fun hl => ?_, fun hl => ?_⟩
  · cases last
    · exact hsidx
    · exact hsidx
  · subst hl
    exact ⟨_, hhist⟩
  · subst hl
    exact ⟨rfl, rfl, rfl⟩

/-- The end of a segment leaves the queue and all counters but CNT_DISCARD (40_sample_magnitude.md R126). -/
theorem ite_flush_counters (last : Bool) (u : Block) :
    let v := if last then flush u else u
    v.fq = u.fq ∧ v.seqCtr = u.seqCtr ∧ v.cntFqdrop = u.cntFqdrop ∧ v.cntFrame = u.cntFrame ∧
      v.cntHit = u.cntHit ∧ v.cntSupp = u.cntSupp ∧ v.cntBadmag = u.cntBadmag := by
  cases last
  · exact ⟨rfl, rfl, rfl, rfl, rfl, rfl, rfl⟩
  · exact ⟨rfl, rfl, rfl, rfl, rfl, rfl, rfl⟩

/-- A counter that counted is not what it was. -/
theorem counter_add_one_ne (w : Word) : w + 1#32 ≠ w := by
  bv_omega

/-- Settles O26: the frame of the stages, and how the queue, the counters and the guard may change. -/
theorem sampleFrame : Obligations.SampleFrame := by
  intro s t last im re h
  obtain ⟨hen, rfl⟩ | ⟨hen, u, hu, rfl⟩ := exec_sample_cases h
  · simp [hen]
  have hframe := processSample_frame hu
  obtain ⟨hfq, hseq, hdrop, hframes, hhits, hsupp, _⟩ := ite_flush_counters last u
  obtain ⟨ren, rie, rmag, rnf, rtAbs, rkRel, reps, rwindow, rshift, rholdoff, rbuserr⟩ :=
    registers_eq_iff.1 (processSample_registers hu last)
  simp only [withBlk_blk, hfq, hseq, hdrop, hframes, hhits, hsupp]
  refine ⟨rfl, rfl, ren, rie, rmag, rnf, rtAbs, rkRel, reps, rwindow, rshift, rholdoff, rbuserr, fun hl => ?_,
    fun hidle => ?_, fun hsame => ?_, fun hearly => ?_, fun hl hsame => ?_⟩
  · subst hl
    exact ⟨(congrArg Block.segStart hframe :), (congrArg Block.cntDiscard hframe :),
      fun _ => (congrArg (fun b => b.hist.tail) hframe :)⟩
  · obtain ⟨_, _, _, hsame⟩ | ⟨⟨d, hd, hwhen⟩, _⟩ := processSample_queue hu
    · exact hsame
    · obtain ⟨h255, h479⟩ := hidle d hd
      exact absurd hwhen (not_or.2 ⟨h255, h479⟩)
  · obtain ⟨hfq', hseq', hdrop', _⟩ | ⟨_, hcount, _⟩ := processSample_queue hu
    · exact ⟨hfq', hseq', hdrop'⟩
    · exact absurd (hcount.symm.trans hsame) (counter_add_one_ne _)
  · obtain ⟨hh, hs, ha, hl⟩ := processSample_early hu hearly
    exact ⟨hh, hs, fun hlast => by subst hlast; exact ⟨ha, hl⟩⟩
  · subst hl
    obtain ⟨_, _, hlast, hdemod⟩ | ⟨hcount, _⟩ := processSample_hits hu
    · exact ⟨hlast, hdemod⟩
    · exact absurd (hcount.symm.trans hsame) (counter_add_one_ne _)

/-! ### Every transaction -/

/-- The effect of each transaction on the block, for those that may change it. -/
inductive Effect (p : Params) (b : Block) : Instr → Block → Prop where
  | same (i : Instr) : Effect p b i b
  | rdBuserr (a : Addr) : Effect p b (.rdBuserr a) (busError b)
  | wrBuserr (a : Addr) (v : Word) : Effect p b (.wrBuserr a v) (busError b)
  | ctrl (v : Word) : Effect p b (.wrCtrl v) (writeCtrl v b)
  | tAbs (v : Word) : Effect p b (.wrTAbs v) { b with tAbs := v }
  | kRel (v : Word) : Effect p b (.wrKRel v) { b with kRel := v }
  | eps (v : Word) : Effect p b (.wrEps v) { b with eps := v }
  | nfWindow (v : Word) : Effect p b (.wrNfWindow v) { b with nfWindow := legalWindow p v }
  | nfShift (v : Word) : Effect p b (.wrNfShift v) { b with nfShift := shiftField v }
  | holdoff (v : Word) : Effect p b (.wrHoldoff v) { b with holdoff := legalHoldoff v }
  | pop (i : Instr) : Effect p b i (popFrame b)
  | sample (last : Bool) (im re : Word) {u : Block} (h : processSample p false im re b = some u) :
      Effect p b (.sample last im re) (if last then flush u else u)

/-- Every transaction that completes has one of these effects on the block, by its instruction. -/
theorem exec_effect {i : Instr} {s t : State} (h : exec i s = .next t) : Effect s.params s.blk i t.blk := by
  cases i
  case sample last im re =>
    obtain ⟨_, rfl⟩ | ⟨_, u, hu, rfl⟩ := exec_sample_cases h
    · exact .same _
    · exact .sample last im re hu
  case ftake =>
    cases hq : s.blk.fq with
    | nil => rw [exec_ftake_of_nil hq] at h; cases h; exact .same _
    | cons r rest => rw [exec_ftake_of_cons hq] at h; cases h; exact .pop _
  case wrCtrl v => cases h; exact .ctrl v
  case wrTAbs v => cases h; exact .tAbs v
  case wrKRel v => cases h; exact .kRel v
  case wrEps v => cases h; exact .eps v
  case wrNfWindow v => cases h; exact .nfWindow v
  case wrNfShift v => cases h; exact .nfShift v
  case wrHoldoff v => cases h; exact .holdoff v
  case wrFrPop v => cases h; exact .pop _
  case rdBuserr a => cases h; exact .rdBuserr a
  case wrBuserr a v => cases h; exact .wrBuserr a v
  all_goals cases h; exact .same _

/-- A segment's end counts in CNT_DISCARD at most the demodulation in flight (40_sample_magnitude.md R126). -/
theorem flush_cntDiscard_or (b : Block) :
    (flush b).cntDiscard = b.cntDiscard ∨ (flush b).cntDiscard = b.cntDiscard + 1#32 := by
  rw [flush_cntDiscard]
  split
  · exact .inr rfl
  · exact .inl rfl

/-- A WR to CTRL without SRESET writes CTRL's fields and what a flush does (45_register_port.md R267). -/
theorem writeCtrl_frame {v : Word} (h : v.getLsbD 2 ≠ true) (b : Block) :
    writeCtrl v b = { b with
      en := v.getLsbD 0, ie := v.getLsbD 3, magMode := magModeOf v b.magMode, nfMode := nfModeOf v
      cntDiscard := (writeCtrl v b).cntDiscard, demod := (writeCtrl v b).demod, hist := (writeCtrl v b).hist
      segStart := (writeCtrl v b).segStart, env := (writeCtrl v b).env, armed := (writeCtrl v b).armed
      lastHit := (writeCtrl v b).lastHit } := by
  simp only [writeCtrl, if_neg h]
  split
  · rfl
  · rfl

/-- The soft reset: a WR to CTRL with SRESET = 1 (70_reset_and_hazards.md R351). -/
def SoftReset (i : Instr) : Prop := ∃ v, i = .wrCtrl v ∧ v.getLsbD 2 = true

/-- A counter is cleared by the soft reset alone; else it stays, or counts by one for its cause (10_state.md R35). -/
def Counts (i : Instr) (b b' : Block) (f : Block → Word) (cause : Prop) : Prop :=
  SoftReset i ∨ f b' = f b ∨ (f b' = f b + 1#32 ∧ cause)

theorem Counts.of_eq {i : Instr} {f : Block → Word} {cause : Prop} (h : f b' = f b) : Counts i b b' f cause :=
  .inr (.inl h)

theorem Counts.of_or {i : Instr} {f : Block → Word} {cause : Prop} (h : f b' = f b ∨ f b' = f b + 1#32)
    (hc : cause) : Counts i b b' f cause :=
  .inr (h.imp_right fun hf => ⟨hf, hc⟩)

/-- CNT_HIT, CNT_SUPP, CNT_FRAME, CNT_FQDROP and CNT_BADMAG count a SAMPLE. -/
theorem Effect.sampleCounters {i : Instr} (h : Effect p b i b') :
    let sample : Prop := ∃ last im re, i = .sample last im re
    Counts i b b' Block.cntHit sample ∧ Counts i b b' Block.cntSupp sample ∧ Counts i b b' Block.cntFrame sample ∧
      Counts i b b' Block.cntFqdrop sample ∧ Counts i b b' Block.cntBadmag sample := by
  intro sample
  cases h
  case sample last im re u hu =>
    have hcause : sample := ⟨last, im, re, rfl⟩
    obtain ⟨_, _, hdrop, hframe, hhit, hsupp, hbad⟩ := ite_flush_counters last u
    have hits : (u.cntHit = b.cntHit ∨ u.cntHit = b.cntHit + 1#32) ∧
        (u.cntSupp = b.cntSupp ∨ u.cntSupp = b.cntSupp + 1#32) := by
      obtain ⟨hh, hs, _⟩ | ⟨hh, hs⟩ := processSample_hits hu
      · exact ⟨.inl hh, hs⟩
      · exact ⟨.inr hh, .inl hs⟩
    have frames : (u.cntFrame = b.cntFrame ∨ u.cntFrame = b.cntFrame + 1#32) ∧
        (u.cntFqdrop = b.cntFqdrop ∨ u.cntFqdrop = b.cntFqdrop + 1#32) := by
      obtain ⟨_, _, hd, hf⟩ | ⟨_, hf, hd⟩ := processSample_queue hu
      · exact ⟨.inl hf, .inl hd⟩
      · exact ⟨.inr hf, hd⟩
    exact ⟨.of_or (by rw [hhit]; exact hits.1) hcause, .of_or (by rw [hsupp]; exact hits.2) hcause,
      .of_or (by rw [hframe]; exact frames.1) hcause, .of_or (by rw [hdrop]; exact frames.2) hcause,
      .of_or (by rw [hbad]; exact processSample_badmag hu) hcause⟩
  case ctrl v =>
    by_cases hreset : v.getLsbD 2 = true
    · have hsoft : SoftReset (.wrCtrl v) := ⟨v, rfl, hreset⟩
      exact ⟨.inl hsoft, .inl hsoft, .inl hsoft, .inl hsoft, .inl hsoft⟩
    · rw [writeCtrl_frame hreset]
      exact ⟨.of_eq rfl, .of_eq rfl, .of_eq rfl, .of_eq rfl, .of_eq rfl⟩
  all_goals exact ⟨.of_eq rfl, .of_eq rfl, .of_eq rfl, .of_eq rfl, .of_eq rfl⟩

/-- CNT_DISCARD counts a segment's end: a SAMPLE with LAST = 1, or a WR to CTRL with FLUSH = 1. -/
theorem Effect.discardCounter {i : Instr} (h : Effect p b i b') :
    Counts i b b' Block.cntDiscard
      ((∃ im re, i = .sample true im re) ∨ ∃ v, i = .wrCtrl v ∧ v.getLsbD 1 = true) := by
  cases h
  case sample last im re u hu =>
    have hsame : u.cntDiscard = b.cntDiscard := (congrArg Block.cntDiscard (processSample_frame hu) :)
    cases last
    · exact .of_eq hsame
    · exact .of_or (by rw [← hsame]; exact flush_cntDiscard_or u) (.inl ⟨im, re, rfl⟩)
  case ctrl v =>
    by_cases hreset : v.getLsbD 2 = true
    · exact .inl ⟨v, rfl, hreset⟩
    · simp only [writeCtrl, if_neg hreset]
      split
      · next hflush => exact .of_or (flush_cntDiscard_or (writeCtrlFields v b)) (.inr ⟨v, rfl, hflush⟩)
      · exact .of_eq rfl
  all_goals exact .of_eq rfl

/-- CNT_BUSERR counts a bus error. -/
theorem Effect.buserrCounter {i : Instr} (h : Effect p b i b') :
    Counts i b b' Block.cntBuserr ((∃ a, i = .rdBuserr a) ∨ ∃ a v, i = .wrBuserr a v) := by
  cases h
  case sample last im re u hu => exact .of_eq (congrArg Registers.cntBuserr (processSample_registers hu last))
  case ctrl v =>
    by_cases hreset : v.getLsbD 2 = true
    · exact .inl ⟨v, rfl, hreset⟩
    · rw [writeCtrl_frame hreset]
      exact .of_eq rfl
  case rdBuserr a => exact .inr (.inr ⟨rfl, .inl ⟨a, rfl⟩⟩)
  case wrBuserr a v => exact .inr (.inr ⟨rfl, .inr ⟨a, v, rfl⟩⟩)
  all_goals exact .of_eq rfl

/-- CTRL's fields change by a WR to CTRL. -/
theorem Effect.ctrlFields {i : Instr} (h : Effect p b i b') :
    (∃ v, i = .wrCtrl v) ∨ (b'.en = b.en ∧ b'.ie = b.ie ∧ b'.magMode = b.magMode ∧ b'.nfMode = b.nfMode) := by
  cases h
  case ctrl v => exact .inl ⟨v, rfl⟩
  case sample last im re u hu =>
    obtain ⟨hen, hie, hmag, hnf, _⟩ := registers_eq_iff.1 (processSample_registers hu last)
    exact .inr ⟨hen, hie, hmag, hnf⟩
  all_goals exact .inr ⟨rfl, rfl, rfl, rfl⟩

/-- A configuration register changes by a WR to it or by the soft reset (10_state.md R49). -/
def WrittenBy {α : Type} (i : Instr) (b b' : Block) (f : Block → α) (wr : Word → Instr) : Prop :=
  f b' = f b ∨ SoftReset i ∨ ∃ v, i = wr v

theorem Effect.configuration {i : Instr} (h : Effect p b i b') :
    WrittenBy i b b' Block.tAbs .wrTAbs ∧ WrittenBy i b b' Block.kRel .wrKRel ∧ WrittenBy i b b' Block.eps .wrEps ∧
      WrittenBy i b b' Block.nfWindow .wrNfWindow ∧ WrittenBy i b b' Block.nfShift .wrNfShift ∧
      WrittenBy i b b' Block.holdoff .wrHoldoff := by
  cases h
  case sample last im re u hu =>
    obtain ⟨_, _, _, _, htAbs, hkRel, heps, hwindow, hshift, hholdoff, _⟩ :=
      registers_eq_iff.1 (processSample_registers hu last)
    exact ⟨.inl htAbs, .inl hkRel, .inl heps, .inl hwindow, .inl hshift, .inl hholdoff⟩
  case ctrl v =>
    by_cases hreset : v.getLsbD 2 = true
    · have hsoft : SoftReset (.wrCtrl v) := ⟨v, rfl, hreset⟩
      exact ⟨.inr (.inl hsoft), .inr (.inl hsoft), .inr (.inl hsoft), .inr (.inl hsoft), .inr (.inl hsoft),
        .inr (.inl hsoft)⟩
    · rw [writeCtrl_frame hreset]
      exact ⟨.inl rfl, .inl rfl, .inl rfl, .inl rfl, .inl rfl, .inl rfl⟩
  case tAbs v => exact ⟨.inr (.inr ⟨v, rfl⟩), .inl rfl, .inl rfl, .inl rfl, .inl rfl, .inl rfl⟩
  case kRel v => exact ⟨.inl rfl, .inr (.inr ⟨v, rfl⟩), .inl rfl, .inl rfl, .inl rfl, .inl rfl⟩
  case eps v => exact ⟨.inl rfl, .inl rfl, .inr (.inr ⟨v, rfl⟩), .inl rfl, .inl rfl, .inl rfl⟩
  case nfWindow v => exact ⟨.inl rfl, .inl rfl, .inl rfl, .inr (.inr ⟨v, rfl⟩), .inl rfl, .inl rfl⟩
  case nfShift v => exact ⟨.inl rfl, .inl rfl, .inl rfl, .inl rfl, .inr (.inr ⟨v, rfl⟩), .inl rfl⟩
  case holdoff v => exact ⟨.inl rfl, .inl rfl, .inl rfl, .inl rfl, .inl rfl, .inr (.inr ⟨v, rfl⟩)⟩
  all_goals exact ⟨.inl rfl, .inl rfl, .inl rfl, .inl rfl, .inl rfl, .inl rfl⟩

/-- Settles O57: by the effect of the transaction on the block. -/
theorem onlyTheirOwnTransactions : Obligations.OnlyTheirOwnTransactions := by
  intro i s t h softReset counts sample
  have heff := exec_effect h
  obtain ⟨hhit, hsupp, hframe, hdrop, hbad⟩ := heff.sampleCounters
  obtain ⟨htAbs, hkRel, heps, hwindow, hshift, hholdoff⟩ := heff.configuration
  refine ⟨hhit, hsupp, hframe, hdrop, hbad, heff.discardCounter, heff.buserrCounter, fun hchange => ?_,
    htAbs.resolve_left, hkRel.resolve_left, heps.resolve_left, hwindow.resolve_left, hshift.resolve_left,
    hholdoff.resolve_left⟩
  obtain hctrl | ⟨hen, hie, hmag, hnf⟩ := heff.ctrlFields
  · exact hctrl
  · simp [hen, hie, hmag, hnf] at hchange

end Sys2Proof.Machine

/-! ## Old history has no effect on a SAMPLE (10_state.md R50)

Two blocks that differ only in their histories, and there only in magnitudes of age 481 and noise values of age 49 or
more, answer every read of a SAMPLE alike: once the new entry stands in front, the demodulator reads magnitudes of age
479 at most and the decision reads around age 47. So each stage leaves blocks that differ in the same way. -/

namespace Sys2Proof.Machine

variable {p : Params} {b : Block} {g i : SampleNo} {old : List HistEntry}

/-! ### Histories that agree on their newest entries -/

/-- Histories of one length whose newest `m` magnitudes and newest `n` noise values are the same. -/
structure SameRecent (m n : Nat) (h h' : List HistEntry) : Prop where
  length : h'.length = h.length
  mag : ∀ k < m, (h'[k]?).map HistEntry.mag = (h[k]?).map HistEntry.mag
  noise : ∀ k < n, (h'[k]?).map HistEntry.noise = (h[k]?).map HistEntry.noise

theorem getElem?_map_of_take_eq {α β : Type} {f : α → β} {xs ys : List α} {n k : Nat}
    (h : (xs.map f).take n = (ys.map f).take n) (hk : k < n) : (xs[k]?).map f = (ys[k]?).map f := by
  rw [← List.getElem?_map, ← List.getElem?_map, ← List.getElem?_take_of_lt hk, h, List.getElem?_take_of_lt hk]

theorem SameRecent.of_take {m n : Nat} {h h' : List HistEntry} (hl : h'.length = h.length)
    (hm : (h'.map HistEntry.mag).take m = (h.map HistEntry.mag).take m)
    (hn : (h'.map HistEntry.noise).take n = (h.map HistEntry.noise).take n) : SameRecent m n h h' :=
  ⟨hl, fun _ hk => getElem?_map_of_take_eq hm hk, fun _ hk => getElem?_map_of_take_eq hn hk⟩

theorem SameRecent.mono {m m' n : Nat} {h h' : List HistEntry} (hs : SameRecent m n h h') (hm : m' ≤ m) :
    SameRecent m' n h h' :=
  ⟨hs.length, fun k hk => hs.mag k (by omega), hs.noise⟩

theorem SameRecent.cons {m n : Nat} {h h' : List HistEntry} (hs : SameRecent m n h h') (e : HistEntry) :
    SameRecent (m + 1) (n + 1) (e :: h) (e :: h') where
  length := by simp [hs.length]
  mag k hk := by
    cases k with
    | zero => rfl
    | succ k => simpa using hs.mag k (by omega)
  noise k hk := by
    cases k with
    | zero => rfl
    | succ k => simpa using hs.noise k (by omega)

/-- The block with another history. -/
def withHist (b : Block) (h : List HistEntry) : Block := { b with hist := h }

/-- Two blocks of one history but for what is too old for a SAMPLE to read, its own entry in front. -/
abbrev RecentHist (b : Block) (h : List HistEntry) : Prop := SameRecent 481 49 b.hist h

/-! ### Reads of the history -/

section Reads

variable (hs : RecentHist b old)
include hs

theorem magAt_withHist (hg : ageOf b g < 481) : magAt (withHist b old) g = magAt b g := by
  have hentry : (entryAt (withHist b old) g).map HistEntry.mag = (entryAt b g).map HistEntry.mag := hs.mag _ hg
  have hmag (c : Block) : magAt c g = ((entryAt c g).map HistEntry.mag).map f32 := by
    rw [magAt, Option.map_map]
    rfl
  rw [hmag, hmag, hentry]

theorem noiseAt_withHist (hg : ageOf b g < 49) : noiseAt (withHist b old) g = noiseAt b g :=
  hs.noise _ hg

/-- A magnitude of a later sample is as recent. -/
theorem magAt_add_withHist {k : Nat} (hk : k ≤ ageOf b g) (hg : ageOf b g < 481) :
    magAt (withHist b old) (g + BitVec.ofNat 64 k) = magAt b (g + BitVec.ofNat 64 k) :=
  magAt_withHist hs (by rw [ageOf_add hk]; omega)

theorem foldSum_withHist {ps : List Nat} (hp : ∀ q ∈ ps, q ≤ ageOf b g) (hg : ageOf b g < 481) :
    foldSum (withHist b old) g ps = foldSum b g ps := by
  cases ps with
  | nil => rfl
  | cons q qs =>
    simp only [foldSum]
    rw [magAt_add_withHist hs (hp q List.mem_cons_self) hg,
      mapOpt_congr fun k hk => magAt_add_withHist hs (hp k (List.mem_cons_of_mem _ hk)) hg]

theorem pulseSum_withHist (h31 : 31 ≤ ageOf b i) (hi : ageOf b i < 481) :
    pulseSum (withHist b old) i = pulseSum b i :=
  foldSum_withHist hs (fun q hq => le_trans ((by decide : ∀ q ∈ pHi, q ≤ 31) q hq) h31) hi

theorem lowSum_withHist (h31 : 31 ≤ ageOf b i) (hi : ageOf b i < 481) : lowSum (withHist b old) i = lowSum b i :=
  foldSum_withHist hs (fun q hq => le_trans ((by decide : ∀ q ∈ pLo, q ≤ 31) q hq) h31) hi

theorem templateHeld_withHist : templateHeld (withHist b old) i = templateHeld b i := by
  have hlen : (withHist b old).hist.length = b.hist.length := hs.length
  simp only [templateHeld, hlen]
  rfl

theorem score_withHist (hi : ageOf b i < 481) : score (withHist b old) i = score b i := by
  simp only [score, templateHeld_withHist hs]
  split
  · next ht =>
    have h31 : 31 ≤ ageOf b i := by
      simp only [templateHeld, Bool.and_eq_true, decide_eq_true_eq] at ht
      exact ht.1
    rw [pulseSum_withHist hs h31 hi, lowSum_withHist hs h31 hi]
  · rfl

theorem qualify_withHist (hi : ageOf b i < 49) : qualify (withHist b old) i = qualify b i := by
  simp only [qualify, score_withHist hs (i := i) (by omega), noiseAt_withHist hs hi]
  rfl

omit hs in
theorem allOpt_congr {α : Type} {f f' : α → Option Bool} {xs : List α} (h : ∀ x ∈ xs, f x = f' x) :
    allOpt f xs = allOpt f' xs := by
  induction xs with
  | nil => rfl
  | cons x xs ih =>
    simp only [allOpt]
    rw [h x List.mem_cons_self, ih fun y hy => h y (List.mem_cons_of_mem _ hy)]

theorem localMax_withHist (h16 : 16 ≤ ageOf b i) (hi : ageOf b i + 16 < 481) :
    localMax (withHist b old) i = localMax b i := by
  have hreach : reachBack (withHist b old) i = reachBack b i := rfl
  have hle : reachBack b i ≤ 16 := Nat.min_le_left _ _
  simp only [localMax, hreach, score_withHist hs (i := i) (by omega)]
  have hearlier (c : Fp) := allOpt_congr (xs := List.range' 1 (reachBack b i))
    (f := fun k => (score (withHist b old) (i - BitVec.ofNat 64 k)).map (fgt c))
    (f' := fun k => (score b (i - BitVec.ofNat 64 k)).map (fgt c)) fun k hk => by
      rw [List.mem_range'_1] at hk
      rw [score_withHist hs (by rw [ageOf_sub (by omega)]; omega)]
  have hlater (c : Fp) := allOpt_congr (xs := List.range' 1 lmRadius)
    (f := fun k => (score (withHist b old) (i + BitVec.ofNat 64 k)).map (fge c))
    (f' := fun k => (score b (i + BitVec.ofNat 64 k)).map (fge c)) fun k hk => by
      rw [List.mem_range'_1, lmRadius] at hk
      rw [score_withHist hs (by rw [ageOf_add (by omega)]; omega)]
  simp only [hearlier, hlater]

theorem halves_withHist {h : SampleNo} {k : Nat} (h1 : 35 + 4 * k ≤ ageOf b h) (h2 : ageOf b h < 481) :
    halves (withHist b old) h k = halves b h k := by
  have hadd : ∀ n : Nat, h + BitVec.ofNat 64 (32 + 4 * k) + BitVec.ofNat 64 n =
      h + BitVec.ofNat 64 (32 + 4 * k + n) := fun n => by
    rw [BitVec.add_assoc, ← BitVec.ofNat_add]
  simp only [halves]
  rw [hadd 1, hadd 2, hadd 3, magAt_add_withHist hs (by omega) h2, magAt_add_withHist hs (by omega) h2,
    magAt_add_withHist hs (by omega) h2, magAt_add_withHist hs (by omega) h2]

theorem downlinkFormat_withHist {h : SampleNo} (h1 : 51 ≤ ageOf b h) (h2 : ageOf b h < 481) :
    downlinkFormat (withHist b old) h = downlinkFormat b h := by
  simp only [downlinkFormat]
  rw [mapOpt_congr fun k hk => halves_withHist hs (by rw [List.mem_range] at hk; omega) h2]

/-! ### The stages -/

theorem takeHit_withHist (h31 : 31 ≤ ageOf b i) (hi : ageOf b i < 49) :
    takeHit i (withHist b old) = (takeHit i b).map (withHist · old) := by
  simp only [takeHit, score_withHist hs (i := i) (by omega), noiseAt_withHist hs hi,
    pulseSum_withHist hs h31 (by omega)]
  cases score b i <;> cases noiseAt b i <;> cases pulseSum b i <;> rfl

omit hs in
theorem rearm_withHist : rearm i (withHist b old) = (rearm i b).map (withHist · old) := by
  have hlast : (withHist b old).lastHit = b.lastHit := rfl
  simp only [rearm, hlast]
  cases b.lastHit with
  | none => rfl
  | some l =>
    simp only [Option.bind_eq_bind, Option.bind_some, Option.map_some, apply_ite (withHist · old)]
    rfl

/-- The decision of index g - 47 reads magnitudes of age 63 at most and the noise value of age 47
(42_correlator.md R163, R166). -/
theorem decideIndex_withHist (hi : ageOf b i = 47) :
    decideIndex i (withHist b old) = (decideIndex i b).map (withHist · old) := by
  have hcand (q : Bool) : candidate (withHist b old) i q = candidate b i q := by
    simp only [candidate, localMax_withHist hs (i := i) (by omega) (by omega)]
  simp only [decideIndex, qualify_withHist hs (i := i) (by omega), hcand,
    takeHit_withHist hs (i := i) (by omega) (by omega), rearm_withHist]
  cases qualify b i with
  | none => rfl
  | some q =>
    simp only [Option.bind_eq_bind, Option.bind_some]
    cases candidate b i q with
    | none => rfl
    | some hit =>
      simp only [Option.bind_some, apply_ite (Option.map (withHist · old))]
      rfl

theorem decideStep_withHist :
    decideStep (b.sidx - 1#64) (withHist b old) = (decideStep (b.sidx - 1#64) b).map (withHist · old) := by
  have hstart : (withHist b old).segStart = b.segStart := rfl
  unfold decideStep
  rw [hstart]
  by_cases hlag : decisionLag ≤ since (b.sidx - 1#64) b.segStart
  · rw [if_pos hlag, if_pos hlag]
    exact decideIndex_withHist hs (ageOf_decided b)
  · rw [if_neg hlag, if_neg hlag]
    rfl

theorem complete_withHist {d : Demod} {df : BitVec 5} (h1 : ageOf b d.h = 31 + 4 * frameLen df)
    (h2 : ageOf b d.h < 481) : complete p d df (withHist b old) = (complete p d df b).map (withHist · old) := by
  simp only [complete]
  rw [mapOpt_congr fun k hk => halves_withHist hs (by rw [List.mem_range] at hk; omega) h2]
  cases mapOpt (halves b d.h) (List.range (frameLen df)) with
  | none => rfl
  | some ab => rfl

/-- The demodulator reads magnitudes no older than the hit in flight (43_demodulator.md R206). -/
theorem demodStep_withHist (hd : ∀ d, b.demod = some d → ageOf b d.h < 481) :
    demodStep p (b.sidx - 1#64) (withHist b old) = (demodStep p (b.sidx - 1#64) b).map (withHist · old) := by
  have hdemod : (withHist b old).demod = b.demod := rfl
  have hsince (d : Demod) : since (b.sidx - 1#64) d.h = ageOf b d.h := rfl
  simp only [demodStep, hdemod]
  cases hb : b.demod with
  | none => rfl
  | some d =>
    have hage := hd d hb
    simp only [hsince]
    split
    · rfl
    · next h51 =>
      rw [downlinkFormat_withHist hs (by omega) hage]
      cases downlinkFormat b d.h with
      | none => rfl
      | some df =>
        simp only [Option.bind_eq_bind, Option.bind_some]
        split
        · next hlast => exact complete_withHist hs hlast hage
        · rfl

end Reads

/-! ### A processed sample -/

/-- The noise value of a sample reads the newest NF_WINDOW - 1 magnitudes before it (41_noise_floor.md R143). -/
theorem noiseValue_withHist {n : Nat} (hw : b.nfWindow.toNat ≤ n)
    (hm : (old.map HistEntry.mag).take n = (b.hist.map HistEntry.mag).take n) (m : Word) :
    noiseValue (withHist b old) m = noiseValue b m := by
  have hmin : movingMin (withHist b old) m = movingMin b m := by
    have hsize : windowSize b.nfWindow b.sidx b.segStart - 1 ≤ n := by
      simp only [windowSize]
      omega
    have htake := congrArg (List.take (windowSize b.nfWindow b.sidx b.segStart - 1)) hm
    rw [List.take_take, List.take_take, Nat.min_eq_left hsize, ← List.map_take, ← List.map_take] at htake
    exact congrArg (leastOf m) htake
  simp only [noiseValue, hmin]
  rfl

/-- Storing a sample puts the same entry in front of both histories. -/
theorem storeSample_withHist {n : Nat} {im re : Word} (hw : b.nfWindow.toNat ≤ n)
    (hm : (old.map HistEntry.mag).take n = (b.hist.map HistEntry.mag).take n) :
    ∃ e, (storeSample im re b).hist = e :: b.hist ∧
      storeSample im re (withHist b old) = withHist (storeSample im re b) (e :: old) := by
  refine ⟨_, rfl, ?_⟩
  rw [storeSample, show rawOf (withHist b old) im re = rawOf b im re from rfl]
  simp only [noiseValue_withHist hw hm]
  rfl

/-- Old history has no effect on a processed sample but to stay in the history. -/
theorem processSample_withHist {n : Nat} {im re : Word} (hb : b.Inv p) (hw : b.nfWindow.toNat ≤ n)
    (hm : (old.map HistEntry.mag).take n = (b.hist.map HistEntry.mag).take n) (hs : SameRecent 480 48 b.hist old) :
    ∃ e, (storeSample im re b).hist = e :: b.hist ∧
      processSample p false im re (withHist b old) =
        (processSample p false im re b).map (withHist · (e :: old)) := by
  obtain ⟨e, he, hstore⟩ := storeSample_withHist (im := im) (re := re) hw hm
  refine ⟨e, he, ?_⟩
  have hrec : RecentHist (storeSample im re b) (e :: old) := by
    rw [RecentHist, he]
    exact hs.cons e
  have hdemod := demodStep_withHist (p := p) hrec fun d hd => by
    have := (storeSample_due (im := im) (re := re) (hb.demod d hd)).unfinished
    omega
  rw [storeSample_newest] at hdemod
  have hsidx : (withHist b old).sidx = b.sidx := rfl
  simp only [processSample, hsidx, hstore, hdemod]
  cases h1 : demodStep p b.sidx (storeSample im re b) with
  | none => rfl
  | some b1 =>
    obtain ⟨hnext, _, hhist⟩ := demodStep_keeps _ h1
    have hdecide := decideStep_withHist (b := b1) (old := e :: old) (by rw [RecentHist, hhist]; exact hrec)
    rw [hnext, storeSample_newest] at hdecide
    simp only [Option.bind_eq_bind, Option.map_some, Option.bind_some, hdecide]
    cases decideStep b.sidx b1 with
    | none => rfl
    | some b2 => rfl

/-- Settles O59: the stages answer alike, and the end of a segment drops the history. -/
theorem oldHistoryHasNoEffect : Obligations.OldHistoryHasNoEffect := by
  intro s t old last im re hinv hw _ hlen hmags hnoises h run
  obtain ⟨hen, rfl⟩ | ⟨hen, u, hu, rfl⟩ := exec_sample_cases h
  · refine ⟨fun _ => ?_, fun hen' => ?_, fun hen' => ?_⟩
    · simp [run, exec, execSample, hen]
    · simp [hen] at hen'
    · simp [hen] at hen'
  · have hs : SameRecent 480 48 s.blk.hist old := (SameRecent.of_take hlen hmags hnoises).mono (le_max_right _ _)
    obtain ⟨e, he, hproc⟩ := processSample_withHist (im := im) (re := re) hinv.blk (le_max_of_le_left hw) hmags hs
    rw [hu, Option.map_some] at hproc
    have hrun : run = .next (withBlk s (if last then flush (withHist u (e :: old)) else withHist u (e :: old))) :=
      exec_sample_of_some (s := withBlk s (withHist s.blk old)) hen hproc last
    refine ⟨fun hen' => ?_, fun _ hl => ?_, fun _ hl => ?_⟩
    · simp [hen] at hen'
    · subst hl
      exact ⟨rfl, hrun⟩
    · subst hl
      exact ⟨e, (congrArg Block.hist (processSample_frame hu)).trans he, hrun⟩

end Sys2Proof.Machine

/-! ## Words and their values (20_memory.md R62, 00_scope.md R9, R12)

A word is a sign bit and the 31 bits below it. Those bits alone say how large its value is, and `finBits` finds them
back: the units of two different fields differ, because they grow strictly with the field. -/

namespace Sys2Proof.Machine

/-! ### The value of a sign bit and a field of 31 bits -/

/-- The word of a sign bit and the 31 bits below it. -/
def signedWord (neg : Bool) (m : Nat) : Word := BitVec.cons neg (BitVec.ofNat 31 m)

/-- The value those bits stand for. -/
def fieldValue (neg : Bool) (m : Nat) : Fp :=
  if m < 0x7F800000 then .fin neg (wordUnits m) else if m = 0x7F800000 then .inf neg else .nan

theorem fieldValue_infinity (neg : Bool) : fieldValue neg 0x7F800000 = .inf neg := rfl

theorem fieldValue_of_lt (neg : Bool) {m : Nat} (h : m < 0x7F800000) : fieldValue neg m = .fin neg (wordUnits m) :=
  if_pos h

theorem fieldValue_of_gt (neg : Bool) {m : Nat} (h : 0x7F800000 < m) : fieldValue neg m = .nan := by
  rw [fieldValue, if_neg (by omega), if_neg (by omega)]

theorem fabs_fieldValue (neg : Bool) (m : Nat) : fabs (fieldValue neg m) = fieldValue false m := by
  simp only [fieldValue]
  split
  · rfl
  · split
    · rfl
    · rfl

/-- Exponent and fraction are the upper 8 and the lower 23 bits of the field. -/
theorem f32_eq_fieldValue (w : Word) : f32 w = fieldValue (w.getLsbD 31) (w.toNat % 2 ^ 31) := by
  have hexp : (w.extractLsb' 23 8).toNat = w.toNat % 2 ^ 31 / 2 ^ 23 := by
    rw [BitVec.extractLsb'_toNat, Nat.shiftRight_eq_div_pow]
    omega
  have hfrac : (w.extractLsb' 0 23).toNat = w.toNat % 2 ^ 31 % 2 ^ 23 := by
    rw [BitVec.extractLsb'_toNat, Nat.shiftRight_zero]
    omega
  simp only [f32, hexp, hfrac]
  split
  · next h255 =>
    split
    · next h0 => rw [show w.toNat % 2 ^ 31 = 0x7F800000 by omega, fieldValue_infinity]
    · next h0 => rw [fieldValue_of_gt _ (by omega)]
  · next h255 =>
    rw [fieldValue_of_lt _ (by omega), wordUnits]
    split
    · rfl
    · rfl

theorem f32_signedWord (neg : Bool) {m : Nat} (h : m < 2 ^ 31) : f32 (signedWord neg m) = fieldValue neg m := by
  have hsign : (signedWord neg m).getLsbD 31 = neg := BitVec.msb_cons (x := BitVec.ofNat 31 m)
  have hfield : (signedWord neg m).toNat % 2 ^ 31 = m := by
    rw [signedWord, BitVec.toNat_cons', BitVec.toNat_ofNat, Nat.shiftLeft_eq, Nat.mul_add_mod_self_right, Nat.mod_mod,
      Nat.mod_eq_of_lt h]
  rw [f32_eq_fieldValue, hsign, hfield]

theorem signedWord_fields (w : Word) : signedWord (w.getLsbD 31) (w.toNat % 2 ^ 31) = w :=
  calc signedWord (w.getLsbD 31) (w.toNat % 2 ^ 31)
      = BitVec.cons w.msb (w.setWidth 31) := by
        rw [signedWord, ← BitVec.toNat_setWidth, BitVec.ofNat_toNat, BitVec.setWidth_eq]
        rfl
    _ = w := BitVec.cons_msb_setWidth w

/-! ### The field of a number of units -/

/-- The 31 bits that `finBits` puts below the sign. -/
def unitsField (u : Nat) : Nat := excess u * 2 ^ 23 + u / 2 ^ excess u

theorem finBits_eq_signedWord (neg : Bool) (u : Nat) : finBits neg u = signedWord neg (unitsField u) := rfl

/-- From 2^23 units on the significand has its leading bit. -/
theorem le_div_two_pow_excess {u : Nat} (h : 2 ^ 23 ≤ u) : 2 ^ 23 ≤ u / 2 ^ excess u := by
  rw [Nat.le_div_iff_mul_le (by positivity), ← pow_add]
  obtain h0 | hpos := Nat.eq_zero_or_pos (excess u)
  · rwa [h0]
  · exact two_pow_le_of_excess_pos hpos

theorem wordUnits_unitsField {u : Nat} (h : 2 ^ excess u ∣ u) : wordUnits (unitsField u) = u := by
  obtain hsub | hnormal := Nat.lt_or_ge u (2 ^ 23)
  · have h0 : excess u = 0 := Nat.le_zero.1 (excess_le (by omega))
    rw [unitsField, h0, Nat.zero_mul, Nat.zero_add, pow_zero, Nat.div_one, wordUnits, if_pos (by omega),
      Nat.mod_eq_of_lt hsub]
  · -- the leading bit of the significand carries into the exponent
    have hge := le_div_two_pow_excess hnormal
    have hlt := div_excess_lt u
    have hexp : unitsField u / 2 ^ 23 = excess u + 1 := by rw [unitsField]; omega
    have hfrac : 2 ^ 23 + unitsField u % 2 ^ 23 = u / 2 ^ excess u := by rw [unitsField]; omega
    rw [wordUnits, hexp, hfrac, if_neg (Nat.succ_ne_zero _), Nat.add_sub_cancel, Nat.div_mul_cancel h]

theorem two_pow_excess_dvd_wordUnits (m : Nat) : 2 ^ excess (wordUnits m) ∣ wordUnits m := by
  have hfrac : m % 2 ^ 23 < 2 ^ 23 := Nat.mod_lt _ (by positivity)
  rw [wordUnits]
  split
  · have hdvd := two_pow_excess_dvd 0 (show m % 2 ^ 23 ≤ 2 ^ 24 by omega)
    rwa [pow_zero, mul_one] at hdvd
  · exact two_pow_excess_dvd _ (show 2 ^ 23 + m % 2 ^ 23 ≤ 2 ^ 24 by omega)

theorem unitsField_wordUnits (m : Nat) : unitsField (wordUnits m) = m :=
  wordUnits_strictMono.injective (wordUnits_unitsField (two_pow_excess_dvd_wordUnits m))

theorem unitsField_lt {u : Nat} (h : Representable u) : unitsField u < 0x7F800000 := by
  rw [← wordUnits_strictMono.lt_iff_lt, wordUnits_unitsField h.2, wordUnits_infinity]
  exact h.1

/-! ### From words to values and back -/

theorem bitsOf_fieldValue (free : BitVec 23) (neg : Bool) {m : Nat} (h : m ≤ 0x7F800000) :
    bitsOf free (fieldValue neg m) = signedWord neg m := by
  obtain h | rfl := Nat.lt_or_eq_of_le h
  · rw [fieldValue_of_lt neg h, bitsOf, finBits_eq_signedWord, unitsField_wordUnits]
  · rfl

theorem bitsOf_f32 (w : Word) (free : BitVec 23) (h : f32 w ≠ .nan) : bitsOf free (f32 w) = w := by
  rw [f32_eq_fieldValue] at h ⊢
  have hle : w.toNat % 2 ^ 31 ≤ 0x7F800000 := not_lt.1 fun hgt => h (fieldValue_of_gt _ hgt)
  rw [bitsOf_fieldValue free _ hle, signedWord_fields]

theorem f32_bitsOf_fin (neg : Bool) {u : Nat} (free : BitVec 23) (h : Representable u) :
    f32 (bitsOf free (.fin neg u)) = .fin neg u := by
  have hlt := unitsField_lt h
  rw [bitsOf, finBits_eq_signedWord, f32_signedWord neg (by omega), fieldValue_of_lt neg hlt, wordUnits_unitsField h.2]

theorem f32_bitsOf_inf (neg : Bool) (free : BitVec 23) : f32 (bitsOf free (.inf neg)) = .inf neg :=
  f32_signedWord neg (by norm_num)

/-- Appended bits are added below the first ones. -/
theorem toNat_append_eq_add {m n : Nat} (x : BitVec m) (y : BitVec n) :
    (x ++ y).toNat = 2 ^ n * x.toNat + y.toNat := by
  rw [BitVec.toNat_append, Nat.shiftLeft_eq, Nat.mul_comm, Nat.two_pow_add_eq_or_of_lt y.isLt]

/-- The quiet bit makes the fraction of a NaN's bits nonzero, whatever the payload. -/
theorem f32_bitsOf_nan (free : BitVec 23) : f32 (bitsOf free .nan) = .nan := by
  have hlt : (free.extractLsb' 0 22).toNat < 2 ^ 22 := BitVec.isLt _
  have hbits : (bitsOf free .nan).toNat % 2 ^ 31 = 0x7FC00000 + (free.extractLsb' 0 22).toNat := by
    rw [bitsOf, toNat_append_eq_add, toNat_append_eq_add, toNat_append_eq_add, BitVec.toNat_ofNat, BitVec.toNat_ofNat]
    omega
  rw [f32_eq_fieldValue, hbits, fieldValue_of_gt _ (by omega)]

theorem fabs_f32 (w : Word) : fabs (f32 w) = f32 (w &&& 0x7FFFFFFF#32) := by
  have hsign : (w &&& 0x7FFFFFFF#32).getLsbD 31 = false := by simp
  have hfield : (w &&& 0x7FFFFFFF#32).toNat % 2 ^ 31 = w.toNat % 2 ^ 31 := by
    rw [BitVec.toNat_and, show (0x7FFFFFFF#32).toNat = 2 ^ 31 - 1 from rfl, Nat.and_two_pow_sub_one_eq_mod,
      Nat.mod_mod]
  rw [f32_eq_fieldValue w, fabs_fieldValue, f32_eq_fieldValue, hsign, hfield]

/-- Settles O32: the field below the sign and the units it stands for determine each other. -/
theorem bitsOfValues : Obligations.BitsOfValues :=
  ⟨bitsOf_f32, fun neg _ free h => f32_bitsOf_fin neg free h, f32_bitsOf_inf, f32_bitsOf_nan, fabs_f32⟩

end Sys2Proof.Machine

/-! ## The order of the frames (20_memory.md R74) -/

namespace Sys2Proof.Machine

/-- Two records queued one behind the other have consecutive sequence numbers. -/
theorem Block.Inv.seq_succ {p : Params} {b : Block} (hb : b.Inv p) {k : Nat} {r1 r2 : Frame}
    (h1 : b.fq[k]? = some r1) (h2 : b.fq[k + 1]? = some r2) : r2.seq = r1.seq + 1#8 := by
  obtain ⟨hk, -⟩ := List.getElem?_eq_some_iff.1 h2
  have hlen : b.fq.length - k = b.fq.length - (k + 1) + 1 := by omega
  rw [hb.order k r1 h1, hb.order (k + 1) r2 h2, hlen, BitVec.ofNat_add]
  ring

/-- Settles O58: each FTAKE takes the head of the queue. -/
theorem framesLeaveInOrder : Obligations.FramesLeaveInOrder := by
  intro s t u r1 r2 rest hinv hq h1 h2
  obtain rfl := Host.Outcome.next.inj (h1.symm.trans (exec_ftake_of_cons hq))
  have hq' : (popFrame s.blk).fq = r2 :: rest := by rw [popFrame_of_cons hq]
  obtain rfl := Host.Outcome.next.inj (h2.symm.trans (exec_ftake_of_cons hq'))
  exact ⟨rfl, hinv.blk.seq_succ (k := 0) (by rw [hq]; rfl) (by rw [hq]; rfl)⟩

end Sys2Proof.Machine

/-! ## The refused descriptors (30_encoding.md R88, R89) -/

namespace Sys2Proof.Machine

variable {d : Desc} {k : Kind}

/-! ### The decoder's two refusals of a descriptor -/

theorem decode_of_kindOf_none (h : kindOf d = none) (ws : List Desc) :
    decode (d :: ws) = .error .reservedKind := by
  simp only [decode, h]

theorem decode_of_reserved_set (hk : kindOf d = some k) (hr : reservedClear k d = false) (ws : List Desc) :
    decode (d :: ws) = .error .reservedBits := by
  simp only [decode, hk, hr, Bool.false_eq_true, if_false]

/-- The four defined kinds are the numbers below 4 (30_encoding.md R80). -/
theorem kindOf_eq_none_of_four_le (h : 0b100 ≤ (d.extractLsb' 13 3).toNat) : kindOf d = none := by
  have hne (c : BitVec 3) (hc : c.toNat < 4) : d.extractLsb' 13 3 ≠ c := by
    rintro rfl
    omega
  rw [kindOf, if_neg (hne _ (by decide)), if_neg (hne _ (by decide)), if_neg (hne _ (by decide)),
    if_neg (hne _ (by decide))]

/-- The reserved bit of a RD or a WR is bit 12 (30_encoding.md R82, R83). -/
theorem reservedClear_of_bit12 (hk : k = .rd ∨ k = .wr) (h : d.getLsbD 12 = true) : reservedClear k d = false := by
  have hne : d.extractLsb' 12 1 ≠ 0#1 := fun h0 =>
    absurd h (by simpa using congrArg (BitVec.getLsbD · 0) h0)
  obtain rfl | rfl := hk <;> exact beq_false_of_ne hne

/-! ### The step that meets such a descriptor -/

/-- Words that spell no transaction are refused by the step that meets them at a port. -/
theorem step_refuses_of_decode_error {s : State} {p : Port} {ts : List Turn} {ws : List Desc} {why : DecodeError}
    (hdec : decode (d :: ws) = .error why) (hturn : s.io.turns = .port p :: ts)
    (hfree : ¬(p = .f ∧ s.io.fHeld = true)) (hw : portWords s.io p = d :: ws) :
    step s = .refused (.noTransaction why) :=
  (stepRunsDecodedTransaction s p ts hturn hfree).2 why (by simp [hw]) (hw ▸ hdec)

/-- Settles O5: a number above the defined kinds names none, and a set reserved bit fails its kind's test. -/
theorem reservedDescriptorsRefused : Obligations.ReservedDescriptorsRefused := by
  intro d ws refusedAs
  have refused {why} (hdec : decode (d :: ws) = .error why) : refusedAs why :=
    ⟨hdec, fun _ _ _ => step_refuses_of_decode_error hdec⟩
  refine ⟨fun hkind => ?_, fun hkind h12 => ?_, fun hkind hres => ?_, fun hkind hres => ?_⟩
  · exact refused (decode_of_kindOf_none (kindOf_eq_none_of_four_le hkind) ws)
  · obtain hrd | hwr := hkind
    · have hk : kindOf d = some .rd := by simp [kindOf, hrd]
      exact refused (decode_of_reserved_set hk (reservedClear_of_bit12 (.inl rfl) h12) ws)
    · have hk : kindOf d = some .wr := by simp [kindOf, hwr]
      exact refused (decode_of_reserved_set hk (reservedClear_of_bit12 (.inr rfl) h12) ws)
  · have hk : kindOf d = some .sample := by simp [kindOf, hkind]
    exact refused (decode_of_reserved_set hk (beq_false_of_ne hres) ws)
  · have hk : kindOf d = some .ftake := by simp [kindOf, hkind]
    exact refused (decode_of_reserved_set hk (beq_false_of_ne hres) ws)

end Sys2Proof.Machine

/-! ## Sanitize on the binary32 words (40_sample_magnitude.md R115, R116) -/

namespace Sys2Proof.Machine

/-- Bit 31 tells the words below 2^31 from the others. -/
theorem getLsbD_31_eq_decide (w : Word) : w.getLsbD 31 = decide (2 ^ 31 ≤ w.toNat) :=
  BitVec.msb_eq_decide w

theorem wordUnits_pos {m : Nat} (h : 0 < m) : 0 < wordUnits m :=
  wordUnits_strictMono h

/-- A NaN, an infinity or a value below zero is counted. -/
theorem badMag_eq_true_iff (v : Fp) :
    badMag v = true ↔ v = .nan ∨ (∃ neg, v = .inf neg) ∨ ∃ x, 0 < x ∧ v = .fin true x := by
  cases v with
  | nan => simp [badMag]
  | inf neg => simp [badMag]
  | fin neg x => cases neg <;> simp [badMag, Nat.pos_iff_ne_zero]

/-- A value that is not negative or is a negative zero is not. -/
theorem badMag_eq_false_iff (v : Fp) : badMag v = false ↔ ∃ x, v = .fin false x ∨ v = .fin true 0 := by
  cases v with
  | nan => simp [badMag]
  | inf neg => simp [badMag]
  | fin neg x => cases neg <;> simp [badMag]

/-- The negative values and -infinity, by the field below the sign bit. -/
theorem sanitize_fieldValue_negative {m : Nat} (h0 : 0 < m) (hm : m ≤ 0x7F800000) :
    sanitize (fieldValue true m) = 0#32 ∧ badMag (fieldValue true m) = true := by
  obtain hlt | rfl := Nat.lt_or_eq_of_le hm
  · rw [fieldValue_of_lt true hlt]
    exact ⟨rfl, (badMag_eq_true_iff _).2 (.inr (.inr ⟨_, wordUnits_pos h0, rfl⟩))⟩
  · exact ⟨rfl, rfl⟩

/-- A finite value with a clear sign bit keeps its bits: Sanitize writes it as `bitsOf` does. -/
theorem sanitize_f32_nonnegative {w : Word} (h : w.toNat < 0x7F800000) :
    sanitize (f32 w) = w ∧ badMag (f32 w) = false := by
  have hsign : w.getLsbD 31 = false := by
    rw [getLsbD_31_eq_decide, decide_eq_false]
    omega
  have hval : f32 w = .fin false (wordUnits (w.toNat % 2 ^ 31)) := by
    rw [f32_eq_fieldValue, hsign, fieldValue_of_lt false (by omega)]
  have hbits : bitsOf 0#23 (f32 w) = w := bitsOf_f32 w 0#23 (by simp [hval])
  rw [hval] at hbits ⊢
  exact ⟨hbits, rfl⟩

/-- Settles O28: the sign bit and the field below it choose Sanitize's arm, and `finBits` gives back a value's word. -/
theorem sanitizeByWord : Obligations.SanitizeByWord := by
  intro w
  refine ⟨fun hnan => ?_, ?_, fun hneg hle => ?_, ?_, sanitize_f32_nonnegative⟩
  · rw [f32_eq_fieldValue, fieldValue_of_gt _ hnan]
    exact ⟨rfl, rfl⟩
  · rintro rfl
    decide
  · have hsign : w.getLsbD 31 = true := by
      rw [getLsbD_31_eq_decide, decide_eq_true]
      omega
    rw [f32_eq_fieldValue, hsign]
    exact sanitize_fieldValue_negative (by omega) (by omega)
  · rintro rfl
    rw [f32_neg_zero]
    exact ⟨rfl, rfl⟩

end Sys2Proof.Machine

/-! ## What a SAMPLE stores, and the end of a segment (40_sample_magnitude.md R111 to R119, R126) -/

namespace Sys2Proof.Machine

variable {p : Params} {b b' : Block} {im re : Word}

/-- After a sample CNT_BADMAG has counted its raw magnitude exactly when Sanitize's arm is counted. -/
theorem processSample_cntBadmag (h : processSample p false im re b = some b') :
    b'.cntBadmag = if badMag (rawOf b im re) then b.cntBadmag + 1#32 else b.cntBadmag :=
  (congrArg Block.cntBadmag (processSample_frame h) :)

/-- Settles O27: the stages after the storing of a sample leave SIDX, the history and CNT_BADMAG as it wrote them,
and the end of a segment leaves SIDX and CNT_BADMAG. -/
theorem sampleStoresMagnitude : Obligations.SampleStoresMagnitude := by
  intro s t last im re hen h raw
  have hraw : raw = rawOf s.blk im re := rfl
  clear_value raw
  subst hraw
  obtain ⟨hdis, _⟩ | ⟨_, u, hu, rfl⟩ := exec_sample_cases h
  · simp [hen] at hdis
  obtain ⟨hsidx, hhist⟩ := processSample_stores hu
  obtain ⟨_, _, _, _, _, _, hbad⟩ := ite_flush_counters last u
  rw [processSample_cntBadmag hu] at hbad
  simp only [withBlk_blk, hbad]
  refine ⟨?_, ?_, fun hcounted => ?_, fun hplain => ?_⟩
  · cases last
    · exact hsidx
    · exact hsidx
  · rintro rfl
    simp [hhist]
  · exact if_pos ((badMag_eq_true_iff _).2 hcounted)
  · rw [(badMag_eq_false_iff _).2 hplain, if_neg Bool.false_ne_true]

/-- Settles O24: EN is tested before anything is processed. -/
theorem disabledSampleIgnored : Obligations.DisabledSampleIgnored := by
  intro s last im re hdis
  simp only [exec, execSample, hdis, Bool.false_eq_true, if_false]

/-- A flush, field by field (40_sample_magnitude.md R126). -/
theorem flush_eq (b : Block) : flush b =
    { b with
      cntDiscard := match b.demod with
        | none => b.cntDiscard
        | some _ => b.cntDiscard + 1#32
      demod := none
      segStart := b.sidx
      hist := []
      env := none
      armed := true
      lastHit := none } := by
  cases hd : b.demod <;> simp [flush, hd]

/-- A WR to CTRL with FLUSH = 1 flushes the block with the fields written (45_register_port.md R267). -/
theorem writeCtrl_of_flush {v : Word} (hreset : v.getLsbD 2 = false) (hflush : v.getLsbD 1 = true) (b : Block) :
    writeCtrl v b = flush (writeCtrlFields v b) := by
  simp only [writeCtrl, hreset, hflush, Bool.false_eq_true, if_false, if_true]

/-- With SRESET and FLUSH clear it writes the fields only (45_register_port.md R267). -/
theorem writeCtrl_of_not_flush {v : Word} (hreset : v.getLsbD 2 = false) (hflush : v.getLsbD 1 = false) (b : Block) :
    writeCtrl v b = writeCtrlFields v b := by
  simp only [writeCtrl, hreset, hflush, Bool.false_eq_true, if_false]

/-- The payload without its FLUSH bit. -/
theorem getLsbD_clear_flush (v : Word) (k : Nat) : (v &&& ~~~2#32).getLsbD k = (v.getLsbD k && decide (k ≠ 1)) := by
  obtain hk | hk := Nat.lt_or_ge k 32
  · rw [show 2#32 = BitVec.twoPow 32 1 from rfl, BitVec.getLsbD_and, BitVec.getLsbD_not, BitVec.getLsbD_twoPow]
    simp [hk, eq_comm]
  · rw [BitVec.getLsbD_of_ge _ _ hk, BitVec.getLsbD_of_ge _ _ hk, Bool.false_and]

/-- The fields that a WR to CTRL stores do not depend on FLUSH. -/
theorem writeCtrlFields_clear_flush (v : Word) (b : Block) :
    writeCtrlFields (v &&& ~~~2#32) b = writeCtrlFields v b := by
  have hmode : (v &&& ~~~2#32).extractLsb' 4 2 = v.extractLsb' 4 2 := by
    rw [BitVec.extractLsb'_and]
    exact BitVec.and_allOnes
  have hbit (k : Nat) (hk : k ≠ 1) : (v &&& ~~~2#32).getLsbD k = v.getLsbD k := by
    rw [getLsbD_clear_flush, decide_eq_true hk, Bool.and_true]
  simp only [writeCtrlFields, magModeOf, nfModeOf, hmode, hbit 0 (by decide), hbit 3 (by decide), hbit 6 (by decide)]

/-- Settles O49: a sample with LAST = 1 ends as the flush of its block, and a WR to CTRL flushes after its fields. -/
theorem flushEndsSegment : Obligations.FlushEndsSegment := by
  refine ⟨flush_eq, fun s u im re hen h => ?_, fun s v hreset hflush => ?_⟩
  · obtain ⟨hdis, _⟩ | ⟨_, b, hb, rfl⟩ := exec_sample_cases h
    · simp [hen] at hdis
    · exact exec_sample_of_some hen hb true
  · have hreset' : (v &&& ~~~2#32).getLsbD 2 = false := by rw [getLsbD_clear_flush, hreset, Bool.false_and]
    have hflush' : (v &&& ~~~2#32).getLsbD 1 = false := by rw [getLsbD_clear_flush, hflush]; rfl
    have hfields : writeCtrl (v &&& ~~~2#32) s.blk = writeCtrlFields v s.blk := by
      rw [writeCtrl_of_not_flush hreset' hflush', writeCtrlFields_clear_flush]
    exact ⟨_, congrArg (storeWr s) hfields, congrArg (storeWr s) (writeCtrl_of_flush hreset hflush s.blk)⟩

end Sys2Proof.Machine

/-! ## The noise floor (41_noise_floor.md R141 to R145)

The stored magnitudes are words with a clear sign bit, so `lesser` orders them as numbers. A release step gives a
representable value, so its word stands for exactly that value; where E equals the magnitude the gap is +0, the
product is +0, and their sum is E. -/

namespace Sys2Proof.Machine

variable {p : Params} {b : Block} {m : Word}

/-- What a SAMPLE with EN = 1 stores: its entry in front of the history, and E (40_sample_magnitude.md R110). -/
theorem exec_sample_stores {s t : State} {im re : Word} (hen : s.blk.en = true)
    (h : exec (.sample false im re) s = .next t) :
    ∃ m, IsMag m ∧ t.blk.hist = { mag := m, noise := noiseValue s.blk m } :: s.blk.hist ∧
      t.blk.env = some (nextEnv s.blk m) := by
  obtain ⟨hdis, _⟩ | ⟨_, u, hu, rfl⟩ := exec_sample_cases h
  · simp [hen] at hdis
  · exact ⟨_, sanitize_isMag (rawMag_bounded _ _ _), (processSample_stores hu).2,
      (congrArg Block.env (processSample_frame hu) :)⟩

/-! ### The value of a magnitude -/

theorem f32_of_isMag (hm : IsMag m) : f32 m = .fin false (wordUnits m.toNat) := by
  have hsign : m.getLsbD 31 = false := by
    rw [getLsbD_31_eq_decide, decide_eq_false]
    omega
  rw [f32_eq_fieldValue, hsign, Nat.mod_eq_of_lt (by omega), fieldValue_of_lt false hm]

theorem wordUnits_representable {n : Nat} (h : n < 0x7F800000) : Representable (wordUnits n) :=
  ⟨wordUnits_infinity ▸ wordUnits_strictMono h, two_pow_excess_dvd_wordUnits n⟩

/-! ### The moving minimum -/

/-- Magnitudes have the order of their words. -/
theorem flt_of_isMag {v w : Word} (hv : IsMag v) (hw : IsMag w) :
    flt (f32 v) (f32 w) = decide (v.toNat < w.toNat) := by
  rw [f32_of_isMag hv, f32_of_isMag hw, flt_of_rank rfl rfl, decide_eq_decide]
  exact Int.ofNat_lt.trans wordUnits_strictMono.lt_iff_lt

/-- The lesser of two magnitudes is one of them and above neither. -/
theorem lesser_least {v w : Word} (hv : IsMag v) (hw : IsMag w) :
    lesser v w ∈ [v, w] ∧ (lesser v w).toNat ≤ v.toNat ∧ (lesser v w).toNat ≤ w.toNat := by
  rw [lesser, flt_of_isMag hw hv]
  split
  · next hlt => exact ⟨by simp, (of_decide_eq_true hlt).le, le_rfl⟩
  · next hge => exact ⟨by simp, le_rfl, not_lt.1 fun hlt => hge (decide_eq_true hlt)⟩

/-- The least of magnitudes is one of them and above none. -/
theorem leastOf_least {older : List Word} (hm : IsMag m) (ho : ∀ x ∈ older, IsMag x) :
    leastOf m older ∈ m :: older ∧ ∀ x ∈ m :: older, (leastOf m older).toNat ≤ x.toNat := by
  induction older generalizing m with
  | nil => simp [leastOf]
  | cons y ys ih =>
    obtain ⟨hy, hys⟩ := List.forall_mem_cons.1 ho
    have hstep : leastOf m (y :: ys) = leastOf (lesser m y) ys := rfl
    obtain ⟨hone, hlm, hly⟩ := lesser_least hm hy
    obtain ⟨hmem, hleast⟩ := ih (lt_of_le_of_lt hlm hm) hys
    obtain ⟨hself, hrest⟩ := List.forall_mem_cons.1 hleast
    rw [hstep]
    refine ⟨?_, List.forall_mem_cons.2 ⟨hself.trans hlm, List.forall_mem_cons.2 ⟨hself.trans hly, hrest⟩⟩⟩
    obtain heq | hin := List.mem_cons.1 hmem
    · rw [heq]
      exact List.mem_append_left ys hone
    · exact List.mem_cons_of_mem _ (List.mem_cons_of_mem _ hin)

/-- MMIN is the least magnitude of the window whose newest entry is the sample's (41_noise_floor.md R143). -/
theorem movingMin_least (hb : b.Base p) {e : HistEntry} (he : IsMag e.mag) :
    let window := (e :: b.hist).take (windowSize b.nfWindow b.sidx b.segStart)
    (∃ x ∈ window, movingMin b e.mag = x.mag) ∧ ∀ x ∈ window, (movingMin b e.mag).toNat ≤ x.mag.toNat := by
  intro window
  have hpos : 0 < windowSize b.nfWindow b.sidx b.segStart := lt_min hb.window.1 (Nat.succ_pos _)
  have hwindow : window = e :: b.hist.take (windowSize b.nfWindow b.sidx b.segStart - 1) :=
    List.take_cons hpos
  obtain ⟨hmem, hleast⟩ := leastOf_least he
    (older := (b.hist.take (windowSize b.nfWindow b.sidx b.segStart - 1)).map HistEntry.mag)
    (List.forall_mem_map.2 fun x hx => hb.mags x (List.mem_of_mem_take hx))
  rw [← List.map_cons, ← hwindow] at hmem hleast
  obtain ⟨x, hx, hmag⟩ := List.mem_map.1 hmem
  exact ⟨⟨x, hx, hmag.symm⟩, fun y hy => hleast _ (List.mem_map_of_mem hy)⟩

/-- Settles O34: MMIN folds `lesser` over the window, whose entries are magnitudes. -/
theorem movingMinimumIsLeast : Obligations.MovingMinimumIsLeast := by
  intro s t im re hinv hen hmode h
  obtain ⟨m, hm, hhist, _⟩ := exec_sample_stores hen h
  have hnoise : noiseValue s.blk m = movingMin s.blk m := by rw [noiseValue, hmode]
  rw [hnoise] at hhist
  refine ⟨_, _, hhist, ?_⟩
  rw [hhist]
  exact movingMin_least hinv.blk.toBase (e := { mag := m, noise := movingMin s.blk m }) hm

/-! ### The release envelope -/

/-- A value that a word stands for, if it is finite. -/
def FpRepresentable (v : Fp) : Prop := ∀ neg x, v = .fin neg x → Representable x

theorem representable_nan : FpRepresentable .nan := fun _ _ h => by cases h
theorem representable_inf (neg : Bool) : FpRepresentable (.inf neg) := fun _ _ h => by cases h

theorem f32_bitsOf {v : Fp} (free : BitVec 23) (h : FpRepresentable v) : f32 (bitsOf free v) = v := by
  cases v with
  | nan => exact f32_bitsOf_nan free
  | inf neg => exact f32_bitsOf_inf neg free
  | fin neg x => exact f32_bitsOf_fin neg free (h neg x rfl)

theorem roundTo_representable (neg : Bool) (n k : Nat) : FpRepresentable (roundTo neg n k) := by
  intro d u hu
  obtain hlt | hge := Nat.lt_or_ge n ((2 ^ 277 - 2 ^ 252) * 2 ^ k)
  · rw [roundTo_finite neg hlt] at hu
    cases hu
    exact roundedUnits_representable hlt
  · rw [roundTo_overflow neg hge] at hu
    exact representable_inf neg d u hu

theorem fadd_representable (v w : Fp) : FpRepresentable (fadd v w) := by
  unfold fadd
  split
  · exact representable_nan
  · exact representable_nan
  · split
    · exact representable_inf _
    · exact representable_nan
  · exact representable_inf _
  · exact representable_inf _
  · next a x c y =>
    have hround : FpRepresentable (fadd (.fin a x) (.fin c y)) := by
      rw [fadd_fin]
      exact roundTo_representable _ _ _
    exact hround

/-- A representable value is its own rounding: none is nearer. -/
theorem roundTo_of_representable (neg : Bool) {u : Nat} (k : Nat) (hu : Representable u) :
    roundTo neg (u * 2 ^ k) k = .fin neg u := by
  have hnear := (roundedUnits_nearest (u * 2 ^ k) k hu).1
  have hunits : roundedUnits (u * 2 ^ k) k = u := by
    push_cast at hnear
    rw [sub_self, abs_zero, abs_nonpos_iff, ← sub_mul, mul_eq_zero_iff_right (by positivity), sub_eq_zero] at hnear
    exact_mod_cast hnear
  rw [roundTo_eq, hunits, if_pos hu.1]

theorem fsub_self_fin (x : Nat) : fsub (.fin false x) (.fin false x) = .fin false 0 := by
  simp [fsub, fneg, fadd, signed]

theorem fadd_zero_of_representable {x : Nat} (hx : Representable x) :
    fadd (.fin false x) (.fin false 0) = .fin false x := by
  have hround := roundTo_of_representable false 0 hx
  have hsign : sumSign false (x : ℤ) = false := by simp [sumSign]
  rw [fadd_fin]
  simpa [signed, hsign] using hround

/-- A gap of zero leaves E. -/
theorem releaseStep_self {x : Nat} (hx : Representable x) (s : BitVec 5) :
    releaseStep (.fin false x) (.fin false x) s = .fin false x := by
  have hzero : fmul (.fin false 0) (powNeg s) = .fin false 0 := by
    have hround := roundTo_of_representable false 149 representable_zero
    rw [Nat.zero_mul] at hround
    rw [powNeg, fmul_fin, Nat.zero_mul]
    exact hround
  rw [releaseStep, fsub_self_fin, hzero, fadd_zero_of_representable hx]

/-! ### The envelope's branches -/

theorem nextEnv_of_none (h : b.env = none) (m : Word) : nextEnv b m = m := by
  rw [nextEnv, h]

theorem nextEnv_of_below {e : Word} (h : b.env = some e) (hlt : flt (f32 m) (f32 e) = true) : nextEnv b m = m := by
  simp only [nextEnv, h, hlt, if_true]

theorem nextEnv_of_not_below {e : Word} (h : b.env = some e) (hge : flt (f32 m) (f32 e) = false) :
    nextEnv b m = bitsOf (Config.nanFree b.sidx) (releaseStep (f32 e) (f32 m) b.nfShift) := by
  simp only [nextEnv, h, hge, Bool.false_eq_true, if_false]

/-- An E equal to the magnitude stays. -/
theorem nextEnv_of_eq (hm : IsMag m) (h : b.env = some m) : nextEnv b m = m := by
  have hge : flt (f32 m) (f32 m) = false := by rw [flt_of_isMag hm hm, decide_eq_false (lt_irrefl _)]
  have hstep : releaseStep (f32 m) (f32 m) b.nfShift = f32 m := by
    rw [f32_of_isMag hm]
    exact releaseStep_self (wordUnits_representable hm) _
  rw [nextEnv_of_not_below h hge, hstep, bitsOf_f32 m _ (by simp [f32_of_isMag hm])]

/-- Settles O35: the release step is a sum, so the word stored for it stands for it exactly. -/
theorem releaseEnvelope : Obligations.ReleaseEnvelope := by
  intro s t im re _ hen h
  obtain ⟨m, hm, hhist, henv⟩ := exec_sample_stores hen h
  rw [henv]
  refine ⟨m, _, _, hhist, rfl, fun hnone => ?_, fun e he hlt => ?_, fun e he hge => ?_, fun he => ?_, fun hmode => ?_⟩
  · rw [nextEnv_of_none hnone]
  · rw [nextEnv_of_below he hlt]
  · rw [nextEnv_of_not_below he hge]
    exact ⟨_, f32_bitsOf _ (fadd_representable _ _), rfl⟩
  · rw [nextEnv_of_eq hm he]
  · simp only [noiseValue, hmode]

end Sys2Proof.Machine

/-! ## The steps and the invariant (10_state.md R30, R32, R45; 42_correlator.md R174)

A step resets the block, processes a sample, flushes, pops a frame, or writes registers. The invariant speaks of two
of the registers only, NF_WINDOW and HOLDOFF. -/

namespace Sys2Proof.Machine

variable {p : Params} {b b' : Block}

/-- The block with other registers. -/
def Block.withRegisters (b : Block) (r : Registers) : Block :=
  { b with
    en := r.en, ie := r.ie, magMode := r.magMode, nfMode := r.nfMode, tAbs := r.tAbs, kRel := r.kRel, eps := r.eps
    nfWindow := r.nfWindow, nfShift := r.nfShift, holdoff := r.holdoff, cntBuserr := r.cntBuserr }

/-- CTRL's fields are registers (10_state.md R25). -/
theorem writeCtrlFields_eq_withRegisters (v : Word) (b : Block) : writeCtrlFields v b = b.withRegisters
    { b.registers with
      en := v.getLsbD 0, ie := v.getLsbD 3, nfMode := nfModeOf v, magMode := magModeOf v b.magMode } := rfl

/-- Any write of registers that leaves NF_WINDOW and HOLDOFF legal keeps the invariant. -/
theorem withRegisters_inv (hb : b.Inv p) (r : Registers)
    (hwindow : 1 ≤ r.nfWindow.toNat ∧ r.nfWindow.toNat ≤ max p.nfWMax 4000) (hholdoff : 480 ≤ r.holdoff.toNat) :
    (b.withRegisters r).Inv p where
  window := hwindow
  holdoff := hholdoff
  queue := hb.queue
  length := hb.length
  mags := hb.mags
  noises := hb.noises
  envSet := hb.envSet
  envOk := hb.envOk
  guard := hb.guard
  hits := hb.hits
  seq := hb.seq
  frames := hb.frames
  order := hb.order
  demod := fun d hd =>
    have ok := hb.demod d hd
    ⟨ok.disarmed, ok.last, ok.decided, ok.held, ok.unfinished, ok.pending⟩

/-- The reset block meets the invariant under any parameters (70_reset_and_hazards.md R350). -/
theorem reset_inv (p : Params) : Block.reset.Inv p where
  window := ⟨by decide, le_max_right p.nfWMax 4000⟩
  holdoff := by decide
  queue := Nat.zero_le _
  length := rfl
  mags := by simp [Block.reset]
  noises := by simp [Block.reset]
  envSet := by simp [Block.reset]
  envOk := by simp [Block.reset]
  guard := by simp [Block.reset]
  hits := rfl
  seq := rfl
  frames := by simp [Block.reset]
  order := by simp [Block.reset]
  demod := by simp [Block.reset]

/-- A WR to NF_WINDOW stores a legal window (10_state.md R30). -/
theorem legalWindow_bounds (hp : p.Legal) (v : Word) :
    1 ≤ (legalWindow p v).toNat ∧ (legalWindow p v).toNat ≤ max p.nfWMax 4000 := by
  have hpos : 1 ≤ p.nfWMax := hp.1
  rw [legalWindow_toNat hp]
  omega

/-- A WR to HOLDOFF stores a legal hold-off (10_state.md R32). -/
theorem legalHoldoff_bound (v : Word) : 480 ≤ (legalHoldoff v).toNat := by
  rw [legalHoldoff_toNat]
  exact le_max_right _ _

theorem writeCtrlFields_inv (v : Word) (hb : b.Inv p) : (writeCtrlFields v b).Inv p := by
  rw [writeCtrlFields_eq_withRegisters]
  exact withRegisters_inv hb _ hb.window hb.holdoff

/-- A WR to CTRL resets the block, flushes it with its fields written, or writes its fields
(45_register_port.md R267). -/
theorem writeCtrl_inv (v : Word) (hb : b.Inv p) : (writeCtrl v b).Inv p := by
  unfold writeCtrl
  split
  · exact reset_inv p
  · split
    · exact flush_inv (writeCtrlFields_inv v hb)
    · exact writeCtrlFields_inv v hb

/-- Every transaction keeps the block's invariant. -/
theorem BlockMove.keeps_inv (h : BlockMove p b b') (hp : p.Legal) (hb : b.Inv p) : b'.Inv p := by
  have write (r : Registers) := withRegisters_inv hb r
  cases h with
  | same => exact hb
  | busError => exact write { b.registers with cntBuserr := b.cntBuserr + 1#32 } hb.window hb.holdoff
  | ctrl v => exact writeCtrl_inv v hb
  | tAbs v => exact write { b.registers with tAbs := v } hb.window hb.holdoff
  | kRel v => exact write { b.registers with kRel := v } hb.window hb.holdoff
  | eps v => exact write { b.registers with eps := v } hb.window hb.holdoff
  | nfWindow v => exact write { b.registers with nfWindow := legalWindow p v } (legalWindow_bounds hp v) hb.holdoff
  | nfShift v => exact write { b.registers with nfShift := shiftField v } hb.window hb.holdoff
  | holdoff v => exact write { b.registers with holdoff := legalHoldoff v } hb.window (legalHoldoff_bound v)
  | pop => exact popFrame_inv hb
  | sample last im re h en => exact processSample_inv hp hb h

/-- Settles O54: a step is a reset of the block or one transaction on it. -/
theorem stepKeepsInvariant : Obligations.StepKeepsInvariant := by
  intro s t hinv h
  obtain ⟨hparams, hmove⟩ := step_moves h
  refine ⟨by rw [hparams]; exact hinv.params, ?_⟩
  rw [hparams]
  obtain hmove | hreset := hmove
  · exact hmove.keeps_inv hinv.params hinv.blk
  · rw [hreset]
    exact reset_inv s.params

end Sys2Proof.Machine

/-! ## The correlator's score and the local maximum (42_correlator.md R161 to R167) -/

namespace Sys2Proof.Machine

variable {b : Block} {i : SampleNo}

/-! ### The score -/

theorem mapOpt_eq_map {α β : Type} {f : α → Option β} {g : α → β} {xs : List α} (h : ∀ x ∈ xs, f x = some (g x)) :
    mapOpt f xs = some (xs.map g) := by
  induction xs with
  | nil => rfl
  | cons x xs ih =>
    obtain ⟨hx, hxs⟩ := List.forall_mem_cons.1 h
    simp [mapOpt, hx, ih hxs]

/-- FoldSum over positions whose magnitudes are known (00_scope.md R11). -/
theorem foldSum_eq_foldl {m : Nat → Fp} {q : Nat} {qs : List Nat}
    (h : ∀ k ∈ q :: qs, magAt b (i + BitVec.ofNat 64 k) = some (m k)) :
    foldSum b i (q :: qs) = some ((qs.map m).foldl fadd (m q)) := by
  obtain ⟨hq, hqs⟩ := List.forall_mem_cons.1 h
  simp [foldSum, hq, mapOpt_eq_map hqs]

theorem score_of_held (hi : 31 ≤ ageOf b i) (hlen : ageOf b i < b.hist.length) {x y : Fp}
    (hx : pulseSum b i = some x) (hy : lowSum b i = some y) : score b i = some (fsub x y) := by
  have ht : templateHeld b i = true := by simp [templateHeld, hi, hlen]
  simp [score, ht, hx, hy]

/-- The magnitudes of the 32 samples of a template in the history (42_correlator.md R163). -/
theorem template_magnitudes (hi : 31 ≤ ageOf b i) (hlen : ageOf b i < b.hist.length) :
    ∃ m : Nat → Fp, ∀ k ≤ 31, magAt b (i + BitVec.ofNat 64 k) = some (m k) := by
  refine ⟨fun k => (magAt b (i + BitVec.ofNat 64 k)).getD .nan, fun k hk => ?_⟩
  obtain ⟨v, hv⟩ := magAt_add_some (hk.trans hi) hlen
  simp only [hv, Option.getD_some]

/-- Settles O36: both sums are folds over magnitudes of the template's 32 samples. -/
theorem scoreFormula : Obligations.ScoreFormula := by
  refine fun b i => ⟨fun hi hlen => ?_, fun hout => ?_⟩
  · obtain ⟨m, hm⟩ := template_magnitudes hi hlen
    have hhigh : pulseSum b i = some (([1, 4, 5, 14, 15, 18, 19].map m).foldl fadd (m 0)) :=
      foldSum_eq_foldl fun k hk => hm k ((by decide : ∀ k ∈ pHi, k ≤ 31) k hk)
    have hlow : lowSum b i = some (([3, 6, 7, 8, 9, 10, 11, 12, 13, 16, 17].map m).foldl fadd (m 2)) :=
      foldSum_eq_foldl fun k hk => hm k ((by decide : ∀ k ∈ pLo, k ≤ 31) k hk)
    exact ⟨m, hm, score_of_held hi hlen hhigh hlow⟩
  · rw [Option.eq_none_iff_forall_ne_some]
    exact fun c hc => hout (score_some_iff.1 ⟨c, hc⟩)

/-! ### Qualification -/

theorem qualify_eq {c : Fp} {nz : Word} (hc : score b i = some c) (hn : noiseAt b i = some nz) :
    qualify b i = some (exceedsBounds b c nz) := by
  simp [qualify, hc, hn]

/-- Settles O37: the two comparisons are those of `exceedsBounds`. -/
theorem qualifyBothBounds : Obligations.QualifyBothBounds := fun b i c nz hc hn =>
  ⟨_, qualify_eq hc hn, by rw [exceedsBounds, Bool.and_eq_true]⟩

/-! ### The local maximum -/

/-- A test of every score of a run of positions holds when each of them has a score that passes it. -/
theorem allOpt_scores_true {pos : Nat → SampleNo} {test : Fp → Bool} {n : Nat} :
    allOpt (fun k => (score b (pos k)).map test) (List.range' 1 n) = some true ↔
      ∀ k, 1 ≤ k → k ≤ n → ∃ d, score b (pos k) = some d ∧ test d = true := by
  simp only [allOpt_true, List.mem_range'_1, Option.map_eq_some_iff, and_imp, Nat.lt_one_add_iff]

/-- LM(i) holds when its score beats the earlier scores of the window and no later one beats it
(42_correlator.md R166). -/
theorem localMax_true_iff : localMax b i = some true ↔ ∃ c, score b i = some c ∧
    (∀ k, 1 ≤ k → k ≤ 16 → k ≤ since i b.segStart →
      ∃ d, score b (i - BitVec.ofNat 64 k) = some d ∧ fgt c d = true) ∧
    ∀ k, 1 ≤ k → k ≤ 16 → ∃ d, score b (i + BitVec.ofNat 64 k) = some d ∧ fge c d = true := by
  have hfolds : localMax b i = some true ↔ ∃ c, score b i = some c ∧
      allOpt (fun k => (score b (i - BitVec.ofNat 64 k)).map (fgt c)) (List.range' 1 (reachBack b i)) = some true ∧
      allOpt (fun k => (score b (i + BitVec.ofNat 64 k)).map (fge c)) (List.range' 1 lmRadius) = some true := by
    simp [localMax, Option.bind_eq_some_iff]
  rw [hfolds]
  simp only [allOpt_scores_true, reachBack, lmRadius, le_min_iff, and_imp]

/-- Settles O38: the test has a value, and it is true in the case of `localMax_true_iff`. -/
theorem localMaximumTest : Obligations.LocalMaximumTest := by
  intro b i v hv
  rw [← localMax_true_iff, hv, Option.some.injEq]

theorem not_fgt_of_fge {v w : Fp} (h : fge v w = true) : fgt w v = false := by
  unfold fge at h
  split at h
  · next x y hx hy =>
    rw [fgt_of_rank hy hx, decide_eq_false_iff_not]
    exact not_lt.2 (of_decide_eq_true h)
  · cases h

/-- Settles O39: the later maximum would have a score above the earlier one's, which no later score beats. -/
theorem noTwoMaximaWithin16 : Obligations.NoTwoMaximaWithin16 := by
  intro b i k hpos h16 hseg hfirst hsecond
  obtain ⟨c, hc, _, hlater⟩ := localMax_true_iff.1 hfirst
  obtain ⟨d, hd, hearlier, _⟩ := localMax_true_iff.1 hsecond
  obtain ⟨c', hc', hgt⟩ := hearlier k hpos h16 hseg
  obtain ⟨d', hd', hge⟩ := hlater k hpos h16
  rw [BitVec.add_sub_cancel, hc, Option.some.injEq] at hc'
  rw [hd, Option.some.injEq] at hd'
  subst hc' hd'
  rw [not_fgt_of_fge hge] at hgt
  cases hgt

end Sys2Proof.Machine

/-! ## What a decision does (42_correlator.md R168 to R174) -/

namespace Sys2Proof.Machine

variable {p : Params} {b b' u : Block} {i : SampleNo} {im re : Word}

/-! ### The four outcomes -/

/-- A candidate is taken while the guard is armed, and counted while it is not. -/
theorem decideIndex_of_candidate (hq : qualify b i = some true) (hmax : localMax b i = some true) :
    decideIndex i b = if b.armed then takeHit i b else some { b with cntSupp := b.cntSupp + 1#32 } := by
  simp [decideIndex, candidate, hq, hmax]

/-- An index that qualifies and is no local maximum changes nothing. -/
theorem decideIndex_of_not_localMax (hq : qualify b i = some true) (hmax : localMax b i = some false) :
    decideIndex i b = some b := by
  simp [decideIndex, candidate, hq, hmax]

theorem decideIndex_of_unqualified (hq : qualify b i = some false) :
    decideIndex i b = if b.armed then some b else rearm i b := by
  simp [decideIndex, candidate, hq]

theorem takeHit_eq {c hi : Fp} {nz : Word} (hc : score b i = some c) (hn : noiseAt b i = some nz)
    (hh : pulseSum b i = some hi) : takeHit i b = some { b with
      cntHit := b.cntHit + 1#32
      armed := false
      lastHit := some i
      demod := some
        { h := i, score := bitsOf (Config.nanFree i) c, noise := nz, sHi := bitsOf (Config.nanFree i) hi } } := by
  simp [takeHit, hc, hn, hh]

/-- Settles O40: the decision is TakeHit, which reads the score, the noise value and the pulse sum. -/
theorem candidateTaken : Obligations.CandidateTaken := by
  intro b i c hi nz harm hq hmax hc hn hh
  refine ⟨bitsOf (Config.nanFree i) c, bitsOf (Config.nanFree i) hi, fun _ => ⟨_, rfl⟩, fun _ => ⟨_, rfl⟩, ?_⟩
  rw [decideIndex_of_candidate hq hmax, if_pos harm]
  exact takeHit_eq hc hn hh

/-- Settles O41: a candidate's decision with the guard disarmed. -/
theorem candidateSuppressed : Obligations.CandidateSuppressed := by
  intro b i harm hq hmax
  rw [decideIndex_of_candidate hq hmax, harm, if_neg Bool.false_ne_true]

theorem rearm_eq {h : SampleNo} (hlast : b.lastHit = some h) :
    rearm i b = some (if b.holdoff.toNat ≤ since i h then { b with armed := true } else b) := by
  simp [rearm, hlast]

/-- Settles O42: an index that does not qualify is left to the guard, and one that is no local maximum to nothing. -/
theorem guardRearms : Obligations.GuardRearms := by
  refine fun b i => ⟨fun h hq harm hlast => ?_, fun hq harm => ?_, decideIndex_of_not_localMax⟩
  · rw [decideIndex_of_unqualified hq, harm, if_neg Bool.false_ne_true, rearm_eq hlast]
  · rw [decideIndex_of_unqualified hq, if_pos harm]

/-! ### A decision's reads -/

/-- An index that qualifies is decided with its local-maximum test. -/
theorem decideIndex_localMax (h : decideIndex i b = some b') (hq : qualify b i = some true) :
    ∃ v, localMax b i = some v := by
  simp only [decideIndex, hq, candidate, if_true, Option.bind_eq_bind, Option.bind_some,
    Option.bind_eq_some_iff] at h
  obtain ⟨v, hv, _⟩ := h
  exact ⟨v, hv⟩

/-- An index that does not qualify writes the guard: it is armed where it was, or where the hold-off of the last hit
has passed (42_correlator.md R171). -/
theorem decideIndex_unqualified_eq (h : decideIndex i b = some b') (hq : qualify b i = some false) :
    b' = { b with armed := b.armed || b.lastHit.any fun l => decide (b.holdoff.toNat ≤ since i l) } := by
  rw [decideIndex_of_unqualified hq] at h
  cases harm : b.armed with
  | true =>
    rw [harm, if_pos rfl, Option.some.injEq] at h
    rw [← h, Bool.true_or, ← harm]
  | false =>
    rw [harm, if_neg Bool.false_ne_true] at h
    obtain ⟨l, hl, ⟨hpast, rfl⟩ | ⟨hwithin, rfl⟩⟩ := rearm_cases h
    · have hany : (b.lastHit.any fun l => decide (b.holdoff.toNat ≤ since i l)) = true := by simp [hl, hpast]
      rw [hany, Bool.or_true]
    · have hany : (b'.lastHit.any fun l => decide (b'.holdoff.toNat ≤ since i l)) = false := by simp [hl, hwithin]
      rw [hany, Bool.false_or, ← harm]

/-- A decision leaves everything that the correlator reads of an index. -/
theorem Decision.reads (h : Decision i b b') (j : SampleNo) :
    qualify b' j = qualify b j ∧ localMax b' j = localMax b j ∧ score b' j = score b j ∧
      noiseAt b' j = noiseAt b j ∧ pulseSum b' j = pulseSum b j := by
  cases h <;> exact ⟨rfl, rfl, rfl, rfl, rfl⟩

/-! ### The decision of a SAMPLE -/

/-- Storing a sample and the demodulator's step leave the correlator's counters and guard. -/
theorem demodStep_store_guard (h : demodStep p b.sidx (storeSample im re b) = some b') :
    b'.cntHit = b.cntHit ∧ b'.cntSupp = b.cntSupp ∧ b'.armed = b.armed ∧ b'.lastHit = b.lastHit ∧
      b'.holdoff = b.holdoff ∧ b'.segStart = b.segStart := by
  rw [demodStep_frame h]
  exact ⟨rfl, rfl, rfl, rfl, rfl, rfl⟩

/-- A sample that counts a hit decided index g - 47 of a segment of 48 samples or more, and took it with the guard
armed (42_correlator.md R168, R170). -/
theorem processSample_takes (h : processSample p false im re b = some u) (hcount : u.cntHit ≠ b.cntHit) :
    ∃ b1, demodStep p b.sidx (storeSample im re b) = some b1 ∧ 47 ≤ since b.sidx b.segStart ∧ b.armed = true ∧
      takeHit (b.sidx - 47#64) b1 = some u := by
  obtain ⟨b1, h1, h2⟩ := processSample_stages h
  obtain ⟨hhit, _, harmed, _, _, hstart⟩ := demodStep_store_guard h1
  rw [← hhit] at hcount
  obtain ⟨_, rfl⟩ | ⟨h47, hd⟩ := decideStep_cases h2
  · exact absurd rfl hcount
  refine ⟨b1, h1, hstart ▸ h47, ?_⟩
  obtain ⟨q, _, ⟨_, _, harm, ht⟩ | ⟨_, _, _, rfl⟩ | ⟨_, _, hr⟩ | ⟨_, _, rfl⟩⟩ := decideIndex_cases hd
  · exact ⟨harmed ▸ harm, ht⟩
  · exact absurd rfl hcount
  · obtain ⟨l, _, ⟨_, rfl⟩ | ⟨_, rfl⟩⟩ := rearm_cases hr
    · exact absurd rfl hcount
    · exact absurd rfl hcount
  · exact absurd rfl hcount

/-- From the invariant, a sample of a segment of 48 samples or more decides index g - 47 (42_correlator.md R168). -/
theorem processSample_decides (im re : Word) (hp : p.Legal) (hb : b.Inv p) (h47 : 47 ≤ since b.sidx b.segStart) :
    ∃ b1 u, demodStep p b.sidx (storeSample im re b) = some b1 ∧ decideIndex (b.sidx - 47#64) b1 = some u ∧
      processSample p false im re b = some u := by
  obtain ⟨u, hu⟩ := processSample_some false im re hp hb
  obtain ⟨b1, h1, h2⟩ := processSample_stages hu
  obtain ⟨_, _, _, _, _, hstart⟩ := demodStep_store_guard h1
  obtain ⟨hlt, _⟩ | ⟨_, hd⟩ := decideStep_cases h2
  · rw [hstart] at hlt
    omega
  · exact ⟨b1, u, h1, hd, hu⟩

/-- Settles O43: the stages before the correlator's leave its counters and guard, and a decision leaves what it
reads. -/
theorem decisionTiming : Obligations.DecisionTiming := by
  intro s im re hen i
  refine ⟨fun last t h => ?_, fun hinv h47 => ?_⟩
  · obtain ⟨hdis, _⟩ | ⟨_, u, hu, rfl⟩ := exec_sample_cases h
    · simp [hen] at hdis
    refine ⟨fun hearly => ?_, fun hl hcount => ?_⟩
    · obtain ⟨_, _, _, _, hhit, hsupp, _⟩ := ite_flush_counters last u
      obtain ⟨hhit', hsupp', _⟩ := processSample_early hu hearly
      exact ⟨hhit.trans hhit', hsupp.trans hsupp'⟩
    · subst hl
      obtain ⟨b1, _, h47, _, ht⟩ := processSample_takes hu hcount
      obtain ⟨c, nz, hi, _, _, _, rfl⟩ := takeHit_cases ht
      exact ⟨h47, rfl, rfl, _, rfl, rfl⟩
  · obtain ⟨b1, u, h1, hd, hu⟩ := processSample_decides im re hinv.params hinv.blk h47
    obtain ⟨hhit, hsupp, harmed, hlast, hholdoff, _⟩ := demodStep_store_guard h1
    obtain ⟨hqualify, hlocalMax, hscore, hnoise, hpulse⟩ := (decideIndex_decision hd).reads i
    obtain ⟨q, hq, _⟩ := decideIndex_cases hd
    refine ⟨withBlk s u, exec_sample_of_some hen hu false, q, hqualify.trans hq, fun hqt => ?_, fun hqf => ?_⟩
    · subst hqt
      obtain ⟨v, hv⟩ := decideIndex_localMax hd hq
      refine ⟨v, hlocalMax.trans hv, fun hvt harm => ?_, fun hvt hdis => ?_, fun hvf => ?_⟩
      · -- a candidate with the guard armed
        subst hvt
        rw [decideIndex_of_candidate hq hv, if_pos (harmed.trans harm)] at hd
        obtain ⟨c, nz, hi, hc, hn, hh, rfl⟩ := takeHit_cases hd
        exact ⟨congrArg (· + 1#32) hhit, hsupp, rfl, rfl, _, rfl, rfl, hnoise.trans hn,
          ⟨c, _, hscore.trans hc, rfl⟩, hi, _, hpulse.trans hh, rfl⟩
      · -- a candidate with the guard disarmed
        subst hvt
        rw [candidateSuppressed _ _ (harmed.trans hdis) hq hv, Option.some.injEq] at hd
        subst hd
        exact ⟨congrArg (· + 1#32) hsupp, hhit, harmed.trans hdis, hlast⟩
      · -- no local maximum
        subst hvf
        rw [decideIndex_of_not_localMax hq hv, Option.some.injEq] at hd
        subst hd
        exact ⟨hhit, hsupp, harmed, hlast⟩
    · subst hqf
      rw [withBlk_blk, ← harmed, ← hlast, ← hhit, ← hsupp, ← hholdoff, decideIndex_unqualified_eq hd hq]
      exact ⟨rfl, rfl, rfl, rfl⟩

/-- While the guard is armed no demodulation is in flight (42_correlator.md R174). -/
theorem demod_none_of_armed (hb : b.Inv p) (harm : b.armed = true) : b.demod = none := by
  rw [Option.eq_none_iff_forall_ne_some]
  intro d hd
  have hdis := (hb.demod d hd).disarmed
  rw [harm] at hdis
  cases hdis

/-- Without a demodulation in flight the demodulator's step changes nothing (43_demodulator.md R206). -/
theorem demodStep_of_none {g : SampleNo} (h : b.demod = none) : demodStep p g b = some b := by
  simp only [demodStep, h]

/-- Settles O44: a hit is taken with the guard armed, when no demodulation is in flight. -/
theorem hitFindsDemodulatorIdle : Obligations.HitFindsDemodulatorIdle := by
  intro s t last im re hinv h hcount
  obtain ⟨_, rfl⟩ | ⟨_, u, hu, rfl⟩ := exec_sample_cases h
  · exact absurd rfl hcount
  obtain ⟨hfq, _, _, hframe, hhit, _⟩ := ite_flush_counters last u
  obtain ⟨b1, h1, _, harm, ht⟩ := processSample_takes hu fun heq => hcount (hhit.trans heq)
  have hnone := demod_none_of_armed hinv.blk harm
  rw [demodStep_of_none (by rw [storeSample_demod, hnone]), Option.some.injEq] at h1
  subst h1
  obtain ⟨c, nz, hi, _, _, _, rfl⟩ := takeHit_cases ht
  exact ⟨hnone, harm, hframe, hfq⟩

end Sys2Proof.Machine

/-! ## The signal level (43_demodulator.md R210)

The eighth of a pulse sum is exact while it is normal: its word is the sum's with an exponent less by three. Below that
it rounds to at most the least normal number, whose level the formula clips to 0 as well. -/

namespace Sys2Proof.Machine

/-- R210's formula, of the 31 bits below a mean's sign. -/
def clippedLog (m : Nat) : ℤ := min (max (16 * ((m / 2 ^ 23 : ℕ) - 127 : ℤ) + (m / 2 ^ 19 % 16 : ℕ) + 128) 0) 255

theorem toNat_ofInt_clip (z : ℤ) :
    ((BitVec.ofInt 8 (min (max z 0) 255)).toNat : ℤ) = min (max z 0) 255 := by
  rw [BitVec.toNat_ofInt]
  omega

/-- The rule's own arm for a zero or subnormal mean gives what its formula clips to. -/
theorem sigLvlOfBits_toNat {mean : Word} (h : mean.toNat < 2 ^ 31) :
    ((sigLvlOfBits mean).toNat : ℤ) = clippedLog mean.toNat := by
  have hexp : (mean.extractLsb' 23 8).toNat = mean.toNat / 2 ^ 23 := by
    rw [BitVec.extractLsb'_toNat, Nat.shiftRight_eq_div_pow]
    omega
  have hfrac : (mean.extractLsb' 19 4).toNat = mean.toNat / 2 ^ 19 % 16 := by
    rw [BitVec.extractLsb'_toNat, Nat.shiftRight_eq_div_pow]
  simp only [sigLvlOfBits, hexp, hfrac]
  split
  · next h0 =>
    rw [clippedLog, h0]
    simp only [BitVec.toNat_ofNat]
    omega
  · exact toNat_ofInt_clip _

theorem clippedLog_eq_zero {m : Nat} (h : m < 2 ^ 24) : clippedLog m = 0 := by
  unfold clippedLog
  omega

theorem fmul_eighth (x : Nat) : fmul (.fin false x) (powNeg 3#5) = roundTo false (x * 2 ^ 146) 149 :=
  fmul_fin false false x (2 ^ 146)

/-- The level of a pulse sum whose eighth rounds to `u` units. -/
theorem sigLvl_toNat {w : Word} (hw : IsMag w) {u : Nat} (hu : u < two128)
    (hmean : roundTo false (wordUnits w.toNat * 2 ^ 146) 149 = .fin false u) :
    ((sigLvl w).toNat : ℤ) = clippedLog (unitsField u) := by
  have hbits : (finBits false u).toNat < 2 ^ 31 := lt_trans (finBits_isMag hu) (by norm_num)
  have hlevel : sigLvl w = sigLvlOfBits (finBits false u) := by
    simp only [sigLvl, f32_of_isMag hw, fmul_eighth, hmean, bitsOf]
  rw [hlevel, sigLvlOfBits_toNat hbits, finBits_toNat hu, unitsField]

/-- Three exponents lower stands an eighth of the value. -/
theorem wordUnits_eighth {m : Nat} (h : 4 ≤ m / 2 ^ 23) : wordUnits m = wordUnits (m - 3 * 2 ^ 23) * 2 ^ 3 := by
  have hexp : (m - 3 * 2 ^ 23) / 2 ^ 23 = m / 2 ^ 23 - 3 := by omega
  have hfrac : (m - 3 * 2 ^ 23) % 2 ^ 23 = m % 2 ^ 23 := by omega
  have hpow : m / 2 ^ 23 - 1 = m / 2 ^ 23 - 3 - 1 + 3 := by omega
  rw [wordUnits, wordUnits, hexp, hfrac, if_neg (by omega), if_neg (by omega), mul_assoc, ← pow_add, hpow]

/-- A normal eighth is exact. -/
theorem roundTo_normal_eighth {m : Nat} (h4 : 4 ≤ m / 2 ^ 23) (h : m < 0x7F800000) :
    roundTo false (wordUnits m * 2 ^ 146) 149 = .fin false (wordUnits (m - 3 * 2 ^ 23)) := by
  rw [wordUnits_eighth h4, mul_assoc, ← pow_add]
  exact roundTo_of_representable false 149 (wordUnits_representable (by omega))

theorem wordUnits_lt_of_lt_two_pow_25 {m : Nat} (h : m < 2 ^ 25) : wordUnits m < 2 ^ 26 :=
  calc wordUnits m < wordUnits (2 ^ 25) := wordUnits_strictMono h
    _ = 2 ^ 26 := by norm_num [wordUnits]

/-- Any other eighth rounds to a subnormal number or to the least normal one, 2^23 units. -/
theorem roundedUnits_small_eighth {x : Nat} (h : x < 2 ^ 26) : roundedUnits (x * 2 ^ 146) 149 ≤ 2 ^ 23 := by
  have hlt : x * 2 ^ 146 < 2 ^ 26 * 2 ^ 146 := Nat.mul_lt_mul_of_pos_right h (by positivity)
  have hstep : stepExp (x * 2 ^ 146) 149 = 149 :=
    max_eq_left ((excess_le (m := 148) (lt_of_lt_of_le hlt (by norm_num))).trans (by norm_num))
  have hquot : x * 2 ^ 146 / 2 ^ 149 < 2 ^ 23 := by
    rw [Nat.div_lt_iff_lt_mul (by positivity)]
    exact lt_of_lt_of_le hlt (by norm_num)
  rw [roundedUnits, hstep, Nat.sub_self, pow_zero, mul_one]
  exact (roundEven_le _ _).trans hquot

theorem unitsField_of_le {u : Nat} (h : u ≤ 2 ^ 23) : unitsField u = u := by
  have h0 : excess u = 0 := Nat.le_zero.1 (excess_le (by omega))
  rw [unitsField, h0, Nat.zero_mul, Nat.zero_add, pow_zero, Nat.div_one]

/-- Settles O50: the mean's word is the sum's three exponents lower, or at most that of the least normal number. -/
theorem signalLevelFormula : Obligations.SignalLevelFormula := by
  refine ⟨fun w h4 h254 => ?_, fun w hw => ?_, rfl⟩
  · have hmag : w.toNat < 0x7F800000 := by omega
    have hunits := (wordUnits_representable (n := w.toNat - 3 * 2 ^ 23) (by omega)).1
    have hexp : (w.toNat - 3 * 2 ^ 23) / 2 ^ 23 = w.toNat / 2 ^ 23 - 3 := by omega
    have hfrac : (w.toNat - 3 * 2 ^ 23) / 2 ^ 19 % 16 = w.toNat / 2 ^ 19 % 16 := by omega
    rw [sigLvl_toNat hmag hunits (roundTo_normal_eighth h4 hmag), unitsField_wordUnits, clippedLog, hexp, hfrac]
  · have hsmall := roundedUnits_small_eighth (wordUnits_lt_of_lt_two_pow_25 hw)
    have hlt : roundedUnits (wordUnits w.toNat * 2 ^ 146) 149 < two128 :=
      lt_of_le_of_lt hsmall (by rw [two128_eq]; norm_num)
    have hmean := (roundTo_eq false (wordUnits w.toNat * 2 ^ 146) 149).trans (if_pos hlt)
    have hlevel := sigLvl_toNat (show w.toNat < 0x7F800000 by omega) hlt hmean
    rw [unitsField_of_le hsmall, clippedLog_eq_zero (by omega)] at hlevel
    exact BitVec.eq_of_toNat_eq (by exact_mod_cast hlevel)

end Sys2Proof.Machine

/-! ## The completion of a frame (43_demodulator.md R201 to R206, R211; 44_frame_assembler.md R230, R231)

While a demodulation is in flight the guard is disarmed, so no decision touches it: what a SAMPLE does to DEMOD and the
queue is the demodulator's step. At its last bit that step reads the payload's magnitudes and nothing else. -/

namespace Sys2Proof.Machine

variable {p : Params} {b b' : Block} {g : SampleNo} {im re : Word}

/-! ### When a frame completes -/

/-- With the guard disarmed no hit is taken, so the correlator's turn leaves DEMOD (42_correlator.md R173). -/
theorem decideStep_keeps_demod (h : decideStep g b = some b') (hdis : b.armed = false) : b'.demod = b.demod := by
  obtain ⟨_, rfl⟩ | ⟨_, hd⟩ := decideStep_cases h
  · rfl
  obtain ⟨q, _, ⟨_, _, harm, _⟩ | ⟨_, _, _, rfl⟩ | ⟨_, _, hr⟩ | ⟨_, _, rfl⟩⟩ := decideIndex_cases hd
  · simp [hdis] at harm
  · rfl
  · obtain ⟨l, _, ⟨_, rfl⟩ | ⟨_, rfl⟩⟩ := rearm_cases hr
    · rfl
    · rfl
  · rfl

/-- While a demodulation is in flight, only the demodulator's step writes DEMOD, the queue and its counters. -/
theorem processSample_demod_eq {d : Demod} (hb : b.Inv p) (hd : b.demod = some d)
    (h : processSample p false im re b = some b') :
    ∃ b1, demodStep p b.sidx (storeSample im re b) = some b1 ∧ b'.demod = b1.demod ∧ b'.fq = b1.fq ∧
      b'.seqCtr = b1.seqCtr ∧ b'.cntFrame = b1.cntFrame ∧ b'.cntFqdrop = b1.cntFqdrop := by
  obtain ⟨b1, h1, h2⟩ := processSample_stages h
  obtain ⟨_, _, harmed, _⟩ := demodStep_store_guard h1
  have hdemod := decideStep_keeps_demod h2 (harmed.trans (hb.demod d hd).disarmed)
  have hframe := (decideStep_decision h2).1.frame
  exact ⟨b1, h1, hdemod, (congrArg Block.fq hframe :), (congrArg Block.seqCtr hframe :),
    (congrArg Block.cntFrame hframe :), (congrArg Block.cntFqdrop hframe :)⟩

/-- A sample keeps the demodulation in flight, or completes its frame 255 or 479 samples after its hit
(43_demodulator.md R206). -/
theorem processSample_in_flight {d : Demod} (hb : b.Inv p) (hd : b.demod = some d)
    (h : processSample p false im re b = some b') :
    (b'.cntFrame = b.cntFrame ∧ b'.demod = some d) ∨
    (b'.cntFrame = b.cntFrame + 1#32 ∧ b'.demod = none ∧ (since b.sidx d.h = 255 ∨ since b.sidx d.h = 479)) := by
  obtain ⟨b1, h1, hdemod, _, _, hframe, _⟩ := processSample_demod_eq hb hd h
  rw [hdemod, hframe]
  obtain rfl | ⟨e, r, he, hwhen, rfl⟩ := demodStep_completes h1
  · exact .inl ⟨rfl, hd⟩
  · obtain rfl : d = e := Option.some.inj (hd.symm.trans he)
    exact .inr ⟨rfl, rfl, hwhen⟩

/-- Settles O47: a sample that counts a frame found a demodulation in flight, and only its completion ends it. -/
theorem frameCompletionTiming : Obligations.FrameCompletionTiming := by
  intro s t im re hinv h
  obtain ⟨_, rfl⟩ | ⟨_, u, hu, rfl⟩ := exec_sample_cases h
  · exact ⟨fun hne => absurd rfl hne, fun _ _ hd => hd⟩
  refine ⟨fun hne => ?_, fun hsame d hd => ?_⟩
  · obtain ⟨_, _, _, hsame⟩ | ⟨⟨d, hd, _⟩, _⟩ := processSample_queue hu
    · exact absurd hsame hne
    obtain ⟨hsame, _⟩ | ⟨_, hnone, hwhen⟩ := processSample_in_flight hinv.blk hd hu
    · exact absurd hsame hne
    · exact ⟨d, hd, hnone, hwhen⟩
  · obtain ⟨_, hkept⟩ | ⟨hcount, _⟩ := processSample_in_flight hinv.blk hd hu
    · exact hkept
    · exact absurd (hcount.symm.trans hsame) (counter_add_one_ne _)

/-! ### The bits of a payload -/

/-- The half energies A_k and B_k of bit period k of a payload of magnitudes `m` (43_demodulator.md R201). -/
def halfEnergies (m : Nat → Fp) (k : Nat) : Fp × Fp :=
  (fadd (m (4 * k)) (m (4 * k + 1)), fadd (m (4 * k + 2)) (m (4 * k + 3)))

/-- The Downlink Format of that payload (43_demodulator.md R204). -/
def payloadFormat (m : Nat → Fp) : BitVec 5 :=
  BitVec.ofNat 5 (bitsToNat ((List.range 5).map fun k => bitValue (halfEnergies m k)))

theorem payloadFormat_toNat (m : Nat → Fp) :
    let bit (k : Nat) : Nat := (bitValue (halfEnergies m k)).toNat
    (payloadFormat m).toNat = bit 0 * 16 + bit 1 * 8 + bit 2 * 4 + bit 3 * 2 + bit 4 := by
  have hlt := bitsToNat_lt ((List.range 5).map fun k => bitValue (halfEnergies m k))
  rw [List.length_map, List.length_range] at hlt
  rw [payloadFormat, BitVec.toNat_ofNat, Nat.mod_eq_of_lt hlt]
  simp only [bitsToNat, List.range_succ, List.range_zero, List.nil_append, List.cons_append, List.map_cons,
    List.map_nil, List.foldl_cons, List.foldl_nil]
  ring

theorem frameLen_eq (df : BitVec 5) : frameLen df = if df.toNat = 17 ∨ df.toNat = 18 then 112 else 56 := by
  simp only [frameLen, BitVec.toNat_eq, BitVec.toNat_ofNat, Nat.reducePow, Nat.reduceMod]

section Payload

/-! The payload of the hit at `h`: the magnitudes of the `L` bit periods from 32 samples after it. -/

variable {h : SampleNo} {m : Nat → Fp} {L : Nat}
  (hm : ∀ j, j < 4 * L → magAt b (h + BitVec.ofNat 64 (32 + j)) = some (m j))
include hm

theorem halves_of_payload {k : Nat} (hk : k < L) : halves b h k = some (halfEnergies m k) := by
  have hread (i : Nat) (hi : i < 4) :
      magAt b (h + BitVec.ofNat 64 (32 + 4 * k) + BitVec.ofNat 64 i) = some (m (4 * k + i)) := by
    rw [BitVec.add_assoc, ← BitVec.ofNat_add, Nat.add_assoc]
    exact hm _ (by omega)
  have hfirst := hm (4 * k) (by omega)
  have h1 := hread 1 (by omega)
  have h2 := hread 2 (by omega)
  have h3 := hread 3 (by omega)
  simp [halves, hfirst, h1, h2, h3, halfEnergies]

theorem mapOpt_halves_of_payload {n : Nat} (hn : n ≤ L) :
    mapOpt (halves b h) (List.range n) = some ((List.range n).map (halfEnergies m)) :=
  mapOpt_eq_map fun _ hk => halves_of_payload hm (lt_of_lt_of_le (List.mem_range.1 hk) hn)

theorem downlinkFormat_of_payload (h5 : 5 ≤ L) : downlinkFormat b h = some (payloadFormat m) := by
  simp [downlinkFormat, mapOpt_halves_of_payload hm h5, payloadFormat, Function.comp_def]

end Payload

/-- The record of a hit from its payload of magnitudes (44_frame_assembler.md R230). -/
def payloadFrame (seq : BitVec 8) (d : Demod) (eps : Word) (m : Nat → Fp) (L : Nat) : Frame :=
  frameOf seq d (payloadFormat m) ((List.range L).map fun k => bitValue (halfEnergies m k))
    ((List.range L).map fun k => softFlag eps (halfEnergies m k))

theorem complete_of_payload {d : Demod} {m : Nat → Fp} {L : Nat}
    (hm : ∀ j, j < 4 * L → magAt b (d.h + BitVec.ofNat 64 (32 + j)) = some (m j))
    (hL : frameLen (payloadFormat m) = L) : complete p d (payloadFormat m) b =
      some { enqueue p (payloadFrame b.seqCtr d b.eps m L) b with demod := none } := by
  rw [complete, hL, mapOpt_halves_of_payload hm le_rfl, payloadFrame, Option.bind_eq_bind, Option.bind_some,
    List.map_map, List.map_map]
  rfl

/-- The sample of the last bit's last magnitude completes the frame (43_demodulator.md R206). -/
theorem demodStep_at_last {d : Demod} {df : BitVec 5} (hd : b.demod = some d)
    (hdf : downlinkFormat b d.h = some df) (hlast : since g d.h = 31 + 4 * frameLen df) :
    demodStep p g b = complete p d df b := by
  have hlate : ¬since g d.h < 51 := by obtain hlen | hlen := frameLen_cases df <;> omega
  simp only [demodStep, hd, if_neg hlate, hdf, Option.bind_eq_bind, Option.bind_some, if_pos hlast]

/-! ### The record -/

/-- The bits of a packed payload (44_frame_assembler.md R231). -/
theorem getMsbD_pack_range {n : Nat} (hn : n ≤ 112) (f : Nat → Bool) (k : Nat) :
    (pack ((List.range n).map f)).getMsbD k = (decide (k < n) && f k) := by
  rw [getMsbD_pack (by simpa using hn), List.getElem?_map]
  by_cases hk : k < n
  · simp [hk]
  · simp [hk]

theorem payloadFrame_fields {L : Nat} (hL : L ≤ 112) (seq : BitVec 8) (d : Demod) (eps : Word) (m : Nat → Fp) :
    let r := payloadFrame seq d eps m L
    r.len.toNat = L ∧ r.ts.toNat = 3 * d.h.toNat % 2 ^ 48 ∧
      (∀ k, r.data.getMsbD k = (decide (k < L) && bitValue (halfEnergies m k))) ∧
      (∀ k, r.softmask.getMsbD k = (decide (k < L) && softFlag eps (halfEnergies m k))) ∧
      (r.softAny = true ↔ ∃ k, k < L ∧ softFlag eps (halfEnergies m k) = true) := by
  refine ⟨?_, BitVec.toNat_ofNat _ _, getMsbD_pack_range hL _, getMsbD_pack_range hL _, ?_⟩
  · simp only [payloadFrame, frameOf, List.length_map, List.length_range, BitVec.toNat_ofNat]
    omega
  · simp [payloadFrame, frameOf]

/-- Under the invariant a queue is full when it holds FQ_DEPTH records: Enqueue drops its head then, and only then
(44_frame_assembler.md R234). -/
theorem enqueue_drop (hb : b.Base p) (r : Frame) :
    (enqueue p r b).cntFqdrop = (if b.fq.length = p.fqDepth then b.cntFqdrop + 1#32 else b.cntFqdrop) ∧
      (enqueue p r b).fq =
        (if b.fq.length = p.fqDepth then b.fq.tail else b.fq) ++ [{ r with seq := b.seqCtr }] := by
  have hfull : p.fqDepth ≤ b.fq.length ↔ b.fq.length = p.fqDepth := ⟨fun hge => le_antisymm hb.queue hge, ge_of_eq⟩
  simp only [enqueue_cntFqdrop, enqueue_fq, decide_eq_true_eq, hfull, and_self]

/-- A sample's own stages leave the magnitudes as storing it gave them. -/
theorem processSample_magAt (h : processSample p false im re b = some b') (i : SampleNo) :
    magAt b' i = magAt (storeSample im re b) i :=
  (congrArg (magAt · i) (processSample_frame h) :)

/-- Settles O46: before the correlator's turn, the stored payload is sliced into the record that is enqueued. -/
theorem frameRecordContents : Obligations.FrameRecordContents := by
  intro s t im re d m L hinv hen hd h hlast hm bit soft df h5 hL
  obtain ⟨hdis, _⟩ | ⟨_, u, hu, rfl⟩ := exec_sample_cases h
  · simp [hen] at hdis
  have hdf : (payloadFormat m).toNat = df := payloadFormat_toNat m
  have hlen : frameLen (payloadFormat m) = L := by rw [frameLen_eq, hdf, hL]
  have hle : L ≤ 112 := by obtain h112 | h56 := frameLen_cases (payloadFormat m) <;> omega
  have hpayload : ∀ j, j < 4 * L →
      magAt (storeSample im re s.blk) (d.h + BitVec.ofNat 64 (32 + j)) = some (m j) := fun j hj =>
    (processSample_magAt hu _).symm.trans (hm j hj)
  obtain ⟨b1, h1, hdemod, hfq, hseq, hframe, hdrop⟩ := processSample_demod_eq hinv.blk hd hu
  rw [demodStep_at_last (b := storeSample im re s.blk) hd (downlinkFormat_of_payload hpayload h5) (hlen ▸ hlast),
    complete_of_payload hpayload hlen, Option.some.injEq] at h1
  subst h1
  obtain ⟨hdrop', hfq'⟩ := enqueue_drop (storeSample_base im re hinv.blk.toBase)
    (payloadFrame s.blk.seqCtr d s.blk.eps m L)
  obtain ⟨hrlen, hts, hdata, hsoft, hany⟩ := payloadFrame_fields hle s.blk.seqCtr d s.blk.eps m
  exact ⟨hdemod, hframe, hseq, hdrop.trans hdrop', _, hfq.trans hfq', rfl, hrlen, hdf, rfl, rfl, rfl, rfl, hts,
    fun k _ => hdata k, fun k _ => hsoft k, hany⟩

end Sys2Proof.Machine

/-! ## The frame queue, a held FTAKE and the external CRC unit (44_frame_assembler.md) -/

namespace Sys2Proof.Machine

variable {s : State} {p : Params} {b : Block}

/-! ### The residue sees one flipped bit (44_frame_assembler.md R238) -/

/-- A step of the division, bit by bit: the register moved up behind the next coefficient, less the generator where
x^24 appears. -/
theorem getLsbD_crcShift (r : BitVec 24) (bit : Bool) (j : Nat) :
    (crcShift r bit).getLsbD j =
      ((r <<< 1 ||| BitVec.ofNat 24 bit.toNat).getLsbD j ^^ (r.getLsbD 23 && crcGenerator.getLsbD j)) := by
  unfold crcShift
  cases r.getLsbD 23
  · simp
  · simp only [if_true, BitVec.getLsbD_xor, Bool.true_and]

/-- The generator's constant term is 1. -/
theorem getLsbD_crcShift_zero (r : BitVec 24) (bit : Bool) :
    (crcShift r bit).getLsbD 0 = (bit ^^ r.getLsbD 23) := by
  have hconst : crcGenerator.getLsbD 0 = true := by decide
  have hnew : (r <<< 1 ||| BitVec.ofNat 24 bit.toNat).getLsbD 0 = bit := by cases bit <;> simp
  rw [getLsbD_crcShift, hnew, hconst, Bool.and_true]

theorem getLsbD_crcShift_succ (r : BitVec 24) (bit : Bool) {j : Nat} (hj : j + 1 < 24) :
    (crcShift r bit).getLsbD (j + 1) = (r.getLsbD j ^^ (r.getLsbD 23 && crcGenerator.getLsbD (j + 1))) := by
  have hmoved : (r <<< 1 ||| BitVec.ofNat 24 bit.toNat).getLsbD (j + 1) = r.getLsbD j := by
    cases bit <;> simp [hj, Nat.lt_of_succ_lt hj]
  rw [getLsbD_crcShift, hmoved]

/-- The next register and the coefficient determine the register: bit 0 shows whether the generator was
subtracted. -/
theorem crcShift_injective (bit : Bool) : Function.Injective (crcShift · bit) := by
  intro r r' h
  have hbit : ∀ j, (crcShift r bit).getLsbD j = (crcShift r' bit).getLsbD j := fun j => congrArg (·.getLsbD j) h
  have htop : r.getLsbD 23 = r'.getLsbD 23 := by
    have hzero := hbit 0
    rwa [getLsbD_crcShift_zero, getLsbD_crcShift_zero, Bool.xor_right_inj] at hzero
  refine BitVec.eq_of_getLsbD_eq fun j hj => ?_
  obtain rfl | hlow : j = 23 ∨ j + 1 < 24 := by omega
  · exact htop
  · have hsucc := hbit (j + 1)
    rwa [getLsbD_crcShift_succ r bit hlow, getLsbD_crcShift_succ r' bit hlow, htop, Bool.xor_left_inj] at hsucc

theorem crcShift_bit_injective (r : BitVec 24) : Function.Injective (crcShift r) := by
  intro bit bit' h
  have hzero : (crcShift r bit).getLsbD 0 = (crcShift r bit').getLsbD 0 := congrArg (·.getLsbD 0) h
  rwa [getLsbD_crcShift_zero, getLsbD_crcShift_zero, Bool.xor_left_inj] at hzero

theorem foldl_crcShift_injective (bits : List Bool) : Function.Injective (bits.foldl crcShift) := by
  induction bits with
  | nil => exact Function.injective_id
  | cons bit bits ih => exact ih.comp (crcShift_injective bit)

/-- The bits before a flipped one leave one register, the flip makes two of it, and the bits after keep them apart. -/
theorem crcResidue_set_not (bits : List Bool) {m : Nat} (hm : m < bits.length) :
    crcResidue (bits.set m (!bits[m])) ≠ crcResidue bits := by
  have hres : ∀ v, crcResidue (bits.set m v) =
      (bits.drop (m + 1)).foldl crcShift (crcShift (crcResidue (bits.take m)) v) := fun v => by
    simp [crcResidue, List.set_eq_take_append_cons_drop, hm]
  have hself := hres bits[m]
  rw [List.set_getElem_self] at hself
  rw [hself, hres]
  intro h
  exact Bool.not_ne_self _ (crcShift_bit_injective _ (foldl_crcShift_injective _ h))

/-- Flipping bit k of a frame's 112 flips the bit sent in position 111 - k (44_frame_assembler.md R231). -/
theorem frameBits_flip (data : BitVec 112) {k : Nat} (hk : k < 112) :
    frameBits (data ^^^ BitVec.twoPow 112 k) 112 =
      (frameBits data 112).set (111 - k) (!data.getLsbD k) := by
  refine List.ext_getElem (by simp [frameBits]) fun j hj _ => ?_
  have hj : j < 112 := by simpa [frameBits] using hj
  by_cases hjk : 111 - k = j
  · have hpos : 111 - j = k := by omega
    simp [frameBits, hjk, hpos, hk]
  · have hpos : k ≠ 111 - j := by omega
    simp [frameBits, hjk, BitVec.getLsbD_twoPow, hpos]

/-- Settles O60: the flipped frame is the frame with one bit set to its complement. -/
theorem crcSeesOneFlippedBit : Obligations.CrcSeesOneFlippedBit := by
  intro data k hk
  have hm : 111 - k < (frameBits data 112).length := by simp [frameBits]; omega
  have hget : (frameBits data 112)[111 - k] = data.getLsbD k := by
    simp [frameBits, show 111 - (111 - k) = k by omega]
  rw [frameBits_flip data hk, ← hget]
  exact crcResidue_set_not _ hm

/-! ### A held FTAKE (44_frame_assembler.md R236) -/

theorem fetch_held {ts : List Turn} (h : s.io.turns = .port .f :: ts) (hheld : s.io.fHeld = true) :
    fetch s = .run .ftake { s with io := { s.io with turns := ts } } := by
  simp only [fetch, h, fetchTurn, hheld, and_self, if_true]

/-- Settles O7: the turn brings the held FTAKE. -/
theorem heldFtakeIsOfferedAgain : Obligations.HeldFtakeIsOfferedAgain := fun _ _ hturn hheld => by
  simp only [step, fetch_held hturn hheld]

/-- Of the ports a transaction other than FTAKE moves the register port's answers alone. -/
theorem exec_io_of_ne_ftake {i : Instr} {t : State} (hi : i ≠ .ftake) (h : exec i s = .next t) :
    t.io = { s.io with rResponses := t.io.rResponses } := by
  cases i
  case ftake => exact absurd rfl hi
  case sample last im re =>
    obtain ⟨_, rfl⟩ | ⟨_, b, _, rfl⟩ := execSample_cases h
    · rfl
    · rfl
  all_goals cases h; rfl

/-- Settles O52: the F port's flag and answers are none of the register port's. -/
theorem heldFtakeKeepsWaiting : Obligations.HeldFtakeKeepsWaiting := fun _ _ _ hi h => by
  rw [exec_io_of_ne_ftake hi h]
  exact ⟨rfl, rfl⟩

/-! ### Enqueue (44_frame_assembler.md R233, R234) -/

theorem enqueue_of_room (r : Frame) (h : b.fq.length < p.fqDepth) :
    enqueue p r b =
      { b with
        fq := b.fq ++ [{ r with seq := b.seqCtr }]
        seqCtr := b.seqCtr + 1#8
        cntFrame := b.cntFrame + 1#32 } := by
  simp [enqueue, h]

theorem enqueue_of_full (r : Frame) (h : p.fqDepth ≤ b.fq.length) :
    enqueue p r b =
      { b with
        fq := b.fq.tail ++ [{ r with seq := b.seqCtr }]
        seqCtr := b.seqCtr + 1#8
        cntFrame := b.cntFrame + 1#32
        cntFqdrop := b.cntFqdrop + 1#32 } := by
  simp [enqueue, h]

/-- Settles O48: a queue with room keeps its records, and a full one loses its head. -/
theorem enqueueDropsOldest : Obligations.EnqueueDropsOldest := by
  refine fun p r b => ⟨enqueue_of_room r, fun oldest rest hq hfull => ?_⟩
  rw [enqueue_of_full r hfull.ge, hq, List.tail_cons]

end Sys2Proof.Machine

/-! ## The register port (45_register_port.md R262 to R267, R275 to R277) -/

namespace Sys2Proof.Machine

/-- Settles O12: both are read-only rows of the map. -/
theorem identityRegisters : Obligations.IdentityRegisters := fun s v =>
  ⟨exec_rdOf .id s, exec_rdOf .version s, exec_wrOf_of_ro (r := .id) rfl v s,
    exec_wrOf_of_ro (r := .version) rfl v s⟩

/-- Settles O21: the list is the WRs of the map's read-only rows, in address order. -/
theorem readOnlyWritesIgnored : Obligations.ReadOnlyWritesIgnored := by
  intro s v
  change ∀ i ∈ (regMap.filter (regAccess · = .ro)).map (wrOf · v), exec i s = .next s
  intro i hi
  obtain ⟨r, hr, rfl⟩ := List.mem_map.1 hi
  have hro : regAccess r = .ro := by simpa using (List.mem_filter.1 hr).2
  exact exec_wrOf_of_ro hro v s

/-- Settles O22: the word is the block's, and a response leaves the block alone. -/
theorem readsHaveNoSideEffect : Obligations.ReadsHaveNoSideEffect := fun r s =>
  ⟨readWord s.blk r, exec_rdOf r s, exec_rdOf r (answerRd s (readWord s.blk r))⟩

/-! ### Bus errors (45_register_port.md R264) -/

theorem regAt_none_of_misaligned {a : Addr} (h : a.extractLsb' 0 2 ≠ 0#2) : regAt a = none :=
  regAt_none.2 fun r hr => h (hr ▸ regAddr_aligned r)

theorem decodeRd_of_regAt_none {a : Addr} (h : regAt a = none) : decodeRd a = .rdBuserr a := by
  simp only [decodeRd, h]

theorem decodeWr_of_regAt_none {a : Addr} (h : regAt a = none) (v : Word) : decodeWr a v = .wrBuserr a v := by
  simp only [decodeWr, h]

/-- Settles O23: a misaligned address is in no row of the map, and an address in no row decodes to the bus error. -/
theorem busErrors : Obligations.BusErrors := by
  intro s a v h
  have hnone : regAt a = none := h.elim regAt_none_of_misaligned regAt_none.2
  have hrd := decodeRd_of_regAt_none hnone
  have hwr := decodeWr_of_regAt_none hnone v
  exact ⟨hrd, hwr, by rw [hrd]; rfl, by rw [hwr]; rfl⟩

/-! ### NOISE, SIDX and the counters (45_register_port.md R275 to R277) -/

theorem noiseWord_of_nil {b : Block} (h : b.hist = []) : noiseWord b = 0#32 := by
  simp only [noiseWord, h]

theorem noiseWord_of_cons {b : Block} {e : HistEntry} {older : List HistEntry} (h : b.hist = e :: older) :
    noiseWord b = e.noise := by
  simp only [noiseWord, h]

/-- Settles O17: each register shows its field, SIDX in two halves, and all ten are read-only. -/
theorem observationRegisters : Obligations.ObservationRegisters := by
  intro s v ans
  have hwr (r : Reg) (h : regAccess r = .ro) := exec_wrOf_of_ro h v s
  refine ⟨fun hnil => exec_rdOf_eq (r := .noise) (noiseWord_of_nil hnil),
    fun e older hcons => exec_rdOf_eq (r := .noise) (noiseWord_of_cons hcons),
    exec_rdOf_eq (r := .sidxLo) (BitVec.setWidth_eq_extractLsb' (by omega)).symm,
    exec_rdOf_eq (r := .sidxHi) (extractLsb'_eq_setWidth_shiftRight _ _ _),
    exec_rdOf .cntHit s, exec_rdOf .cntSupp s, exec_rdOf .cntFrame s, exec_rdOf .cntDiscard s,
    exec_rdOf .cntFqdrop s, exec_rdOf .cntBadmag s, exec_rdOf .cntBuserr s, ?_⟩
  exact ⟨hwr .noise rfl, hwr .sidxLo rfl, hwr .sidxHi rfl, hwr .cntHit rfl, hwr .cntSupp rfl, hwr .cntFrame rfl,
    hwr .cntDiscard rfl, hwr .cntFqdrop rfl, hwr .cntBadmag rfl, hwr .cntBuserr rfl⟩

/-! ### CTRL (10_state.md R25, 45_register_port.md R267) -/

theorem nfModeBit_eq (m : NfMode) : nfModeBit m = BitVec.ofBool (m == .release) := by
  cases m <;> rfl

/-- The word of CTRL with its two reserved bits as one field. -/
theorem ctrlWord_eq (b : Block) :
    ctrlWord b = 0#25 ++ BitVec.ofBool (b.nfMode == .release) ++ magModeBits b.magMode ++ BitVec.ofBool b.ie ++ 0#2 ++
      BitVec.ofBool b.en := by
  have hreserved : ∀ x : BitVec 29, x ++ 0#1 ++ 0#1 = x ++ 0#2 := fun x => BitVec.append_assoc
  rw [ctrlWord, nfModeBit_eq, hreserved]

/-- A field of two bits, bit by bit. -/
theorem extractLsb'_two (v : Word) (k : Nat) :
    v.extractLsb' k 2 = BitVec.ofBool (v.getLsbD (k + 1)) ++ BitVec.ofBool (v.getLsbD k) := by
  refine BitVec.eq_of_getLsbD_eq fun j hj => ?_
  rw [BitVec.getLsbD_append]
  obtain rfl | rfl : j = 0 ∨ j = 1 := by omega
  · simp
  · simp

/-- MAG_MODE of a payload by its bits 5 and 4. -/
theorem magModeOf_eq (v : Word) (old : MagMode) :
    magModeOf v old = bif v.getLsbD 5 then (bif v.getLsbD 4 then old else .bypass)
      else (bif v.getLsbD 4 then .absSq else .abs) := by
  rw [magModeOf, extractLsb'_two v 4]
  cases v.getLsbD 5 <;> cases v.getLsbD 4 <;> rfl

/-- Settles O13: the model's field reads are the bits of the rule. -/
theorem ctrlRegister : Obligations.CtrlRegister := by
  intro s v magBits newMode written
  have hbits : magModeBits s.blk.magMode = magBits := by
    simp only [magBits]
    cases s.blk.magMode <;> rfl
  have hmode : magModeOf v s.blk.magMode = newMode := by
    simp only [newMode, magModeOf_eq]
    cases v.getLsbD 5 <;> cases v.getLsbD 4 <;> rfl
  have hwritten : writeCtrlFields v s.blk = written := by
    simp only [writeCtrlFields, hmode]
    rfl
  refine ⟨?_, ?_⟩
  · rw [← hbits, ← ctrlWord_eq]
    exact exec_rdOf .ctrl s
  · rw [← hwritten]
    rfl

end Sys2Proof.Machine

/-! ## No fault (60_exceptions.md R320, 10_state.md R52)

The one source of a fault is an enabled SAMPLE that reads outside the segment's history, and from the invariant every
sample can be processed. -/

namespace Sys2Proof.Machine

variable {s : State} {f : Fault}

/-- Only an enabled SAMPLE whose processing has no answer faults (10_state.md R52). -/
theorem exec_fault {i : Instr} (h : exec i s = .fault f) :
    s.blk.en = true ∧ ∃ last im re, i = .sample last im re ∧ processSample s.params last im re s.blk = none := by
  cases i
  case sample last im re =>
    simp only [exec, execSample] at h
    split at h
    · next hen =>
      split at h
      · cases h
      · next hnone => exact ⟨hen, last, im, re, rfl, hnone⟩
    · cases h
  case ftake =>
    cases hq : s.blk.fq with
    | nil => rw [exec_ftake_of_nil hq] at h; cases h
    | cons r rest => rw [exec_ftake_of_cons hq] at h; cases h
  all_goals cases h

/-- From the invariant no transaction faults. -/
theorem exec_ne_fault (hinv : s.Inv) (i : Instr) : exec i s ≠ .fault f := by
  intro h
  obtain ⟨_, last, im, re, _, hnone⟩ := exec_fault h
  obtain ⟨b, hsome⟩ := processSample_some last im re hinv.params hinv.blk
  simp [hnone] at hsome

/-- A step that faults runs a transaction that faults. -/
theorem step_fault (h : step s = .fault f) : ∃ i t, fetch s = .run i t ∧ exec i t = .fault f := by
  unfold step at h
  split at h
  · cases h
  · next i t hf => exact ⟨i, t, hf, h⟩
  · cases h

/-- Fetching a transaction keeps the invariant, which does not speak of the ports. -/
theorem fetch_run_inv {t : State} {i : Instr} (hinv : s.Inv) (h : fetch s = .run i t) : t.Inv := by
  obtain ⟨hparams, hblk⟩ := fetch_run h
  exact ⟨hparams ▸ hinv.params, by rw [hparams, hblk]; exact hinv.blk⟩

/-- Settles O55: the transaction a step runs meets the invariant, and from there none faults. -/
theorem stepNeverFaults : Obligations.StepNeverFaults := by
  intro s f hinv h
  obtain ⟨i, t, hf, he⟩ := step_fault h
  exact exec_ne_fault (fetch_run_inv hinv hf) i he

end Sys2Proof.Machine

/-! ## The transactions and their words (30_encoding.md R80 to R92)

A form is what a transaction's words spell, whatever register it names. The decoder reads from the words of a form the
transaction of that form, and whatever it reads has a form whose words are those read. -/

namespace Sys2Proof

variable {d : Desc} {k : Kind} {i : Instr} {ws rest : List Desc}

/-! ### The transaction of a form -/

/-- The transaction a form spells (30_encoding.md R90, R92). -/
def Form.toInstr : Form → Instr
  | .rd a => decodeRd a
  | .wr a v => decodeWr a v
  | .sample last im re => .sample last im re
  | .ftake => .ftake

theorem formOf_toInstr (f : Form) : formOf f.toInstr = f := by
  cases f with
  | rd a => exact formOf_decodeRd a
  | wr a v => exact formOf_decodeWr a v
  | sample last im re => rfl
  | ftake => rfl

theorem wellFormed_toInstr (f : Form) : WellFormed f.toInstr = true := by
  cases f with
  | rd a => exact wellFormed_decodeRd a
  | wr a v => exact wellFormed_decodeWr a v
  | sample last im re => rfl
  | ftake => rfl

theorem decodeRd_regAddr (r : Reg) : decodeRd (regAddr r) = rdOf r := by
  simp only [decodeRd, regAt_regAddr]

theorem decodeWr_regAddr (r : Reg) (v : Word) : decodeWr (regAddr r) v = wrOf r v := by
  simp only [decodeWr, regAt_regAddr]

/-- A well-formed transaction is the one its form spells: a mapped address spells its register's, and a bus error's
address is in no row (30_encoding.md R92). -/
theorem toInstr_formOf (h : WellFormed i = true) : (formOf i).toInstr = i := by
  cases i
  case rdBuserr a => exact Machine.decodeRd_of_regAt_none (Option.isNone_iff_eq_none.1 h)
  case wrBuserr a v => exact Machine.decodeWr_of_regAt_none (Option.isNone_iff_eq_none.1 h) v
  case sample last im re => rfl
  case ftake => rfl
  all_goals simp only [formOf, Form.toInstr, decodeRd_regAddr, decodeWr_regAddr, rdOf, wrOf]

/-! ### The fields of a descriptor -/

/-- The number of a kind (30_encoding.md R80). -/
def kindBits : Kind → BitVec 3
  | .rd => 0b000#3
  | .wr => 0b001#3
  | .sample => 0b010#3
  | .ftake => 0b011#3

theorem kindOf_eq_some_iff : kindOf d = some k ↔ d.extractLsb' 13 3 = kindBits k := by
  unfold kindOf
  generalize d.extractLsb' 13 3 = c
  revert c
  cases k <;> decide

/-- A RD's or a WR's descriptor is its kind, a clear bit and its address (30_encoding.md R82). -/
theorem addressed_descriptor {c : BitVec 4} (hc : kindBits k ++ 0#1 = c) (hk : d.extractLsb' 13 3 = kindBits k)
    (h12 : d.extractLsb' 12 1 = 0#1) : c ++ addrOf d = d := by
  rw [← hc, ← hk, ← h12, BitVec.extractLsb'_append_extractLsb'_eq_extractLsb' (by rfl : 13 = 12 + 1)]
  exact BitVec.extractLsb'_append_extractLsb'

theorem ofBool_lastOf (d : Desc) : BitVec.ofBool (lastOf d) = d.extractLsb' 0 1 := by
  refine BitVec.eq_of_getLsbD_eq fun j hj => ?_
  obtain rfl : j = 0 := by omega
  simp [lastOf]

/-- A SAMPLE's descriptor is its kind, twelve clear bits and LAST (30_encoding.md R84). -/
theorem sample_descriptor (hk : d.extractLsb' 13 3 = kindBits .sample) (h1 : d.extractLsb' 1 12 = 0#12) :
    kindBits .sample ++ 0#12 ++ BitVec.ofBool (lastOf d) = d := by
  rw [← hk, ← h1, ofBool_lastOf, BitVec.extractLsb'_append_extractLsb'_eq_extractLsb' (by rfl : 13 = 1 + 12)]
  exact BitVec.extractLsb'_append_extractLsb'

/-- An FTAKE's descriptor is its kind and thirteen clear bits (30_encoding.md R83). -/
theorem ftake_descriptor (hk : d.extractLsb' 13 3 = kindBits .ftake) (h0 : d.extractLsb' 0 13 = 0#13) :
    kindBits .ftake ++ 0#13 = d := by
  rw [← hk, ← h0]
  exact BitVec.extractLsb'_append_extractLsb'

theorem sample_descriptor_fields (last : Bool) :
    kindOf (0b010#3 ++ 0#12 ++ BitVec.ofBool last) = some .sample ∧
      reservedClear .sample (0b010#3 ++ 0#12 ++ BitVec.ofBool last) = true ∧
      lastOf (0b010#3 ++ 0#12 ++ BitVec.ofBool last) = last := by
  cases last <;> decide

/-! ### Decoding the words of a form -/

/-- A descriptor of a defined kind with its reserved bits clear is decoded by its kind (30_encoding.md R81, R89). -/
theorem decode_of_reserved_clear (hk : kindOf d = some k) (hr : reservedClear k d = true) (ws : List Desc) :
    decode (d :: ws) = decodeBody k d ws := by
  simp only [decode, hk, hr, if_true]

/-- The decoder reads from the words of a form the transaction of that form, and leaves the rest. -/
theorem decode_encodeForm (f : Form) (rest : List Desc) : decode (encodeForm f ++ rest) = .ok (f.toInstr, rest) := by
  cases f with
  | rd a =>
    have hclear : reservedClear .rd (0b0000#4 ++ a) = true := reservedClear_append .rd (.inl rfl) _ a
    simp only [encodeForm, List.cons_append, List.nil_append,
      decode_of_reserved_clear (Laws.EncodeLength.ofRd a) hclear, decodeBody, addrOf_append, Form.toInstr]
  | wr a v =>
    have hclear : reservedClear .wr (0b0010#4 ++ a) = true := reservedClear_append .wr (.inr rfl) _ a
    simp only [encodeForm, List.cons_append, List.nil_append,
      decode_of_reserved_clear (Laws.EncodeLength.ofWr a) hclear, decodeBody, addrOf_append,
      BitVec.extractLsb'_append_extractLsb', Form.toInstr]
  | sample last im re =>
    obtain ⟨hkind, hclear, hlast⟩ := sample_descriptor_fields last
    simp only [encodeForm, List.cons_append, List.nil_append, decode_of_reserved_clear hkind hclear, decodeBody, hlast,
      BitVec.extractLsb'_append_extractLsb', Form.toInstr]
  | ftake => rfl

/-- Settles O1: a well-formed transaction is the one of its form. -/
theorem decodeOfEncode : Obligations.DecodeOfEncode := by
  intro i rest h
  rw [encode, decode_encodeForm, toInstr_formOf h]

/-! ### The form of what the decoder reads -/

/-- A transaction that the decoder reads begins with a descriptor of a defined kind, its reserved bits clear. -/
theorem decode_ok (h : decode ws = .ok (i, rest)) :
    ∃ d payload k, ws = d :: payload ∧ kindOf d = some k ∧ reservedClear k d = true ∧
      decodeBody k d payload = .ok (i, rest) := by
  unfold decode at h
  split at h
  · cases h
  · next d payload =>
    split at h
    · cases h
    · next k hk =>
      split at h
      · next hr => exact ⟨d, payload, k, rfl, hk, hr, h⟩
      · cases h

/-- What is read is the transaction of a form whose words are the descriptor and the payload read. -/
theorem decodeBody_ok (hk : kindOf d = some k) (hr : reservedClear k d = true)
    (h : decodeBody k d ws = .ok (i, rest)) : ∃ f : Form, i = f.toInstr ∧ encodeForm f ++ rest = d :: ws := by
  have hbits := kindOf_eq_some_iff.1 hk
  cases k with
  | rd =>
    cases h
    exact ⟨.rd (addrOf d), rfl, congrArg (· :: ws) (addressed_descriptor rfl hbits (eq_of_beq hr))⟩
  | wr =>
    obtain _ | ⟨w0, _ | ⟨w1, tail⟩⟩ := ws
    · cases h
    · cases h
    cases h
    have hd : 0b0010#4 ++ addrOf d = d := addressed_descriptor rfl hbits (eq_of_beq hr)
    refine ⟨.wr (addrOf d) (w1 ++ w0), rfl, ?_⟩
    rw [encodeForm, hd, BitVec.extractLsb'_append_eq_left, BitVec.extractLsb'_append_eq_right]
    rfl
  | sample =>
    obtain _ | ⟨w0, _ | ⟨w1, _ | ⟨w2, _ | ⟨w3, tail⟩⟩⟩⟩ := ws
    · cases h
    · cases h
    · cases h
    · cases h
    cases h
    have hd : 0b010#3 ++ 0#12 ++ BitVec.ofBool (lastOf d) = d := sample_descriptor hbits (eq_of_beq hr)
    refine ⟨.sample (lastOf d) (w3 ++ w2) (w1 ++ w0), rfl, ?_⟩
    rw [encodeForm, hd, BitVec.extractLsb'_append_eq_left, BitVec.extractLsb'_append_eq_right,
      BitVec.extractLsb'_append_eq_left, BitVec.extractLsb'_append_eq_right]
    rfl
  | ftake =>
    cases h
    exact ⟨.ftake, rfl, congrArg (· :: ws) (ftake_descriptor hbits (eq_of_beq hr))⟩

/-- Settles O2: what the decoder reads is the transaction of a form, and its words are that form's. -/
theorem encodeOfDecode : Obligations.EncodeOfDecode := by
  intro ws rest i h
  obtain ⟨d, payload, k, rfl, hk, hr, hbody⟩ := decode_ok h
  obtain ⟨f, rfl, hwords⟩ := decodeBody_ok hk hr hbody
  exact ⟨wellFormed_toInstr f, by rw [encode, formOf_toInstr, hwords]⟩

/-- Settles O4: each list of words is what the encoder writes for the transaction it spells. -/
theorem specWordsDecode : Obligations.SpecWordsDecode :=
  ⟨decodeOfEncode .rdStatus [] rfl, decodeOfEncode (.rdBuserr 0x011#12) [] rfl,
    decodeOfEncode (.wrCtrl 0x21#32) [] rfl, decodeOfEncode (.wrHoldoff 0x00010258#32) [] rfl,
    decodeOfEncode (.wrBuserr 0x0FC#12 1#32) [] rfl,
    decodeOfEncode (.sample false 0x40800000#32 0x40400000#32) [] rfl,
    decodeOfEncode (.sample true 0#32 0x3F800000#32) [] rfl, decodeOfEncode .ftake [] rfl⟩

end Sys2Proof

/-! ## Reset (70_reset_and_hazards.md R350 to R352) -/

namespace Sys2Proof.Machine

/-- A WR to CTRL with SRESET = 1 resets the block, whatever else it says (70_reset_and_hazards.md R351). -/
theorem writeCtrl_of_reset {v : Word} (hreset : v.getLsbD 2 = true) (b : Block) : writeCtrl v b = Block.reset := by
  simp only [writeCtrl, hreset, if_true, resetBlock_eq]

/-- Settles O9: the fetch performs the reset, and no transaction follows. -/
theorem resetInputPerformsReset : Obligations.ResetInputPerformsReset := by
  refine ⟨rfl, rfl, fun s ts hturn => ?_⟩
  simp only [step, fetch, hturn, resetBlock_eq]

/-- Settles O10: Reset() does not look at the block it finds. -/
theorem resetValues : Obligations.ResetValues := by
  intro b
  rw [resetBlock_eq]
  exact ⟨rfl, by decide, noiseWord_of_nil rfl, rfl, rfl⟩

/-- Settles O11: the WR stores the reset block and touches no port. -/
theorem softReset : Obligations.SoftReset := by
  intro s v hreset
  exact ⟨_, congrArg (storeWr s) (writeCtrl_of_reset hreset s.blk), rfl, rfl, rfl⟩

/-- Settles O53: the default parameters are legal, and the reset block meets the invariant under any. -/
theorem resetMeetsInvariant : Obligations.ResetMeetsInvariant := ⟨by decide, reset_inv _⟩

end Sys2Proof.Machine

/-! ## NaN thresholds (70_reset_and_hazards.md R363) -/

namespace Sys2Proof.Machine

variable {b b' : Block} {i g : SampleNo}

/-- No score is above a bound that is NaN. -/
theorem exceedsBounds_of_nan (h : f32 b.tAbs = .nan ∨ f32 b.kRel = .nan) (c : Fp) (nz : Word) :
    exceedsBounds b c nz = false := by
  obtain ⟨_, hgt, _⟩ := comparisons_nan c
  obtain hT | hK := h
  · rw [exceedsBounds, hT, hgt, Bool.false_and]
  · obtain ⟨_, _, _, _, hmul, _⟩ := sums_and_products_nan (f32 nz)
    rw [exceedsBounds, hK, hmul, hgt, Bool.and_false]

theorem qualify_of_nan (h : f32 b.tAbs = .nan ∨ f32 b.kRel = .nan) {q : Bool} (hq : qualify b i = some q) :
    q = false := by
  simp only [qualify, Option.bind_eq_bind, Option.bind_eq_some_iff, Option.some.injEq] at hq
  obtain ⟨c, _, nz, _, rfl⟩ := hq
  exact exceedsBounds_of_nan h c nz

/-- With such a bound the correlator's turn counts nothing: no index qualifies. -/
theorem decideStep_of_nan (h : f32 b.tAbs = .nan ∨ f32 b.kRel = .nan) (hd : decideStep g b = some b') :
    b'.cntHit = b.cntHit ∧ b'.cntSupp = b.cntSupp := by
  obtain ⟨_, rfl⟩ | ⟨_, hd⟩ := decideStep_cases hd
  · exact ⟨rfl, rfl⟩
  obtain ⟨q, hq, _⟩ := decideIndex_cases hd
  rw [qualify_of_nan h hq] at hq
  rw [decideIndex_unqualified_eq hd hq]
  exact ⟨rfl, rfl⟩

/-- Settles O45: no index qualifies under a NaN bound, and no difference is above a NaN EPS. -/
theorem nanThresholdsDisable : Obligations.NanThresholdsDisable := by
  refine ⟨fun s t last im re hnan h => ?_, fun eps x y hnan => ?_⟩
  · obtain ⟨_, rfl⟩ | ⟨_, u, hu, rfl⟩ := exec_sample_cases h
    · exact ⟨rfl, rfl⟩
    obtain ⟨_, _, _, _, hhit, hsupp, _⟩ := ite_flush_counters last u
    obtain ⟨b1, h1, h2⟩ := processSample_stages hu
    obtain ⟨hhit1, hsupp1, _⟩ := demodStep_store_guard h1
    have hframe := demodStep_frame h1
    have hT : b1.tAbs = s.blk.tAbs := (congrArg Block.tAbs hframe :)
    have hK : b1.kRel = s.blk.kRel := (congrArg Block.kRel hframe :)
    obtain ⟨hhit2, hsupp2⟩ := decideStep_of_nan (by rw [hT, hK]; exact hnan) h2
    exact ⟨hhit.trans (hhit2.trans hhit1), hsupp.trans (hsupp2.trans hsupp1)⟩
  · obtain ⟨_, hgt, _⟩ := comparisons_nan (fabs (fsub x y))
    simp only [softFlag, hnan, hgt, Bool.not_false]

end Sys2Proof.Machine
